-- ==== Sys2Proof/Word.lean ====
section
/-! DEFINITION. The word types of the block (`00_scope.md` R9). A value the spec treats as bits is a bit vector;
counts, sizes and offsets are `Nat`. -/

namespace Sys2Proof

/-- `u8`: one byte of any byte space (`20_memory.md` R40). -/
abbrev Byte := BitVec 8
/-- `u16` (R9). -/
abbrev U16 := BitVec 16
/-- `i16`: the 16-bit two's-complement pattern of a signed value (`30_encoding.md` R74; log 27, PRESUMED). -/
abbrev I16 := BitVec 16
/-- `u32` (R9). -/
abbrev U32 := BitVec 32
/-- `f32`: the bit pattern of an IEEE 754 binary32 value (R9, decision D4). -/
abbrev F32 := BitVec 32
/-- A pair (throttle, steering) of binary32 values. -/
abbrev Axes := F32 × F32

end Sys2Proof
end

