-- ==== Sys2Proof/Machine/Float.lean ====
section
/-! DEFINITION. IEEE 754 binary32 on bit patterns (`00_scope.md` R9; `92_eei_decisions.md` D4, D5; log 15, PRESUMED):
round to nearest, ties to even, subnormals kept, comparisons false on NaN, no exception flags.

Every finite binary32 value is a whole number of units of 2^-149, so exact sums are integers and exact products and
quotients are ratios of integers; `roundUnits` narrows them once. -/

namespace Sys2Proof.Machine

/-- The sign bit. -/
def f32Neg (x : F32) : Bool := x.msb

/-- Bits 30..0 as a number: it rises with the magnitude; `0x7F800000` is infinity, above it NaN. -/
def f32Mag (x : F32) : Nat := x.toNat % 2 ^ 31

def f32IsNaN (x : F32) : Bool := decide (0x7F800000 < f32Mag x)

def f32IsInf (x : F32) : Bool := decide (f32Mag x = 0x7F800000)

def f32IsFinite (x : F32) : Bool := decide (f32Mag x < 0x7F800000)

/-- The pattern of a given sign and magnitude. -/
def f32Pack (neg : Bool) (mag : Nat) : F32 := BitVec.ofNat 32 ((if neg then 2 ^ 31 else 0) + mag)

/-- The magnitude of a finite value in units of 2^-149. -/
def f32Units (x : F32) : Nat :=
  let e := f32Mag x / 2 ^ 23
  let m := f32Mag x % 2 ^ 23
  if e = 0 then m else (2 ^ 23 + m) * 2 ^ (e - 1)

/-- A finite value in units of 2^-149. -/
def f32Scaled (x : F32) : Int := if f32Neg x then -(f32Units x : Int) else (f32Units x : Int)

/-- The integer nearest `n / d`, ties to even. -/
def divRoundEven (n d : Nat) : Nat :=
  let q := n / d
  let r := n % d
  if 2 * r < d then q else if d < 2 * r then q + 1 else if q % 2 = 0 then q else q + 1

/-- The magnitude bits of the binary32 nearest `n / d` units of 2^-149. The last place is worth 2^k units, where `k` is 0
below 2^24 units; a significand that rounds up to 2^24 carries into the exponent field, and what reaches the exponent of
infinity is infinity. -/
def roundUnits (n d : Nat) : Nat :=
  let k := Nat.log2 (n / d) - 23
  min (k * 2 ^ 23 + divRoundEven n (d * 2 ^ k)) 0x7F800000

/-- The quiet NaN that an arithmetic operation produces; no rule stores it (log 14). -/
def f32QuietNaN : F32 := 0x7FC00000

def f32Infinity (neg : Bool) : F32 := f32Pack neg 0x7F800000

/-- `fneg`: the sign bit changed (`45_slew.md` R190). -/
def fneg (x : F32) : F32 := x ^^^ 0x80000000

/-- A zero sum is `+0.0` unless both operands are negative. -/
def fadd (a b : F32) : F32 :=
  if f32IsNaN a || f32IsNaN b then f32QuietNaN
  else if f32IsInf a then
    if f32IsInf b && (f32Neg a != f32Neg b) then f32QuietNaN else a
  else if f32IsInf b then b
  else
    let z := f32Scaled a + f32Scaled b
    if z = 0 then f32Pack (f32Neg a && f32Neg b) 0
    else f32Pack (decide (z < 0)) (roundUnits z.natAbs 1)

def fsub (a b : F32) : F32 := fadd a (fneg b)

def fmul (a b : F32) : F32 :=
  let neg := f32Neg a != f32Neg b
  if f32IsNaN a || f32IsNaN b then f32QuietNaN
  else if f32IsInf a || f32IsInf b then
    if f32Mag a = 0 ∨ f32Mag b = 0 then f32QuietNaN else f32Infinity neg
  else f32Pack neg (roundUnits (f32Units a * f32Units b) (2 ^ 149))

def fdiv (a b : F32) : F32 :=
  let neg := f32Neg a != f32Neg b
  if f32IsNaN a || f32IsNaN b then f32QuietNaN
  else if f32IsInf a then if f32IsInf b then f32QuietNaN else f32Infinity neg
  else if f32IsInf b then f32Pack neg 0
  else if f32Mag b = 0 then if f32Mag a = 0 then f32QuietNaN else f32Infinity neg
  else f32Pack neg (roundUnits (f32Units a * 2 ^ 149) (f32Units b))

/-- A key that orders every pattern but NaN as its value is ordered; the two zeros have one key. -/
def f32Key (x : F32) : Int := if f32Neg x then -(f32Mag x : Int) else (f32Mag x : Int)

/-- `flt` (R9): false when an operand is NaN. -/
def flt (a b : F32) : Bool := !f32IsNaN a && !f32IsNaN b && decide (f32Key a < f32Key b)

/-- `fgt` (R9). -/
def fgt (a b : F32) : Bool := flt b a

/-- `feq` (R9): false when an operand is NaN; the two zeros are equal. -/
def feq (a b : F32) : Bool := !f32IsNaN a && !f32IsNaN b && decide (f32Key a = f32Key b)

/-- `f32_of_u32(n)`, rounded once (R9). -/
def f32OfU32 (n : U32) : F32 := f32Pack false (roundUnits (n.toNat * 2 ^ 149) 1)

/-- `f32_of_i16(n)` (R9); every i16 is exact. -/
def f32OfI16 (n : I16) : F32 := f32Pack (decide (n.toInt < 0)) (roundUnits (n.toInt.natAbs * 2 ^ 149) 1)

/-- `round_i(x)`: the integer nearest a finite `x`, ties away from zero (R9, D5). -/
def roundI (x : F32) : Int :=
  let n : Int := ((2 * f32Units x + 2 ^ 149) / 2 ^ 150 : Nat)
  if f32Neg x then -n else n

/-- `32767.0` -/
def f32Scale : F32 := 0x46FFFE00

/-- `1000.0` -/
def f32Thousand : F32 := 0x447A0000

/-- `1.0` -/
def f32One : F32 := 0x3F800000

/-- `+0.0`, neutral on an axis (`00_scope.md` section 6, Neutral). -/
def f32Zero : F32 := 0x00000000

/-- Finite and in [-1, 1] (`30_encoding.md` R72). -/
def axisInDomain (v : F32) : Bool := decide (f32Mag v ≤ f32Mag f32One)

end Sys2Proof.Machine
end

