-- ==== Sys2Proof/Syntax.lean ====
section
/-! DEFINITION. The operations and frames of `spec/opcode_table.json`, one constructor of `Instr` per row, and the
values they carry (`30_encoding.md` R64, R67 to R70, R77, R80). -/

namespace Sys2Proof

/-- `MessageType` (R64, R80). Its wire codes are `typeCode` of `Machine/Bytes.lean`. -/
inductive MessageType where
  | command
  | telemetry
  | ping
  | pong
  | log
  deriving DecidableEq, Repr

/-- The six raw sensor words of telemetry, opaque to the block (`10_state.md` R31, `30_encoding.md` R68). -/
structure Sensors where
  ax : I16
  ay : I16
  az : I16
  gx : I16
  gy : I16
  gz : I16
  deriving DecidableEq, Repr

/-- `CommandData` (R80). -/
structure CommandData where
  seq : U16
  throttle : F32
  steering : F32
  deriving DecidableEq, Repr

/-- `TelemetryData` (R80), its six words together. -/
structure TelemetryData where
  seq : U16
  status : Byte
  sensors : Sensors
  deriving DecidableEq, Repr

/-- A decoded frame value (R80): Ping and Pong carry nothing, a Log its bytes. -/
inductive FrameValue where
  | command (d : CommandData)
  | telemetry (d : TelemetryData)
  | ping
  | pong
  | log (text : List Byte)
  deriving DecidableEq, Repr

/-- One constructor per row of `spec/opcode_table.json`: five wire rows, then 27 operations. The operands of a wire row
are what its frame carries after the header: the payload fields of R67 to R70 and the stored CRC (R66), whether or not it
is the right one. -/
inductive Instr where
  | frameCommand (seq : U16) (thr steer : I16) (reserved : Byte) (crc : U16)
  | frameTelemetry (seq : U16) (status : Byte) (sensors : Sensors) (crc : U16)
  | framePing (crc : U16)
  | framePong (crc : U16)
  | frameLog (text : List Byte) (crc : U16)
  | crcInit
  | crcByte (b : Byte)
  | crcRange (bytes : List Byte)
  | codecBuild (type : MessageType) (payload : List Byte) (destSize : Nat)
  | codecHdr (bytes : List Byte)
  | codecLen (bytes : List Byte)
  | codecCrcok (bytes : List Byte)
  | codecParseCmd (bytes : List Byte)
  | codecParseTlm (bytes : List Byte)
  | codecParsePing (bytes : List Byte)
  | codecParsePong (bytes : List Byte)
  | codecParseLog (bytes : List Byte)
  | codecEncCmd (seq : U16) (throttle steering : F32)
  | codecEncTlm (seq : U16) (status : Byte) (sensors : Sensors)
  | codecEncLog (text : List Byte)
  | rxPush (bytes : List Byte)
  | rxExtract (type : MessageType)
  | radioPoll (sample : Option Axes)
  | netSubmit (thr steer : F32)
  | netTake
  | netCmd (thr steer : F32) (now : U32)
  | liveEval (now : U32)
  | arbSelect (now : U32)
  | fsUpdate (now : U32) (sourceActive : Bool)
  | fsReset
  | slewStep (target current rate : F32) (dtMs : U32)
  | tick (now : U32) (rxBytes : List Byte) (radioSample : Option Axes) (sensors : Sensors) (txError : Bool)
  deriving DecidableEq, Repr

end Sys2Proof
end

