-- ==== Sys2Proof/Config.lean ====
section
/-! DEFINITION. What is fixed for one block: the fixed values and the parameters of `00_scope.md` R8, and the one free
value the spec leaves (log 13). -/

namespace Sys2Proof

namespace Config

/-- `LOG_MAX`: the longest Log payload (R8, `30_encoding.md` R70). -/
def logMax : Nat := 200

/-- The largest frame, `6 + 200 + 2` bytes (`30_encoding.md` R61). -/
def maxFrame : Nat := 208

/-- The values of `FS_LAST_ACTIVE_MS` after an `FS.RESET`, which makes the register "unspecified again"
(`44_failsafe.md` R174): free, one for each count. No body: nothing can be proved of a value (log 13, DESIGN CHOICE). -/
opaque freeU32 : Nat → U32

end Config

/-- `LINK_END` (R8). -/
inductive LinkEnd where
  | actuator
  | gateway
  deriving DecidableEq, Repr

/-- `NET_MERGE` (R8, decision D20). -/
inductive NetMerge where
  | slotWins
  | frameWins
  deriving DecidableEq, Repr

/-- The parameters of R8: control registers, fixed before reset is released and read-only while the block runs
(`10_state.md` R28). -/
structure Params where
  cap : Nat
  netTimeoutMs : U32
  fsTimeoutMs : U32
  tripOnBoot : Bool
  /-- Timing only: no rule reads it (R8). -/
  tickPeriodMs : Nat
  actIntervalMs : U32
  rcPollIntervalMs : U32
  tlmIntervalMs : U32
  slewRateThr : F32
  slewRateSteer : F32
  expectedTypes : List MessageType
  linkEnd : LinkEnd
  txbufSize : Nat
  skipOnInsufficient : Bool
  recoveringForcesNeutral : Bool
  netMerge : NetMerge
  deriving DecidableEq, Repr

/-- The defaults of R8; where R8 gives none, zero, and `[Command]` as the shortest list an actuator end may have
(log 9, DESIGN CHOICE, unsafe: no statement may rest on these). -/
def Params.default : Params where
  cap := 1024
  netTimeoutMs := 500
  fsTimeoutMs := 0
  tripOnBoot := true
  tickPeriodMs := 2
  actIntervalMs := 0
  rcPollIntervalMs := 0
  tlmIntervalMs := 0
  slewRateThr := 0
  slewRateSteer := 0
  expectedTypes := [.command]
  linkEnd := .actuator
  txbufSize := 208
  skipOnInsufficient := false
  recoveringForcesNeutral := false
  netMerge := .slotWins

end Sys2Proof
end

