-- ==== Sys2Proof/Machine/Bytes.lean ====
section
/-! DEFINITION. Byte order, field access, type codes and the wire layouts (`20_memory.md` R41, R42, R46; `30_encoding.md`
R60 to R70, R74). -/

namespace Sys2Proof

/-- `le16(lo, hi) = {hi, lo}` (`00_scope.md` R9, `20_memory.md` R41). -/
def le16 (lo hi : Byte) : U16 := hi ++ lo

/-- `v[7:0]` (R9). -/
def lowByte (v : U16) : Byte := v.extractLsb' 0 8

/-- `v[15:8]` (R9). -/
def highByte (v : U16) : Byte := v.extractLsb' 8 8

/-- A 16-bit field as its two bytes, lower offset first (`30_encoding.md` R74, R41). -/
def bytes16 (v : U16) : List Byte := [lowByte v, highByte v]

/-- Four bytes of a request operand, lowest offset least significant (log 2: no 32-bit field is on the wire, R41). -/
def le32 (b0 b1 b2 b3 : Byte) : U32 := b3 ++ b2 ++ b1 ++ b0

/-- A 32-bit request operand as its four bytes, lower offset first (log 2). -/
def bytes32 (v : U32) : List Byte :=
  [v.extractLsb' 0 8, v.extractLsb' 8 8, v.extractLsb' 16 8, v.extractLsb' 24 8]

/-- `MemRead(S, o, 1)` on a byte string (`20_memory.md` R42). Every caller checks the length first; what stands beyond
the end is never read (log 22). -/
def byteAt (S : List Byte) (o : Nat) : Byte := S.getD o 0

/-- `MemRead(S, o, 2)` on a byte string (`20_memory.md` R42, R43: no alignment). -/
def wordAt (S : List Byte) (o : Nat) : U16 := le16 (byteAt S o) (byteAt S (o + 1))

/-- `S[a .. b)` (`00_scope.md` R9). -/
def slice (S : List Byte) (a b : Nat) : List Byte := (S.take b).drop a

/-- `code(T)` (`30_encoding.md` R64). -/
def typeCode : MessageType → Byte
  | .command => 0x01
  | .telemetry => 0x02
  | .ping => 0x03
  | .pong => 0x04
  | .log => 0x05

/-- The type with a given code; every other byte is unassigned (R64, R75). -/
def typeOfCode (b : Byte) : Option MessageType :=
  if b = 0x01 then some .command
  else if b = 0x02 then some .telemetry
  else if b = 0x03 then some .ping
  else if b = 0x04 then some .pong
  else if b = 0x05 then some .log
  else none

/-- The first six bytes of a frame: prefix, version, type, length (R60 to R65). -/
def headerBytes (t : MessageType) (len : U16) : List Byte :=
  [0xAA, 0x55, 0x01, typeCode t] ++ bytes16 len

/-- A frame with a given stored CRC, right or wrong (R60, R66). -/
def frameBytes (t : MessageType) (payload : List Byte) (crc : U16) : List Byte :=
  headerBytes t (BitVec.ofNat 16 payload.length) ++ (payload ++ bytes16 crc)

/-- The Command payload layout, 7 bytes (R67). -/
def commandPayload (seq : U16) (thr steer : I16) (reserved : Byte) : List Byte :=
  bytes16 seq ++ (bytes16 thr ++ (bytes16 steer ++ [reserved]))

/-- The six sensor words in the order ax, ay, az, gx, gy, gz (R68). -/
def sensorBytes (w : Sensors) : List Byte :=
  bytes16 w.ax ++ (bytes16 w.ay ++ (bytes16 w.az ++ (bytes16 w.gx ++ (bytes16 w.gy ++ bytes16 w.gz))))

/-- The Telemetry payload layout, 15 bytes (R68). -/
def telemetryPayload (seq : U16) (status : Byte) (w : Sensors) : List Byte :=
  bytes16 seq ++ ([status] ++ sensorBytes w)

end Sys2Proof
end

