-- ==== Sys2Proof/WellFormed.lean ====
section
/-! DEFINITION. Which terms of `Instr` an encoding admits: the operand ranges of `30_encoding.md` R70 and
`41_frame_codec.md` R100, and the lengths that a request can carry (log 2). -/

namespace Sys2Proof

/-- A byte string that the 32-bit length of a request operand can count (log 2). -/
def bytesFit (bs : List Byte) : Bool := decide (bs.length < 2 ^ 32)

/-- The well-formed instructions. A Log frame carries at most 200 bytes (R70), a build payload at most 65535 (R100). -/
def Instr.wf : Instr → Bool
  | .frameCommand _ _ _ _ _ => true
  | .frameTelemetry _ _ _ _ => true
  | .framePing _ => true
  | .framePong _ => true
  | .frameLog text _ => decide (text.length ≤ 200)
  | .crcInit => true
  | .crcByte _ => true
  | .crcRange bytes => bytesFit bytes
  | .codecBuild _ payload destSize => decide (payload.length ≤ 65535) && decide (destSize < 2 ^ 32)
  | .codecHdr bytes => bytesFit bytes
  | .codecLen bytes => bytesFit bytes
  | .codecCrcok bytes => bytesFit bytes
  | .codecParseCmd bytes => bytesFit bytes
  | .codecParseTlm bytes => bytesFit bytes
  | .codecParsePing bytes => bytesFit bytes
  | .codecParsePong bytes => bytesFit bytes
  | .codecParseLog bytes => bytesFit bytes
  | .codecEncCmd _ _ _ => true
  | .codecEncTlm _ _ _ => true
  | .codecEncLog text => bytesFit text
  | .rxPush bytes => bytesFit bytes
  | .rxExtract _ => true
  | .radioPoll _ => true
  | .netSubmit _ _ => true
  | .netTake => true
  | .netCmd _ _ _ => true
  | .liveEval _ => true
  | .arbSelect _ => true
  | .fsUpdate _ _ => true
  | .fsReset => true
  | .slewStep _ _ _ _ => true
  | .tick _ rxBytes _ _ _ => bytesFit rxBytes

end Sys2Proof
end

