-- ==== Sys2Proof/Decode.lean ====
section
/-! DEFINITION. Reading a request: an operation-select code and its operands (`30_encoding.md` R77), or a wire frame
(R60, R79). The select code has 7 bits, so a first byte below `0x80` is an operation; a frame begins `AA 55`. The layout
of the operands is the model's (log 2). The encoder follows. -/

namespace Sys2Proof

/-- Why the bytes of a request are no instruction (log 3). -/
inductive DecodeError where
  /-- The request has no byte. -/
  | emptyRequest
  /-- An operand or a frame is cut short. -/
  | truncated
  /-- A select code other than the 27 assigned (R77). -/
  | unassignedOp (code : Byte)
  /-- A type operand above 4 (R75: `CODEC.BUILD` is given only the five types). -/
  | unassignedTypeOperand (b : Byte)
  /-- A flag operand that is neither 0 nor 1. -/
  | badFlag (b : Byte)
  /-- A frame header whose prefix is not `AA 55` (R62). -/
  | framePrefix
  /-- A frame header whose version is not `01` (R63). -/
  | frameVersion
  /-- A frame header whose type is none of the five (R64). -/
  | frameType
  /-- A frame header whose length no row of its type admits (R64). -/
  | frameLength
  deriving DecidableEq, Repr

/-- What reading gives: a value and the bytes after it, or a reason. -/
inductive Decoded (α : Type) where
  | ok (v : α) (rest : List Byte)
  | bad (e : DecodeError)
  deriving DecidableEq, Repr

/-- Read on from where the first part ended. -/
def Decoded.andThen {α β : Type} (d : Decoded α) (f : α → List Byte → Decoded β) : Decoded β :=
  match d with
  | .ok v rest => f v rest
  | .bad e => .bad e

/-! ## Operands (log 2) -/

def readByte : List Byte → Decoded Byte
  | b :: r => .ok b r
  | [] => .bad .truncated

def readU16 : List Byte → Decoded U16
  | b0 :: b1 :: r => .ok (le16 b0 b1) r
  | _ => .bad .truncated

def readU32 : List Byte → Decoded U32
  | b0 :: b1 :: b2 :: b3 :: r => .ok (le32 b0 b1 b2 b3) r
  | _ => .bad .truncated

/-- Exactly `n` bytes. -/
def readCount (n : Nat) (bs : List Byte) : Decoded (List Byte) :=
  if n ≤ bs.length then .ok (bs.take n) (bs.drop n) else .bad .truncated

/-- A byte string: a 32-bit length, then the bytes. -/
def readBytes (bs : List Byte) : Decoded (List Byte) :=
  (readU32 bs).andThen fun n r => readCount n.toNat r

/-- A build payload: a 16-bit length, then the bytes (`len(P) <= 65535`, R100). -/
def readPayload (bs : List Byte) : Decoded (List Byte) :=
  (readU16 bs).andThen fun n r => readCount n.toNat r

/-- The type operand of index `b`: 0 to 4 in the order of R64 (the wire code less 1). -/
def typeOfOperand (b : Byte) : Option MessageType := typeOfCode (b + 1)

def readType (bs : List Byte) : Decoded MessageType :=
  (readByte bs).andThen fun b r =>
    match typeOfOperand b with
    | some t => .ok t r
    | none => .bad (.unassignedTypeOperand b)

def readFlag (bs : List Byte) : Decoded Bool :=
  (readByte bs).andThen fun b r =>
    if b = 0 then .ok false r else if b = 1 then .ok true r else .bad (.badFlag b)

/-- An optional pair: a flag, then the pair where the flag is 1 (`None` or `Some(thr, steer)`). -/
def readSample (bs : List Byte) : Decoded (Option Axes) :=
  (readFlag bs).andThen fun f r =>
    if f then (readU32 r).andThen fun thr r => (readU32 r).andThen fun steer r => .ok (some (thr, steer)) r
    else .ok none r

def readSensors (bs : List Byte) : Decoded Sensors :=
  (readU16 bs).andThen fun ax r => (readU16 r).andThen fun ay r => (readU16 r).andThen fun az r =>
  (readU16 r).andThen fun gx r => (readU16 r).andThen fun gy r => (readU16 r).andThen fun gz r =>
  .ok { ax := ax, ay := ay, az := az, gx := gx, gy := gy, gz := gz } r

/-! ## Operations (R77) -/

/-- The operation with select code `op`, its operands read from `r` (R77's table). -/
def decodeOp (op : Byte) (r : List Byte) : Decoded Instr :=
  match op.toNat with
  | 0x00 => .ok .crcInit r
  | 0x01 => (readByte r).andThen fun b r => .ok (.crcByte b) r
  | 0x02 => (readBytes r).andThen fun bs r => .ok (.crcRange bs) r
  | 0x10 => (readType r).andThen fun t r => (readPayload r).andThen fun p r =>
      (readU32 r).andThen fun d r => .ok (.codecBuild t p d.toNat) r
  | 0x11 => (readBytes r).andThen fun bs r => .ok (.codecHdr bs) r
  | 0x12 => (readBytes r).andThen fun bs r => .ok (.codecLen bs) r
  | 0x13 => (readBytes r).andThen fun bs r => .ok (.codecCrcok bs) r
  | 0x14 => (readBytes r).andThen fun bs r => .ok (.codecParseCmd bs) r
  | 0x15 => (readBytes r).andThen fun bs r => .ok (.codecParseTlm bs) r
  | 0x16 => (readBytes r).andThen fun bs r => .ok (.codecParsePing bs) r
  | 0x17 => (readBytes r).andThen fun bs r => .ok (.codecParsePong bs) r
  | 0x18 => (readBytes r).andThen fun bs r => .ok (.codecParseLog bs) r
  | 0x19 => (readU16 r).andThen fun seq r => (readU32 r).andThen fun thr r => (readU32 r).andThen fun steer r =>
      .ok (.codecEncCmd seq thr steer) r
  | 0x1A => (readU16 r).andThen fun seq r => (readByte r).andThen fun status r => (readSensors r).andThen fun w r =>
      .ok (.codecEncTlm seq status w) r
  | 0x1B => (readBytes r).andThen fun bs r => .ok (.codecEncLog bs) r
  | 0x20 => (readBytes r).andThen fun bs r => .ok (.rxPush bs) r
  | 0x21 => (readType r).andThen fun t r => .ok (.rxExtract t) r
  | 0x30 => (readSample r).andThen fun a r => .ok (.radioPoll a) r
  | 0x31 => (readU32 r).andThen fun thr r => (readU32 r).andThen fun steer r => .ok (.netSubmit thr steer) r
  | 0x32 => .ok .netTake r
  | 0x33 => (readU32 r).andThen fun thr r => (readU32 r).andThen fun steer r => (readU32 r).andThen fun now r =>
      .ok (.netCmd thr steer now) r
  | 0x34 => (readU32 r).andThen fun now r => .ok (.liveEval now) r
  | 0x35 => (readU32 r).andThen fun now r => .ok (.arbSelect now) r
  | 0x40 => (readU32 r).andThen fun now r => (readFlag r).andThen fun a r => .ok (.fsUpdate now a) r
  | 0x41 => .ok .fsReset r
  | 0x50 => (readU32 r).andThen fun target r => (readU32 r).andThen fun current r =>
      (readU32 r).andThen fun rate r => (readU32 r).andThen fun dt r => .ok (.slewStep target current rate dt) r
  | 0x60 => (readU32 r).andThen fun now r => (readBytes r).andThen fun bs r => (readSample r).andThen fun a r =>
      (readSensors r).andThen fun w r => (readFlag r).andThen fun e r => .ok (.tick now bs a w e) r
  | _ => .bad (.unassignedOp op)

/-! ## Frames (R60, R79) -/

/-- The row of type `t` and length `len`, its payload and CRC read from `r`: the row is selected by the header alone
(R79), so the stored CRC is an operand. -/
def decodeFrameBody (t : MessageType) (len : Nat) (r : List Byte) : Decoded Instr :=
  match t with
  | .command =>
    if len = 7 then
      (readU16 r).andThen fun seq r => (readU16 r).andThen fun thr r => (readU16 r).andThen fun steer r =>
      (readByte r).andThen fun reserved r => (readU16 r).andThen fun crc r =>
      .ok (.frameCommand seq thr steer reserved crc) r
    else .bad .frameLength
  | .telemetry =>
    if len = 15 then
      (readU16 r).andThen fun seq r => (readByte r).andThen fun status r => (readSensors r).andThen fun w r =>
      (readU16 r).andThen fun crc r => .ok (.frameTelemetry seq status w crc) r
    else .bad .frameLength
  | .ping => if len = 0 then (readU16 r).andThen fun crc r => .ok (.framePing crc) r else .bad .frameLength
  | .pong => if len = 0 then (readU16 r).andThen fun crc r => .ok (.framePong crc) r else .bad .frameLength
  | .log =>
    if len ≤ 200 then
      (readCount len r).andThen fun text r => (readU16 r).andThen fun crc r => .ok (.frameLog text crc) r
    else .bad .frameLength

/-- A wire frame: the header selects the row (R79). -/
def decodeFrame : List Byte → Decoded Instr
  | p0 :: p1 :: version :: code :: l0 :: l1 :: r =>
    if p0 ≠ 0xAA ∨ p1 ≠ 0x55 then .bad .framePrefix
    else if version ≠ 0x01 then .bad .frameVersion
    else match typeOfCode code with
      | none => .bad .frameType
      | some t => decodeFrameBody t (le16 l0 l1).toNat r
  | _ => .bad .truncated

/-- The instruction at the front of a request. Total: every byte string gives an instruction or a reason. -/
def decode : List Byte → Decoded Instr
  | [] => .bad .emptyRequest
  | b :: r => if b.toNat < 0x80 then decodeOp b r else decodeFrame (b :: r)

/-! ## The encoder -/

def writeBytes (bs : List Byte) : List Byte := bytes32 (BitVec.ofNat 32 bs.length) ++ bs

def writePayload (bs : List Byte) : List Byte := bytes16 (BitVec.ofNat 16 bs.length) ++ bs

def writeType (t : MessageType) : List Byte := [typeCode t - 1]

def writeFlag (f : Bool) : List Byte := [if f then 1 else 0]

def writeSample : Option Axes → List Byte
  | none => writeFlag false
  | some a => writeFlag true ++ (bytes32 a.1 ++ bytes32 a.2)

/-- The bytes of an instruction: the select code of R77 and its operands (log 2), or the frame (R60). -/
def encode : Instr → List Byte
  | .frameCommand seq thr steer reserved crc => frameBytes .command (commandPayload seq thr steer reserved) crc
  | .frameTelemetry seq status w crc => frameBytes .telemetry (telemetryPayload seq status w) crc
  | .framePing crc => frameBytes .ping [] crc
  | .framePong crc => frameBytes .pong [] crc
  | .frameLog text crc => frameBytes .log text crc
  | .crcInit => [0x00]
  | .crcByte b => [0x01, b]
  | .crcRange bs => 0x02 :: writeBytes bs
  | .codecBuild t p d => 0x10 :: (writeType t ++ (writePayload p ++ bytes32 (BitVec.ofNat 32 d)))
  | .codecHdr bs => 0x11 :: writeBytes bs
  | .codecLen bs => 0x12 :: writeBytes bs
  | .codecCrcok bs => 0x13 :: writeBytes bs
  | .codecParseCmd bs => 0x14 :: writeBytes bs
  | .codecParseTlm bs => 0x15 :: writeBytes bs
  | .codecParsePing bs => 0x16 :: writeBytes bs
  | .codecParsePong bs => 0x17 :: writeBytes bs
  | .codecParseLog bs => 0x18 :: writeBytes bs
  | .codecEncCmd seq thr steer => 0x19 :: (bytes16 seq ++ (bytes32 thr ++ bytes32 steer))
  | .codecEncTlm seq status w => 0x1A :: telemetryPayload seq status w
  | .codecEncLog bs => 0x1B :: writeBytes bs
  | .rxPush bs => 0x20 :: writeBytes bs
  | .rxExtract t => 0x21 :: writeType t
  | .radioPoll a => 0x30 :: writeSample a
  | .netSubmit thr steer => 0x31 :: (bytes32 thr ++ bytes32 steer)
  | .netTake => [0x32]
  | .netCmd thr steer now => 0x33 :: (bytes32 thr ++ (bytes32 steer ++ bytes32 now))
  | .liveEval now => 0x34 :: bytes32 now
  | .arbSelect now => 0x35 :: bytes32 now
  | .fsUpdate now a => 0x40 :: (bytes32 now ++ writeFlag a)
  | .fsReset => [0x41]
  | .slewStep target current rate dt => 0x50 :: (bytes32 target ++ (bytes32 current ++ (bytes32 rate ++ bytes32 dt)))
  | .tick now bs a w e =>
      0x60 :: (bytes32 now ++ (writeBytes bs ++ (writeSample a ++ (sensorBytes w ++ writeFlag e))))

/-! ## The table's numbering -/

/-- `n` bytes of a number, least significant first. -/
def bytesUp : Nat → Nat → List Byte
  | 0, _ => []
  | n + 1, w => BitVec.ofNat 8 w :: bytesUp n (w / 256)

/-- The bytes of a table word, `nbits` of them in whole bytes, and zeros after them up to a frame of the longest payload
plus the longest fixed operands. An operation row is one byte. A wire row's 48-bit number has frame offset 0 MOST
significant (R79); a number that holds `AA 55` at its least significant end instead is read from that end (log 5). -/
def tableBytes (nbits w : Nat) : List Byte :=
  let up := bytesUp ((nbits + 7) / 8) w
  (if up.reverse.take 2 = [0xAA, 0x55] then up.reverse else up) ++ List.replicate 256 0

/-- The instruction this decoder reads from a word numbered as `spec/opcode_table.json` numbers it (log 5). -/
def decodeTableWord (nbits w : Nat) : Option Instr :=
  match decode (tableBytes nbits w) with
  | .ok i _ => some i
  | .bad _ => none

end Sys2Proof
end

