-- ==== Sys2Proof/Machine/State.lean ====
section
/-! DEFINITION. The state of the block: every register of `10_state.md` R12 to R23, its parameters (R28), the output
ports of R30, and two fields of the model's own (the waiting requests, log 1; the count of free values, log 13). -/

namespace Sys2Proof.Machine

/-! ## Result values -/

/-- `ParseError`, the closed error set (`60_exceptions.md` R220). -/
inductive ParseError where
  | insufficientData
  | invalidPrefix
  | invalidVersion
  | invalidType
  | invalidPayloadLength
  | crcMismatch
  | bufferTooSmall
  deriving DecidableEq, Repr

/-- `Ok(v)` or `Err(E)` (`00_scope.md` R9). -/
inductive Checked (α : Type) where
  | ok (v : α)
  | err (e : ParseError)
  deriving DecidableEq, Repr

/-- Why `RX.EXTRACT` gave no frame (`42_receive_buffer.md` R140). -/
inductive NoFrameReason where
  | noPrefix
  | reset
  | headerPending
  | typeMismatch
  | partialFrame
  | rejected (e : ParseError)
  deriving DecidableEq, Repr

/-- The result of `RX.EXTRACT` (R131). -/
inductive Extract where
  | frame (v : FrameValue)
  | noFrame (r : NoFrameReason)
  deriving DecidableEq, Repr

/-- `FailsafeState` (`10_state.md` R18); the spec's code 3 does not exist. -/
inductive FsState where
  | inactive
  | active
  | recovering
  deriving DecidableEq, Repr

/-- What stands on the result port: one shape per result of `30_encoding.md` R77's table. -/
inductive OpResult where
  /-- No operation has given a result yet. -/
  | nothing
  | crc (c : U16)
  | built (r : Checked (List Byte))
  | header (r : Checked MessageType)
  | length (r : Checked U16)
  | crcOk (b : Bool)
  /-- The decoded value and the frame size. -/
  | parsed (r : Checked (FrameValue × Nat))
  | payload (bytes : List Byte)
  | taken (n : Nat)
  | extracted (r : Extract)
  | slot (r : Option Axes)
  | liveness (radioLive netLive : Bool)
  | selected (r : Option Axes)
  | failsafe (st : FsState)
  | slew (v : F32)
  deriving DecidableEq, Repr

/-! ## Registers, unit by unit -/

/-- The bytes of a store that are listed, as (offset, byte) pairs. An unlisted offset reads 0 (log 12). Canonical form:
offsets strictly rising, no listed byte 0 (`Memory.wf` of `Ops.lean`). -/
abbrev Memory := List Host.Cell

/-- RXBUF (`10_state.md` R12, R13). Offsets at or above `cur` are not part of the state (`20_memory.md` R54). -/
structure RxBuf where
  mem : Memory
  cur : Nat
  deriving DecidableEq, Repr

/-- LIVE (`10_state.md` R15 to R17). -/
structure LiveRegs where
  radioLive : Bool
  radioThr : F32
  radioSteer : F32
  slotFull : Bool
  slotThr : F32
  slotSteer : F32
  netLastCmdMs : U32
  netThr : F32
  netSteer : F32
  deriving DecidableEq, Repr

/-- FSAFE (`10_state.md` R18 to R20). -/
structure FsRegs where
  state : FsState
  lastActiveMs : U32
  seeded : Bool
  deriving DecidableEq, Repr

/-- SCHED (`10_state.md` R21 to R23). -/
structure SchedRegs where
  cmdThr : F32
  cmdSteer : F32
  appliedThr : F32
  appliedSteer : F32
  actLastMs : U32
  rcLastMs : U32
  tlmLastMs : U32
  seeded : Bool
  tlmSeq : U16
  deriving DecidableEq, Repr

/-- The output ports that `TICK` drives (`10_state.md` R30): what the last `TICK` drove on them (log 8). `txBytes` is
empty where no frame was written. The `status` port is derived, not stored (R24): `statusBits` of `Flags.lean`. -/
structure Ports where
  rxTaken : Nat
  radioPoll : Bool
  frameOut : List FrameValue
  actSet : Option Axes
  actNeutral : Bool
  txBytes : List Byte
  deriving DecidableEq, Repr

/-- The whole state of the block. -/
structure State where
  /-- `00_scope.md` R8, `10_state.md` R28. No operation writes it. -/
  params : Params
  rx : RxBuf
  /-- `CRC_ACC` (`10_state.md` R14). -/
  crcAcc : U16
  live : LiveRegs
  fs : FsRegs
  sched : SchedRegs
  ports : Ports
  /-- The result port: the last result an operation gave (log 7). -/
  result : OpResult
  /-- The model's own: the requests waiting on the operation port, the next one first (log 1). -/
  requests : List (List Byte)
  /-- The model's own: how many free values have been used (log 13). -/
  freeCount : Nat
  deriving DecidableEq, Repr

/-! ## Outcomes -/

/-- There is no fault: the block has no fatal state, no halt and no lock-up state, and the one condition its source calls
fatal cannot happen (`60_exceptions.md` R228: "A model has no constructor for it"). -/
inductive Fault where
  deriving DecidableEq, Repr

/-- Why the block refuses a request: no state change, no result. Each is safe: the run stops. -/
inductive Refusal where
  /-- An arm of `exec` that has no meaning yet. No arm raises it. Safe. -/
  | notModelled (mnemonic : String)
  /-- Raised by `step` on bytes that are no request: an unassigned select code (`30_encoding.md` R77,
  `93_implementation_defined.md` U17) or operands that cannot be read (log 3). Safe. -/
  | unreadableRequest (e : DecodeError)
  /-- Raised by `CODEC.ENC.CMD` on an axis that is NaN, infinite or outside [-1, 1] (`93_implementation_defined.md` U3,
  `41_frame_codec.md` R110; log 16). Safe. -/
  | axisOutsideDomain
  /-- Raised by `CODEC.BUILD` on a payload of more than 65535 bytes, outside its operands (`41_frame_codec.md` R100;
  log 17). No request can carry one. Safe. -/
  | payloadOverlong
  /-- Raised by `TICK` where `LINK_END` is `Gateway`: no `TICK` is defined there (`46_scheduler.md` R210, U13; log 18).
  Safe. -/
  | noGatewayTick
  /-- Raised by `TICK` where `SLEW_RATE_THR` or `SLEW_RATE_STEER` is negative, infinite or NaN: such a rate is refused as a
  configuration (`45_slew.md` R191 e, U4; log 28). Safe. -/
  | slewRateOutsideDomain
  deriving DecidableEq, Repr

/-- What executing gives. -/
abbrev Answer := Host.Outcome State Fault Refusal

/-! ## Reset -/

/-- The state reset leaves for given parameters (`70_reset_and_hazards.md` R250, R251). Registers R251 calls
"unspecified" are zero (log 11, DESIGN CHOICE, unsafe). -/
def State.resetWith (p : Params) : State where
  params := p
  rx := { mem := [], cur := 0 }
  crcAcc := 0xFFFF
  live :=
    { radioLive := false, radioThr := 0, radioSteer := 0, slotFull := false, slotThr := 0, slotSteer := 0
      netLastCmdMs := 0, netThr := 0, netSteer := 0 }
  fs := { state := .inactive, lastActiveMs := 0, seeded := false }
  sched :=
    { cmdThr := 0, cmdSteer := 0, appliedThr := 0, appliedSteer := 0
      actLastMs := 0, rcLastMs := 0, tlmLastMs := 0, seeded := false, tlmSeq := 0 }
  ports :=
    { rxTaken := 0, radioPoll := false, frameOut := [], actSet := none, actNeutral := false, txBytes := [] }
  result := .nothing
  requests := []
  freeCount := 0

/-- The block right after reset, with the parameters of `Params.default` (log 9). -/
def State.reset : State := State.resetWith Params.default

end Sys2Proof.Machine
end

