-- ==== Sys2Proof/Machine/Ops.lean ====
section
/-! DEFINITION. The shared operations: one update per unit of the state, the receive buffer's access primitives
(`20_memory.md` R42, R45, R46), the CRC function (`40_crc16.md` R90, R91), failsafe entry (`60_exceptions.md` R231), and
taking the next request (log 1). -/

namespace Sys2Proof.Machine

/-! ## Updates of the state, one per unit -/

def State.setRx (s : State) (v : RxBuf) : State := { s with rx := v }
def State.setCrcAcc (s : State) (v : U16) : State := { s with crcAcc := v }
def State.setLive (s : State) (v : LiveRegs) : State := { s with live := v }
def State.setFs (s : State) (v : FsRegs) : State := { s with fs := v }
def State.setSched (s : State) (v : SchedRegs) : State := { s with sched := v }
def State.setPorts (s : State) (v : Ports) : State := { s with ports := v }
def State.setResult (s : State) (v : OpResult) : State := { s with result := v }
def State.setRequests (s : State) (v : List (List Byte)) : State := { s with requests := v }

/-- One more free value has been used (log 13). -/
def State.useFree (s : State) : State := { s with freeCount := s.freeCount + 1 }

/-- The operation ends with a result on the result port (log 7). -/
def answer (s : State) (r : OpResult) : Answer := .next (s.setResult r)

/-! ## The receive buffer's store -/

/-- Offsets strictly rising from `lo` on, and no listed byte 0. -/
def memoryWfFrom (lo : Nat) : Memory → Bool
  | [] => true
  | c :: rest => decide (lo ≤ c.1) && decide (c.2 ≠ 0) && memoryWfFrom (c.1 + 1) rest

/-- The canonical form: offsets strictly rising, no listed byte equal to what an unlisted offset reads as. -/
def Memory.wf (m : Memory) : Bool := memoryWfFrom 0 m

/-- What an unlisted offset reads as (log 12). No rule reads one. -/
def unlistedByte : Byte := 0

/-- The byte at an offset. -/
def readCell : Memory → Nat → Byte
  | [], _ => unlistedByte
  | c :: rest, o => if c.1 = o then c.2 else readCell rest o

/-- `MemWrite(RX, o, 1, b)` (`20_memory.md` R46), keeping the canonical form. -/
def writeCell : Memory → Nat → Byte → Memory
  | [], o, b => if b = unlistedByte then [] else [(o, b)]
  | c :: rest, o, b =>
    if c.1 < o then c :: writeCell rest o b
    else if c.1 = o then (if b = unlistedByte then rest else (o, b) :: rest)
    else (if b = unlistedByte then c :: rest else (o, b) :: c :: rest)

/-- Bytes written one after another from an offset on. -/
def writeRun : Memory → Nat → List Byte → Memory
  | m, _, [] => m
  | m, o, b :: bs => writeRun (writeCell m o b) (o + 1) bs

/-- The content `RX_MEM[0 .. RX_CUR)`. -/
def RxBuf.content (rx : RxBuf) : List Byte := (List.range rx.cur).map (readCell rx.mem)

/-- `RxShift(k)` (`20_memory.md` R45): the front `k` bytes are lost and the rest move to the front. What the shift
leaves behind at or above the new cursor is not part of the state (R54). -/
def rxShift (k : Nat) (rx : RxBuf) : RxBuf :=
  { mem := writeRun [] 0 (rx.content.drop k), cur := rx.cur - k }

/-- `RX.PUSH` (`42_receive_buffer.md` R130): the bytes that fit are appended; the answer is how many. -/
def rxAppend (cap : Nat) (bytes : List Byte) (rx : RxBuf) : RxBuf × Nat :=
  let k := min bytes.length (cap - rx.cur)
  ({ mem := writeRun rx.mem rx.cur (bytes.take k), cur := rx.cur + k }, k)

/-- The reading of one byte of the RX space. -/
def State.readRx (s : State) (o : Nat) : Byte := readCell s.rx.mem o

/-! ## CRC (`40_crc16.md`) -/

/-- One of the eight iterations of R90: a logical shift, and `0xA001` where the bit shifted out was 1. -/
def crcShift (c : U16) : U16 := if c.getLsbD 0 then (c >>> 1) ^^^ 0xA001 else c >>> 1

def crcShifts : Nat → U16 → U16
  | 0, c => c
  | n + 1, c => crcShifts n (crcShift c)

/-- `crc16_byte(c, b)` (R90). -/
def crc16Byte (c : U16) (b : Byte) : U16 := crcShifts 8 (c ^^^ b.zeroExtend 16)

/-- The running CRC after more bytes, in offset order. -/
def crc16From (c : U16) (bytes : List Byte) : U16 := bytes.foldl crc16Byte c

/-- `crc16(bytes)`, initial value `0xFFFF` (R91). -/
def crc16 (bytes : List Byte) : U16 := crc16From 0xFFFF bytes

/-! ## Time -/

/-- `a -_32 b`, the elapsed time from `b` to `a` (`00_scope.md` R9). -/
def elapsed (a b : U32) : U32 := a - b

/-- A gate of the scheduler (`46_scheduler.md` R208): open on the first tick without reading `last`, then whenever the
interval has elapsed, inclusive. -/
def gateOpen (first : Bool) (now last interval : U32) : Bool :=
  first || decide (interval.toNat ≤ (elapsed now last).toNat)

/-! ## Failsafe entry -/

/-- The effects of failsafe entry on the actuator side (`60_exceptions.md` R231, `46_scheduler.md` R206): commanded and
applied values neutral, `ACT_LAST_MS` stamped, `act_neutral` strobed. Nothing is saved; the return is by the state
machine alone (R232: `fsStep` of `Failsafe.lean`). -/
def forceNeutral (now : U32) (s : State) : State :=
  (s.setSched { s.sched with
      cmdThr := f32Zero, cmdSteer := f32Zero, appliedThr := f32Zero, appliedSteer := f32Zero, actLastMs := now }).setPorts
    { s.ports with actNeutral := true }

/-! ## Requests -/

/-- The next request and the state without it (log 1). -/
def takeRequest (s : State) : Option (List Byte × State) :=
  match s.requests with
  | [] => none
  | r :: rest => some (r, s.setRequests rest)

/-- Put a request in front of those waiting. -/
def offerRequest (r : List Byte) (s : State) : State := s.setRequests (r :: s.requests)

end Sys2Proof.Machine
end

