-- ==== Sys2Proof/Machine/Operands.lean ====
section
/-! DEFINITION. Operand forms: message types with their lengths, axis scaling, payloads to values and back
(`30_encoding.md` R64, R67 to R73, `41_frame_codec.md` R105 to R112). -/

namespace Sys2Proof.Machine

/-- The error codes of `60_exceptions.md` R220; 0 is `Ok`. -/
def errorCode : ParseError → Nat
  | .insufficientData => 1
  | .invalidPrefix => 2
  | .invalidVersion => 3
  | .invalidType => 4
  | .invalidPayloadLength => 5
  | .crcMismatch => 6
  | .bufferTooSmall => 7

/-- The result code of a checked result (R220). -/
def resultCode {α : Type} : Checked α → Nat
  | .ok _ => 0
  | .err e => errorCode e

/-- The payload lengths a parser of the type accepts (R64; `41_frame_codec.md` R104 step 3). -/
def lengthAllowed (t : MessageType) (len : Nat) : Bool :=
  match t with
  | .command => decide (len = 7)
  | .telemetry => decide (len = 15)
  | .ping => decide (len = 0)
  | .pong => decide (len = 0)
  | .log => decide (len ≤ Config.logMax)

/-- Axis scaling on encode: `round_i(fmul(value, 32767.0))` as an i16 (R72). -/
def axisToRaw (v : F32) : I16 := BitVec.ofInt 16 (roundI (fmul v f32Scale))

/-- Axis scaling on decode: `fdiv(f32_of_i16(raw), 32767.0)`, no clamp (R73). -/
def rawToAxis (raw : I16) : F32 := fdiv (f32OfI16 raw) f32Scale

/-- `decode_Command(P)` (`41_frame_codec.md` R105); the reserved byte is not examined. -/
def decodeCommand (P : List Byte) : CommandData :=
  { seq := wordAt P 0, throttle := rawToAxis (wordAt P 2), steering := rawToAxis (wordAt P 4) }

/-- `decode_Telemetry(P)` (R106). -/
def decodeTelemetry (P : List Byte) : TelemetryData :=
  { seq := wordAt P 0, status := byteAt P 2
    sensors :=
      { ax := wordAt P 3, ay := wordAt P 5, az := wordAt P 7, gx := wordAt P 9, gy := wordAt P 11, gz := wordAt P 13 } }

/-- `decode_T(P)` (R105 to R109). -/
def decodePayload (t : MessageType) (P : List Byte) : FrameValue :=
  match t with
  | .command => .command (decodeCommand P)
  | .telemetry => .telemetry (decodeTelemetry P)
  | .ping => .ping
  | .pong => .pong
  | .log => .log P

/-- The payload of `CODEC.ENC.CMD` (R110). -/
def encodeCommand (seq : U16) (throttle steering : F32) : List Byte :=
  commandPayload seq (axisToRaw throttle) (axisToRaw steering) 0x00

/-- The payload of `CODEC.ENC.TLM` (R111). -/
def encodeTelemetry (seq : U16) (status : Byte) (w : Sensors) : List Byte := telemetryPayload seq status w

/-- The payload of `CODEC.ENC.LOG`: cut silently to 200 bytes (R112). -/
def encodeLog (text : List Byte) : List Byte := text.take Config.logMax

/-- The command a decoded frame carries to the network source, if it is a Command (`46_scheduler.md` R202). -/
def commandAxes : FrameValue → Option Axes
  | .command d => some (d.throttle, d.steering)
  | .telemetry _ => none
  | .ping => none
  | .pong => none
  | .log _ => none

end Sys2Proof.Machine
end

