-- ==== Sys2Proof/Machine/Codec.lean ====
section
/-! DEFINITION. Unit CODEC (`41_frame_codec.md`): build, the three checks, the parse sequence, the payload encoders. The
unit holds no state: each operation only puts its result on the result port. -/

namespace Sys2Proof.Machine

/-! ## Functions -/

/-- `CODEC.BUILD(T, P, dest_size)` (R100); on error nothing is written. -/
def buildFrame (t : MessageType) (P : List Byte) (destSize : Nat) : Checked (List Byte) :=
  if destSize < 6 + P.length + 2 then .err .bufferTooSmall
  else .ok (frameBytes t P (crc16 ((headerBytes t (BitVec.ofNat 16 P.length) ++ P).drop 2)))

/-- `CODEC.HDR(S)` (R101): the first failing check wins. -/
def checkHeader (S : List Byte) : Checked MessageType :=
  if S.length < 4 then .err .insufficientData
  else if byteAt S 0 ≠ 0xAA ∨ byteAt S 1 ≠ 0x55 then .err .invalidPrefix
  else if byteAt S 2 ≠ 0x01 then .err .invalidVersion
  else match typeOfCode (byteAt S 3) with
    | none => .err .invalidType
    | some t => .ok t

/-- `CODEC.LEN(S)` (R102). -/
def checkLength (S : List Byte) : Checked U16 :=
  if S.length < 6 then .err .insufficientData else .ok (wordAt S 4)

/-- `CODEC.CRCOK(S)` (R103): false where the frame is not all there. The covered range is R94's. -/
def crcOk (S : List Byte) : Bool :=
  if S.length < 6 then false
  else
    let L := (wordAt S 4).toNat
    if S.length < 8 + L then false
    else decide (crc16 (slice S 2 (6 + L)) = wordAt S (6 + L))

/-- `parse_T(S)` (R104): steps 1 to 6 in order; the answer is the value and the frame size. -/
def parseFrame (t : MessageType) (S : List Byte) : Checked (FrameValue × Nat) :=
  match checkHeader S with
  | .err e => .err e
  | .ok found =>
    if found ≠ t then .err .invalidType
    else match checkLength S with
      | .err e => .err e
      | .ok len =>
        let L := len.toNat
        if !lengthAllowed t L then .err .invalidPayloadLength
        else if S.length < 8 + L then .err .insufficientData
        else if !crcOk S then .err .crcMismatch
        else .ok (decodePayload t (slice S 6 (6 + L)), 8 + L)

/-! ## Operations -/

/-- `CODEC.BUILD` (R100). A payload over 65535 bytes is outside its operands (log 17). -/
def execCodecBuild (t : MessageType) (payload : List Byte) (destSize : Nat) (s : State) : Answer :=
  if payload.length ≤ 65535 then answer s (.built (buildFrame t payload destSize)) else .refused .payloadOverlong

/-- `CODEC.HDR` (R101). -/
def execCodecHdr (bytes : List Byte) (s : State) : Answer := answer s (.header (checkHeader bytes))

/-- `CODEC.LEN` (R102). -/
def execCodecLen (bytes : List Byte) (s : State) : Answer := answer s (.length (checkLength bytes))

/-- `CODEC.CRCOK` (R103). -/
def execCodecCrcok (bytes : List Byte) (s : State) : Answer := answer s (.crcOk (crcOk bytes))

/-- `CODEC.PARSE.CMD` (R105). -/
def execCodecParseCmd (bytes : List Byte) (s : State) : Answer := answer s (.parsed (parseFrame .command bytes))

/-- `CODEC.PARSE.TLM` (R106). -/
def execCodecParseTlm (bytes : List Byte) (s : State) : Answer := answer s (.parsed (parseFrame .telemetry bytes))

/-- `CODEC.PARSE.PING` (R107). -/
def execCodecParsePing (bytes : List Byte) (s : State) : Answer := answer s (.parsed (parseFrame .ping bytes))

/-- `CODEC.PARSE.PONG` (R108). -/
def execCodecParsePong (bytes : List Byte) (s : State) : Answer := answer s (.parsed (parseFrame .pong bytes))

/-- `CODEC.PARSE.LOG` (R109). -/
def execCodecParseLog (bytes : List Byte) (s : State) : Answer := answer s (.parsed (parseFrame .log bytes))

/-- `CODEC.ENC.CMD` (R110). Outside its domain the operation is refused: no clamp and no wrap (R72, U3; log 16). -/
def execCodecEncCmd (seq : U16) (throttle steering : F32) (s : State) : Answer :=
  if axisInDomain throttle && axisInDomain steering then answer s (.payload (encodeCommand seq throttle steering))
  else .refused .axisOutsideDomain

/-- `CODEC.ENC.TLM` (R111). -/
def execCodecEncTlm (seq : U16) (status : Byte) (sensors : Sensors) (s : State) : Answer :=
  answer s (.payload (encodeTelemetry seq status sensors))

/-- `CODEC.ENC.LOG` (R112). -/
def execCodecEncLog (text : List Byte) (s : State) : Answer := answer s (.payload (encodeLog text))

end Sys2Proof.Machine
end

