-- ==== Sys2Proof/Machine/Crc.lean ====
section
/-! DEFINITION. Unit CRC16: `CRC.INIT`, `CRC.BYTE`, `CRC.RANGE` (`40_crc16.md` R91 to R93). -/

namespace Sys2Proof.Machine

/-- `CRC.INIT` (R92). It gives no result. -/
def execCrcInit (s : State) : Answer := .next (s.setCrcAcc 0xFFFF)

/-- `CRC.BYTE` (R93): the result is the new `CRC_ACC`. -/
def execCrcByte (b : Byte) (s : State) : Answer :=
  answer (s.setCrcAcc (crc16Byte s.crcAcc b)) (.crc (crc16Byte s.crcAcc b))

/-- `CRC.RANGE` (R91): no register is read or written. -/
def execCrcRange (bytes : List Byte) (s : State) : Answer := answer s (.crc (crc16 bytes))

end Sys2Proof.Machine
end

