-- ==== Sys2Proof/Machine/Failsafe.lean ====
section
/-! DEFINITION. Unit FSAFE: `FS.UPDATE` and `FS.RESET` (`44_failsafe.md` R170 to R176). -/

namespace Sys2Proof.Machine

/-- The codes of `FS_STATE` (`10_state.md` R18). -/
def fsCode : FsState → BitVec 2
  | .inactive => 0
  | .active => 1
  | .recovering => 2

/-- The transition table (R171), with `last` the time the elapsed test reads. The return from Active goes through
Recovering (`60_exceptions.md` R232). -/
def fsTable (timeout now last : U32) (active : Bool) (r : FsRegs) : FsRegs :=
  match r.state, active with
  | .inactive, true => { r with state := .inactive, lastActiveMs := now }
  | .inactive, false =>
    if timeout.toNat ≤ (elapsed now last).toNat then { r with state := .active } else { r with state := .inactive }
  | .active, true => { r with state := .recovering, lastActiveMs := now }
  | .active, false => { r with state := .active }
  | .recovering, true => { r with state := .inactive, lastActiveMs := now }
  | .recovering, false => { r with state := .active }

/-- `FS.UPDATE(now, source_active)` (R170), the first update (R172) included. -/
def fsStep (p : Params) (now : U32) (active : Bool) (r : FsRegs) : FsRegs :=
  if r.seeded then fsTable p.fsTimeoutMs now r.lastActiveMs active r
  else if p.tripOnBoot then
    if active then { state := .inactive, lastActiveMs := now, seeded := true }
    else { r with state := .active, seeded := true }
  else fsTable p.fsTimeoutMs now now active { r with lastActiveMs := now, seeded := true }

/-- `FS.RESET` on the registers (R174): `FS_LAST_ACTIVE_MS` becomes unspecified again (log 13). -/
def fsCleared (free : U32) : FsRegs := { state := .inactive, lastActiveMs := free, seeded := false }

/-- `FS.UPDATE` (R170). -/
def execFsUpdate (now : U32) (sourceActive : Bool) (s : State) : Answer :=
  let r := fsStep s.params now sourceActive s.fs
  answer (s.setFs r) (.failsafe r.state)

/-- `FS.RESET` (R174). It gives no result. -/
def execFsReset (s : State) : Answer := .next ((s.setFs (fsCleared (Config.freeU32 s.freeCount))).useFree)

end Sys2Proof.Machine
end

