-- ==== Sys2Proof/Machine/Frames.lean ====
section
/-! DEFINITION. The five wire rows. The table gives each the parse rule of its type (`30_encoding.md` R79;
`41_frame_codec.md` R105 to R109): the frame, with the stored CRC it carries, is parsed, and the result port shows the
value and the size, or the error (log 4). A frame that reaches the block over the link instead comes in through `RX.PUSH`
and `RX.EXTRACT`. -/

namespace Sys2Proof.Machine

/-- A Command frame (R67, R105). -/
def execFrameCommand (seq : U16) (thr steer : I16) (reserved : Byte) (crc : U16) (s : State) : Answer :=
  answer s (.parsed (parseFrame .command (frameBytes .command (commandPayload seq thr steer reserved) crc)))

/-- A Telemetry frame (R68, R106). -/
def execFrameTelemetry (seq : U16) (status : Byte) (sensors : Sensors) (crc : U16) (s : State) : Answer :=
  answer s (.parsed (parseFrame .telemetry (frameBytes .telemetry (telemetryPayload seq status sensors) crc)))

/-- A Ping frame (R69, R107). -/
def execFramePing (crc : U16) (s : State) : Answer :=
  answer s (.parsed (parseFrame .ping (frameBytes .ping [] crc)))

/-- A Pong frame (R69, R108). -/
def execFramePong (crc : U16) (s : State) : Answer :=
  answer s (.parsed (parseFrame .pong (frameBytes .pong [] crc)))

/-- A Log frame (R70, R109). -/
def execFrameLog (text : List Byte) (crc : U16) (s : State) : Answer :=
  answer s (.parsed (parseFrame .log (frameBytes .log text crc)))

end Sys2Proof.Machine
end

