-- ==== Sys2Proof/Machine/Flags.lean ====
section
/-! DEFINITION. The three status flags (`10_state.md` R24): functions of the state and `now`, not stored. -/

namespace Sys2Proof.Machine

/-- `net_live` (`43_liveness_arbitration.md` R154): 0 means no command has ever arrived, and the comparison is strict. -/
def netLive (timeout now last : U32) : Bool :=
  decide (last ≠ 0) && decide ((elapsed now last).toNat < timeout.toNat)

/-- `LIVE.EVAL` (R154): the two liveness values. -/
def liveness (timeout now : U32) (r : LiveRegs) : Bool × Bool := (r.radioLive, netLive timeout now r.netLastCmdMs)

def radioOk (s : State) : Bool := s.live.radioLive

def networkOk (now : U32) (s : State) : Bool := netLive s.params.netTimeoutMs now s.live.netLastCmdMs

/-- Whether the output is forced in a failsafe state: Active, or under `RECOVERING_FORCES_NEUTRAL` Recovering as well
(R24; `46_scheduler.md` R206). -/
def neutralForced (recoveringForces : Bool) : FsState → Bool
  | .inactive => false
  | .active => true
  | .recovering => recoveringForces

def failsafeActive (s : State) : Bool := neutralForced s.params.recoveringForcesNeutral s.fs.state

/-- The `status` port: `{failsafe_active, network_ok, radio_ok}` (R24, R30). -/
def statusBits (now : U32) (s : State) : BitVec 3 :=
  BitVec.ofBool (failsafeActive s) ++ (BitVec.ofBool (networkOk now s) ++ BitVec.ofBool (radioOk s))

/-- The telemetry status byte: bits 3 to 7 written 0 (`30_encoding.md` R71, `46_scheduler.md` R207). -/
def statusByte (now : U32) (s : State) : Byte := (statusBits now s).zeroExtend 8

end Sys2Proof.Machine
end

