-- ==== Sys2Proof/Machine/Live.lean ====
section
/-! DEFINITION. Unit LIVE: `RADIO.POLL`, `NET.SUBMIT`, `NET.TAKE`, `NET.CMD`, `LIVE.EVAL`, `ARB.SELECT`
(`43_liveness_arbitration.md` R150 to R157). Values are stored as given, with no range check (R157). -/

namespace Sys2Proof.Machine

/-- A poll of the radio (R150): on `None` the value registers keep their content. -/
def radioSampled (sample : Option Axes) (r : LiveRegs) : LiveRegs :=
  match sample with
  | some a => { r with radioLive := true, radioThr := a.1, radioSteer := a.2 }
  | none => { r with radioLive := false }

/-- The atomic store of the slot (R151, `20_memory.md` R52): a value already there is lost. -/
def slotFilled (thr steer : F32) (r : LiveRegs) : LiveRegs :=
  { r with slotFull := true, slotThr := thr, slotSteer := steer }

/-- The atomic exchange of the slot (R152, `20_memory.md` R52): what it held, and the slot empty. The two value
registers are not written (log 19). -/
def slotTaken (r : LiveRegs) : LiveRegs × Option Axes :=
  ({ r with slotFull := false }, if r.slotFull then some (r.slotThr, r.slotSteer) else none)

/-- A network command arrives (R153). -/
def netArrived (a : Axes) (now : U32) (r : LiveRegs) : LiveRegs :=
  { r with netThr := a.1, netSteer := a.2, netLastCmdMs := now }

/-- The arbitration rule (R155): radio, else network, else nothing. -/
def arbitrate (timeout now : U32) (r : LiveRegs) : Option Axes :=
  if (liveness timeout now r).1 then some (r.radioThr, r.radioSteer)
  else if (liveness timeout now r).2 then some (r.netThr, r.netSteer)
  else none

/-- `RADIO.POLL` (R150). It gives no result. -/
def execRadioPoll (sample : Option Axes) (s : State) : Answer := .next (s.setLive (radioSampled sample s.live))

/-- `NET.SUBMIT` (R151). It gives no result and touches nothing but the slot. -/
def execNetSubmit (thr steer : F32) (s : State) : Answer := .next (s.setLive (slotFilled thr steer s.live))

/-- `NET.TAKE` (R152). -/
def execNetTake (s : State) : Answer :=
  answer (s.setLive (slotTaken s.live).1) (.slot (slotTaken s.live).2)

/-- `NET.CMD` (R153). It gives no result. -/
def execNetCmd (thr steer : F32) (now : U32) (s : State) : Answer :=
  .next (s.setLive (netArrived (thr, steer) now s.live))

/-- `LIVE.EVAL` (R154). It writes no register. -/
def execLiveEval (now : U32) (s : State) : Answer :=
  let v := liveness s.params.netTimeoutMs now s.live
  answer s (.liveness v.1 v.2)

/-- `ARB.SELECT` (R155). It writes no register. -/
def execArbSelect (now : U32) (s : State) : Answer :=
  answer s (.selected (arbitrate s.params.netTimeoutMs now s.live))

end Sys2Proof.Machine
end

