-- ==== Sys2Proof/Machine/Rx.lean ====
section
/-! DEFINITION. Unit RXBUF: `RX.PUSH` and `RX.EXTRACT` (`42_receive_buffer.md` R130 to R140). -/

namespace Sys2Proof.Machine

/-- The lowest offset at which `AA 55` stands (R132). -/
def findPrefix : List Byte → Option Nat
  | b0 :: b1 :: rest =>
    if b0 = 0xAA ∧ b1 = 0x55 then some 0 else (findPrefix (b1 :: rest)).map (· + 1)
  | _ => none

/-- States 2 to 4 of R131, the prefix at offset 0: wait for a header (R133), leave another type's frame untouched
(R134), consume a frame (R135), wait for the rest of one (R137), or skip exactly one byte (R136). -/
def rxAttempt (p : Params) (t : MessageType) (rx : RxBuf) : RxBuf × Extract :=
  if rx.cur < 4 then (rx, .noFrame .headerPending)
  else if readCell rx.mem 3 ≠ typeCode t then (rx, .noFrame .typeMismatch)
  else match parseFrame t rx.content with
    | .ok r => (rxShift r.2 rx, .frame r.1)
    | .err e =>
      if e = .insufficientData ∧ p.skipOnInsufficient = false then (rx, .noFrame .partialFrame)
      else (rxShift 1 rx, .noFrame (.rejected e))

/-- `RX.EXTRACT(T)` (R131): state 1 scans (R132), then `rxAttempt`. One action per call (R139). -/
def rxTryExtract (p : Params) (t : MessageType) (rx : RxBuf) : RxBuf × Extract :=
  match findPrefix rx.content with
  | none =>
    if rx.cur = p.cap then (rxShift rx.cur rx, .noFrame .reset) else (rx, .noFrame .noPrefix)
  | some i => rxAttempt p t (if i > 0 then rxShift i rx else rx)

/-- `RX.PUSH` (R130). -/
def execRxPush (bytes : List Byte) (s : State) : Answer :=
  let r := rxAppend s.params.cap bytes s.rx
  answer (s.setRx r.1) (.taken r.2)

/-- `RX.EXTRACT` (R131). -/
def execRxExtract (t : MessageType) (s : State) : Answer :=
  let r := rxTryExtract s.params t s.rx
  answer (s.setRx r.1) (.extracted r.2)

end Sys2Proof.Machine
end

