-- ==== Sys2Proof/Machine/Slew.lean ====
section
/-! DEFINITION. Unit SLEW: `SLEW.STEP` and the rates a configuration may have (`45_slew.md` R190, R191). -/

namespace Sys2Proof.Machine

/-- `max_change`: multiply, then divide, each rounded once (R190). -/
def maxChange (rate : F32) (dtMs : U32) : F32 := fdiv (fmul rate (f32OfU32 dtMs)) f32Thousand

/-- One step toward the target by at most `m`; within one step the target itself, bit for bit (R190). -/
def slewBy (target current m : F32) : F32 :=
  if fgt (fsub target current) m then fadd current m
  else if flt (fsub target current) (fneg m) then fsub current m
  else target

/-- `step(target, current, max_change_per_sec, dt_ms)` (R190). -/
def slewStep (target current rate : F32) (dtMs : U32) : F32 := slewBy target current (maxChange rate dtMs)

/-- A rate that a configuration may have (`00_scope.md` R8, R191 e): finite and not negative. -/
def rateAllowed (r : F32) : Bool := f32IsFinite r && decide (0 ≤ f32Key r)

/-- Both slew rates of a configuration are ones it may have. One with another rate is refused (R191 e, U4; log 28). -/
def slewRatesAllowed (p : Params) : Bool := rateAllowed p.slewRateThr && rateAllowed p.slewRateSteer

/-- `SLEW.STEP` (R190): a pure function, total on every operand (R191 e). -/
def execSlewStep (target current rate : F32) (dtMs : U32) (s : State) : Answer :=
  answer s (.slew (slewStep target current rate dtMs))

end Sys2Proof.Machine
end

