-- ==== Sys2Proof/Machine/Sched.lean ====
section
/-! DEFINITION. Unit SCHED: `TICK`, phase by phase (`46_scheduler.md` R200 to R210). Each phase sees every effect of
those before it. -/

namespace Sys2Proof.Machine

/-- The ports at the start of a tick: no strobe, nothing written (log 8). -/
def quietPorts : Ports :=
  { rxTaken := 0, radioPoll := false, frameOut := [], actSet := none, actNeutral := false, txBytes := [] }

/-- Phase 1, pump (R201). -/
def tickPump (rxBytes : List Byte) (s : State) : State :=
  let r := rxAppend s.params.cap rxBytes s.rx
  (s.setRx r.1).setPorts { s.ports with rxTaken := r.2 }

/-- One `RX.EXTRACT` per listed type, in list order, whatever the earlier calls returned (R202): the frames that came
out, in order. -/
def extractTypes (p : Params) : List MessageType → RxBuf → RxBuf × List FrameValue
  | [], rx => (rx, [])
  | t :: ts, rx =>
    let r := rxTryExtract p t rx
    let later := extractTypes p ts r.1
    match r.2 with
    | .frame v => (later.1, v :: later.2)
    | .noFrame _ => later

/-- `frame_cmd` (R202): the command of the last Command frame extracted. -/
def frameCommandOf : List FrameValue → Option Axes
  | [] => none
  | v :: vs => (frameCommandOf vs).or (commandAxes v)

/-- Phase 2, parse (R202). -/
def tickParse (s : State) : State :=
  let r := extractTypes s.params s.params.expectedTypes s.rx
  (s.setRx r.1).setPorts { s.ports with frameOut := r.2 }

/-- `NET.CMD` for a command that arrived, if one did (R203). -/
def netArrivedIf (a : Option Axes) (now : U32) (r : LiveRegs) : LiveRegs :=
  match a with
  | some a => netArrived a now r
  | none => r

/-- The two network paths in the order of `NET_MERGE` (R203): the second overwrites the first. -/
def netMerged (m : NetMerge) (frameCmd slot : Option Axes) (now : U32) (r : LiveRegs) : LiveRegs :=
  match m with
  | .slotWins => netArrivedIf slot now (netArrivedIf frameCmd now r)
  | .frameWins => netArrivedIf frameCmd now (netArrivedIf slot now r)

/-- The radio poll of phase 3, behind its gate (R203, R208). -/
def tickRadio (first : Bool) (now : U32) (sample : Option Axes) (s : State) : State :=
  if gateOpen first now s.sched.rcLastMs s.params.rcPollIntervalMs then
    ((s.setLive (radioSampled sample s.live)).setSched { s.sched with rcLastMs := now }).setPorts
      { s.ports with radioPoll := true }
  else s

/-- The network half of phase 3 (R203): the slot is taken on every tick. -/
def tickNetwork (now : U32) (s : State) : State :=
  let taken := slotTaken s.live
  s.setLive (netMerged s.params.netMerge (frameCommandOf s.ports.frameOut) taken.2 now taken.1)

/-- Phase 4, arbitration (R204): with no live source the commanded values stay. -/
def tickArbitrate (now : U32) (s : State) : State :=
  match arbitrate s.params.netTimeoutMs now s.live with
  | some a => s.setSched { s.sched with cmdThr := a.1, cmdSteer := a.2 }
  | none => s

/-- Phase 5, failsafe (R205): on every tick, with the liveness values of phase 4. -/
def tickFailsafe (now : U32) (s : State) : State :=
  let v := liveness s.params.netTimeoutMs now s.live
  s.setFs (fsStep s.params now (v.1 || v.2) s.fs)

/-- The limited step of both axes and the actuator's strobe (R206). -/
def actuate (first : Bool) (now : U32) (s : State) : State :=
  let dt := if first then 0 else elapsed now s.sched.actLastMs
  let thr := slewStep s.sched.cmdThr s.sched.appliedThr s.params.slewRateThr dt
  let steer := slewStep s.sched.cmdSteer s.sched.appliedSteer s.params.slewRateSteer dt
  (s.setSched { s.sched with appliedThr := thr, appliedSteer := steer, actLastMs := now }).setPorts
    { s.ports with actSet := some (thr, steer) }

/-- Phase 6, slew-rate and actuator output (R206): the failsafe override acts whatever the gate says. -/
def tickActuate (first : Bool) (now : U32) (s : State) : State :=
  if failsafeActive s then forceNeutral now s
  else if gateOpen first now s.sched.actLastMs s.params.actIntervalMs then actuate first now s
  else s

/-- Phase 7, telemetry (R207): where the build fails the send is skipped and `TLM_SEQ` stays. -/
def tickTelemetry (first : Bool) (now : U32) (sensors : Sensors) (s : State) : State :=
  if gateOpen first now s.sched.tlmLastMs s.params.tlmIntervalMs then
    match buildFrame .telemetry (encodeTelemetry s.sched.tlmSeq (statusByte now s) sensors) s.params.txbufSize with
    | .ok bytes =>
      (s.setSched { s.sched with tlmLastMs := now, tlmSeq := s.sched.tlmSeq + 1 }).setPorts
        { s.ports with txBytes := bytes }
    | .err _ => s.setSched { s.sched with tlmLastMs := now }
  else s

/-- The seven phases in the source's order, then `SCHED_SEEDED <- 1` (R200). -/
def tickPhases (now : U32) (rxBytes : List Byte) (sample : Option Axes) (sensors : Sensors) (s : State) : State :=
  let first := !s.sched.seeded
  let s1 := tickPump rxBytes (s.setPorts quietPorts)
  let s2 := tickParse s1
  let s3 := tickNetwork now (tickRadio first now sample s2)
  let s4 := tickArbitrate now s3
  let s5 := tickFailsafe now s4
  let s6 := tickActuate first now s5
  let s7 := tickTelemetry first now sensors s6
  s7.setSched { s7.sched with seeded := true }

/-- `TICK` (R200). The writer's `IoError` changes nothing in the block (R207; `60_exceptions.md` R226; log 21). For the
gateway end no `TICK` is defined (R210; log 18), and a configuration with a negative, infinite or NaN slew rate is refused
(`45_slew.md` R191 e; log 28). -/
def execTick (now : U32) (rxBytes : List Byte) (sample : Option Axes) (sensors : Sensors) (_txError : Bool) (s : State) :
    Answer :=
  match s.params.linkEnd with
  | .actuator =>
    if slewRatesAllowed s.params then .next (tickPhases now rxBytes sample sensors s)
    else .refused .slewRateOutsideDomain
  | .gateway => .refused .noGatewayTick

end Sys2Proof.Machine
end

