-- ==== Sys2Proof/Machine/Dispatch.lean ====
section
/-! DEFINITION. The dispatch: one arm per row of `spec/opcode_table.json`. -/

namespace Sys2Proof.Machine

def exec (i : Instr) (s : State) : Host.Outcome State Fault Refusal :=
  match i with
  | .frameCommand seq thr steer reserved crc => Sys2Proof.Machine.execFrameCommand seq thr steer reserved crc s
  | .frameTelemetry seq status sensors crc => Sys2Proof.Machine.execFrameTelemetry seq status sensors crc s
  | .framePing crc => Sys2Proof.Machine.execFramePing crc s
  | .framePong crc => Sys2Proof.Machine.execFramePong crc s
  | .frameLog text crc => Sys2Proof.Machine.execFrameLog text crc s
  | .crcInit => Sys2Proof.Machine.execCrcInit s
  | .crcByte b => Sys2Proof.Machine.execCrcByte b s
  | .crcRange bytes => Sys2Proof.Machine.execCrcRange bytes s
  | .codecBuild type payload destSize => Sys2Proof.Machine.execCodecBuild type payload destSize s
  | .codecHdr bytes => Sys2Proof.Machine.execCodecHdr bytes s
  | .codecLen bytes => Sys2Proof.Machine.execCodecLen bytes s
  | .codecCrcok bytes => Sys2Proof.Machine.execCodecCrcok bytes s
  | .codecParseCmd bytes => Sys2Proof.Machine.execCodecParseCmd bytes s
  | .codecParseTlm bytes => Sys2Proof.Machine.execCodecParseTlm bytes s
  | .codecParsePing bytes => Sys2Proof.Machine.execCodecParsePing bytes s
  | .codecParsePong bytes => Sys2Proof.Machine.execCodecParsePong bytes s
  | .codecParseLog bytes => Sys2Proof.Machine.execCodecParseLog bytes s
  | .codecEncCmd seq throttle steering => Sys2Proof.Machine.execCodecEncCmd seq throttle steering s
  | .codecEncTlm seq status sensors => Sys2Proof.Machine.execCodecEncTlm seq status sensors s
  | .codecEncLog text => Sys2Proof.Machine.execCodecEncLog text s
  | .rxPush bytes => Sys2Proof.Machine.execRxPush bytes s
  | .rxExtract type => Sys2Proof.Machine.execRxExtract type s
  | .radioPoll sample => Sys2Proof.Machine.execRadioPoll sample s
  | .netSubmit thr steer => Sys2Proof.Machine.execNetSubmit thr steer s
  | .netTake => Sys2Proof.Machine.execNetTake s
  | .netCmd thr steer now => Sys2Proof.Machine.execNetCmd thr steer now s
  | .liveEval now => Sys2Proof.Machine.execLiveEval now s
  | .arbSelect now => Sys2Proof.Machine.execArbSelect now s
  | .fsUpdate now sourceActive => Sys2Proof.Machine.execFsUpdate now sourceActive s
  | .fsReset => Sys2Proof.Machine.execFsReset s
  | .slewStep target current rate dtMs => Sys2Proof.Machine.execSlewStep target current rate dtMs s
  | .tick now rxBytes radioSample sensors txError => Sys2Proof.Machine.execTick now rxBytes radioSample sensors txError s

end Sys2Proof.Machine
end

