-- ==== Sys2Proof/Machine/Step.lean ====
section
/-! DEFINITION. One step: the next waiting request is read and performed (log 1). With none waiting the block waits. -/

namespace Sys2Proof.Machine

/-- The request leaves the port, then its operation is performed; bytes that are no request are refused (log 3). -/
def step (s : State) : Host.Outcome State Fault Refusal :=
  match takeRequest s with
  | none => .next s
  | some (r, s') =>
    match decode r with
    | .ok i _ => exec i s'
    | .bad e => .refused (.unreadableRequest e)

/-- `s` with a table word as the next request (log 5, log 6). -/
def State.withFetchWord (s : State) (nbits w : Nat) : State := offerRequest (tableBytes nbits w) s

end Sys2Proof.Machine
end

