-- ==== Sys2Proof/Safety.lean ====
section
/-! DEFINITION. The terms safe-run claims use: the invariants of the state and the table of who may perform what. -/

namespace Sys2Proof.Machine

/-- The receive buffer's invariant (`10_state.md` R13: "cursor ≤ capacity always"): the store is in canonical form, lists
nothing at or above the cursor (`20_memory.md` R54), and the cursor is within the capacity. -/
def RxBuf.inv (cap : Nat) (rx : RxBuf) : Bool :=
  rx.mem.wf && rx.mem.all (fun c => decide (c.1 < rx.cur)) && decide (rx.cur ≤ cap)

/-- Before its first update FSAFE is Inactive (`10_state.md` R18, R20; `44_failsafe.md` R172). -/
def FsRegs.inv (r : FsRegs) : Bool := r.seeded || decide (r.state = .inactive)

/-- The invariant of the block that every step keeps. -/
def State.inv (s : State) : Bool := s.rx.inv s.params.cap && s.fs.inv

/-- The constraint column of `00_scope.md` R8. -/
def paramsAllowed (p : Params) : Bool :=
  decide (Config.maxFrame ≤ p.cap) && slewRatesAllowed p && decide p.expectedTypes.Nodup &&
  (decide (p.linkEnd = .gateway) || decide (.command ∈ p.expectedTypes))

/-- The parties of `60_exceptions.md` R233 that perform operations. -/
inductive Party where
  | tickAgent
  | networkAgent
  | operator
  deriving DecidableEq, Repr

/-- Who may perform an operation (`60_exceptions.md` R233): the network agent performs `NET.SUBMIT` only, the operator
`FS.RESET` only, the tick agent everything but `NET.SUBMIT`. Nothing in the block checks it: there is one privilege level
(log 20). -/
def performers : Instr → List Party
  | .frameCommand _ _ _ _ _ => [.tickAgent]
  | .frameTelemetry _ _ _ _ => [.tickAgent]
  | .framePing _ => [.tickAgent]
  | .framePong _ => [.tickAgent]
  | .frameLog _ _ => [.tickAgent]
  | .crcInit => [.tickAgent]
  | .crcByte _ => [.tickAgent]
  | .crcRange _ => [.tickAgent]
  | .codecBuild _ _ _ => [.tickAgent]
  | .codecHdr _ => [.tickAgent]
  | .codecLen _ => [.tickAgent]
  | .codecCrcok _ => [.tickAgent]
  | .codecParseCmd _ => [.tickAgent]
  | .codecParseTlm _ => [.tickAgent]
  | .codecParsePing _ => [.tickAgent]
  | .codecParsePong _ => [.tickAgent]
  | .codecParseLog _ => [.tickAgent]
  | .codecEncCmd _ _ _ => [.tickAgent]
  | .codecEncTlm _ _ _ => [.tickAgent]
  | .codecEncLog _ => [.tickAgent]
  | .rxPush _ => [.tickAgent]
  | .rxExtract _ => [.tickAgent]
  | .radioPoll _ => [.tickAgent]
  | .netSubmit _ _ => [.networkAgent]
  | .netTake => [.tickAgent]
  | .netCmd _ _ _ => [.tickAgent]
  | .liveEval _ => [.tickAgent]
  | .arbSelect _ => [.tickAgent]
  | .fsUpdate _ _ => [.tickAgent]
  | .fsReset => [.tickAgent, .operator]
  | .slewStep _ _ _ _ => [.tickAgent]
  | .tick _ _ _ _ _ => [.tickAgent]

/-- The seven units (`00_scope.md` R1). -/
inductive BlockUnit where
  | crc16
  | codec
  | rxbuf
  | live
  | fsafe
  | slew
  | sched
  deriving DecidableEq, Repr

/-- The unit an operation belongs to, `op[6:4]` of `30_encoding.md` R77; a wire row is parsed by CODEC (log 4). -/
def unitOf : Instr → BlockUnit
  | .frameCommand _ _ _ _ _ => .codec
  | .frameTelemetry _ _ _ _ => .codec
  | .framePing _ => .codec
  | .framePong _ => .codec
  | .frameLog _ _ => .codec
  | .crcInit => .crc16
  | .crcByte _ => .crc16
  | .crcRange _ => .crc16
  | .codecBuild _ _ _ => .codec
  | .codecHdr _ => .codec
  | .codecLen _ => .codec
  | .codecCrcok _ => .codec
  | .codecParseCmd _ => .codec
  | .codecParseTlm _ => .codec
  | .codecParsePing _ => .codec
  | .codecParsePong _ => .codec
  | .codecParseLog _ => .codec
  | .codecEncCmd _ _ _ => .codec
  | .codecEncTlm _ _ _ => .codec
  | .codecEncLog _ => .codec
  | .rxPush _ => .rxbuf
  | .rxExtract _ => .rxbuf
  | .radioPoll _ => .live
  | .netSubmit _ _ => .live
  | .netTake => .live
  | .netCmd _ _ _ => .live
  | .liveEval _ => .live
  | .arbSelect _ => .live
  | .fsUpdate _ _ => .fsafe
  | .fsReset => .fsafe
  | .slewStep _ _ _ _ => .slew
  | .tick _ _ _ _ _ => .sched

/-- The head-of-line wedge (`70_reset_and_hazards.md` R260): `AA 55` at the front and at offset 3 no code of an expected
type. -/
def wedged (p : Params) (rx : RxBuf) : Bool :=
  decide (4 ≤ rx.cur) && decide (byteAt rx.content 0 = 0xAA) && decide (byteAt rx.content 1 = 0x55) &&
  p.expectedTypes.all fun t => decide (byteAt rx.content 3 ≠ typeCode t)

end Sys2Proof.Machine
end

