-- ==== Sys2Proof/Certificates/Slice0/Obligations.lean ====
section
/-! DEFINITION. The statements for the provers. Each docstring names the rule of `spec/` it formalises; a clause that is the
model's own choice names its log entry. -/

open Sys2Proof Sys2Proof.Machine

/-! ## Encoding, fetching, reset, invariants -/

/-- Decode and encode agree: reading the bytes of a well-formed instruction gives it back, every operand at every value,
and leaves what follows. The operand layout is the model's (log 2); select codes and frames are R60 and R77's. -/
def Obligations.DecodeOfEncodeGivesTheInstruction : Prop :=
  ∀ (i : Instr) (rest : List Byte), i.wf = true → decode (encode i ++ rest) = .ok i rest

/-- Words written out from `30_encoding.md` R60, R64, R77 decode to what they stand for (operand layout: log 2). -/
def Obligations.WrittenWordsDecodeRight : Prop :=
  decode [0x00] = .ok .crcInit [] ∧
  decode [0x01, 0x5A] = .ok (.crcByte 0x5A) [] ∧
  decode [0x32] = .ok .netTake [] ∧
  decode [0x41] = .ok .fsReset [] ∧
  decode [0x40, 0xE8, 0x03, 0x00, 0x00, 0x01] = .ok (.fsUpdate 1000 true) [] ∧
  decode [0xAA, 0x55, 0x01, 0x03, 0x00, 0x00, 0xF1, 0xD8] = .ok (.framePing 0xD8F1) [] ∧
  decode [0xAA, 0x55, 0x01, 0x01, 0x07, 0x00, 0x01, 0x00, 0x00, 0x40, 0x00, 0xC0, 0x00, 0x20, 0xED] =
    .ok (.frameCommand 1 0x4000 0xC000 0x00 0xED20) []

/-- A step runs the decoded request, and takes it off the port; with none waiting the block waits, unchanged. That requests
wait in a list is the model's choice (log 1). -/
def Obligations.StepRunsTheDecodedRequest : Prop :=
  (∀ (s : State) (r rest : List Byte) (waiting : List (List Byte)) (i : Instr),
    s.requests = r :: waiting → decode r = .ok i rest → step s = exec i { s with requests := waiting }) ∧
  (∀ s : State, s.requests = [] → step s = .next s)

/-- A select code outside R77's table is no instruction, whatever follows it, and a request that is no instruction is
refused. What else is unreadable is the model's operand layout (log 3). -/
def Obligations.UnassignedSelectCodesAreRefused : Prop :=
  (∀ (b : Byte) (rest : List Byte), b.toNat < 0x80 →
    b.toNat ∉ [0x00, 0x01, 0x02, 0x10, 0x11, 0x12, 0x13, 0x14, 0x15, 0x16, 0x17, 0x18, 0x19, 0x1A, 0x1B, 0x20, 0x21,
      0x30, 0x31, 0x32, 0x33, 0x34, 0x35, 0x40, 0x41, 0x50, 0x60] → decode (b :: rest) = .bad (.unassignedOp b)) ∧
  (∀ (s : State) (r : List Byte) (waiting : List (List Byte)) (e : DecodeError),
    s.requests = r :: waiting → decode r = .bad e → step s = .refused (.unreadableRequest e))

/-- The reset values R251 gives, for every choice of the parameters; the registers it calls unspecified are not
mentioned. -/
def Obligations.ResetLeavesTheSpecifiedValues : Prop :=
  ∀ p : Params, ∀ now : U32,
    let s := State.resetWith p
    s.rx.cur = 0 ∧ s.crcAcc = 0xFFFF ∧ s.live.slotFull = false ∧ s.live.netLastCmdMs = 0 ∧ s.live.radioLive = false ∧
    s.fs.state = .inactive ∧ s.fs.seeded = false ∧
    s.sched.cmdThr = f32Zero ∧ s.sched.cmdSteer = f32Zero ∧ s.sched.appliedThr = f32Zero ∧
    s.sched.appliedSteer = f32Zero ∧ s.sched.seeded = false ∧ s.sched.tlmSeq = 0 ∧ s.params = p ∧
    s.ports.actSet = none ∧ s.ports.actNeutral = false ∧ s.ports.txBytes = [] ∧ statusBits now s = 0

/-- The state reset leaves keeps the block's invariant, for every choice of the parameters. -/
def Obligations.ResetKeepsTheInvariant : Prop := ∀ p : Params, (State.resetWith p).inv = true

/-- Every step keeps the invariant: the receive store stays canonical with nothing at or above the cursor and the cursor
within the capacity (`10_state.md` R13), and FSAFE is Inactive until its first update. -/
def Obligations.EveryStepKeepsTheInvariant : Prop :=
  ∀ s t : State, s.inv = true → step s = .next t → t.inv = true

/-- No step changes a parameter (`10_state.md` R28: read-only while the block runs). -/
def Obligations.NoStepChangesAParameter : Prop := ∀ s t : State, step s = .next t → t.params = s.params

/-- Each operation writes its own unit's registers and no other's; only `TICK` reaches across units, and it leaves the CRC
accumulator and the parameters. The model's choices: `TICK` leaves the result port (log 7), only `TICK` changes the other
ports (log 8), the wire rows count to CODEC (log 4), requests wait in a list (log 1), and the count of free values is moved
by `FS.RESET` alone (log 13). -/
def Obligations.OperationsKeepToTheirUnit : Prop :=
  ∀ (i : Instr) (s t : State), exec i s = .next t →
    (unitOf i ≠ .crc16 → t.crcAcc = s.crcAcc) ∧
    (unitOf i ≠ .rxbuf → unitOf i ≠ .sched → t.rx = s.rx ∧ ∀ o, t.readRx o = s.readRx o) ∧
    (unitOf i ≠ .live → unitOf i ≠ .sched → t.live = s.live) ∧
    (unitOf i ≠ .fsafe → unitOf i ≠ .sched → t.fs = s.fs) ∧
    (unitOf i ≠ .sched → t.sched = s.sched ∧ t.ports = s.ports) ∧
    (unitOf i = .sched → t.result = s.result) ∧
    (i ≠ .fsReset → t.freeCount = s.freeCount) ∧
    t.params = s.params ∧ t.requests = s.requests

/-! ## CRC16 -/

/-- `CRC.INIT` (R92). -/
def Obligations.CrcInitSetsTheAccumulator : Prop :=
  ∀ s : State, exec .crcInit s = .next { s with crcAcc := 0xFFFF }

/-- `CRC.BYTE` (R93) writes `crc16_byte(CRC_ACC, b)` into `CRC_ACC` and gives it as the result, and `CRC.RANGE` (R91) folds the
same byte step from `0xFFFF`; the byte step of R90 is written here a second way. Nothing else changes. (R93's
remark on the byte 0: log 29.) -/
def Obligations.CrcByteAndRangeFollowTheBitwiseRule : Prop :=
  let byteStep : U16 → Byte → U16 := fun c b =>
    (fun c : U16 => if c &&& 1 = 1 then (c >>> 1) ^^^ 0xA001 else c >>> 1)^[8] (c ^^^ b.zeroExtend 16)
  (∀ (s : State) (b : Byte),
    exec (.crcByte b) s = .next { s with crcAcc := byteStep s.crcAcc b, result := .crc (byteStep s.crcAcc b) }) ∧
  (∀ (s : State) (bytes : List Byte),
    exec (.crcRange bytes) s = .next { s with result := .crc (bytes.foldl byteStep 0xFFFF) })

/-- `CRC.INIT`, then `CRC.BYTE` of each byte of a string in offset order, leaves `crc16(string)` in `CRC_ACC`: run as
requests one after another, for every byte string. -/
def Obligations.StreamedCrcEqualsTheRange : Prop :=
  ∀ (s : State) (bytes : List Byte),
    s.requests = encode .crcInit :: bytes.map (fun b => encode (.crcByte b)) →
    ∃ t, Host.Core.run Sys2Proof.core (bytes.length + 1) s = .next t ∧ t.crcAcc = crc16 bytes ∧ t.requests = [] ∧
      exec (.crcRange bytes) t = .next { t with result := .crc t.crcAcc }

/-- The residue form of the check (R95): the two identities, the bijection on byte pairs, and the equivalence for every
complete frame. -/
def Obligations.CrcResidueFormAcceptsTheSameFrames : Prop :=
  (∀ c : U16, crc16Byte c (lowByte c) = c >>> 8) ∧
  (∀ c : U16, crc16Byte (c >>> 8) (highByte c) = 0) ∧
  (∀ c : U16, Function.Bijective fun p : Byte × Byte => crc16Byte (crc16Byte c p.1) p.2) ∧
  (∀ S : List Byte, 8 + (wordAt S 4).toNat ≤ S.length →
    (wordAt S (6 + (wordAt S 4).toNat) = crc16 (slice S 2 (6 + (wordAt S 4).toNat)) ↔
      crc16 (slice S 2 (8 + (wordAt S 4).toNat)) = 0))

/-- A change confined to one byte of a byte range, a single flipped bit among them, always changes the result of
`CRC.RANGE` (R96 b states it of single bits over typical frame sizes; this is every length). -/
def Obligations.CrcDetectsEveryOneByteChange : Prop :=
  ∀ (s : State) (before after : List Byte) (b b' : Byte), b ≠ b' →
    ∃ c c' : U16, exec (.crcRange (before ++ b :: after)) s = .next { s with result := .crc c } ∧
      exec (.crcRange (before ++ b' :: after)) s = .next { s with result := .crc c' } ∧ c ≠ c'

/-! ## CODEC -/

/-- `CODEC.BUILD` (R100) for every payload of at most 65535 bytes: the error exactly when the destination is too small,
else every field of the frame. -/
def Obligations.BuildWritesEveryFieldOrReportsTooSmall : Prop :=
  ∀ (s : State) (T : MessageType) (P : List Byte) (d : Nat), P.length ≤ 65535 →
    (d < 6 + P.length + 2 →
      exec (.codecBuild T P d) s = .next { s with result := .built (.err .bufferTooSmall) }) ∧
    (6 + P.length + 2 ≤ d → ∃ D : List Byte,
      exec (.codecBuild T P d) s = .next { s with result := .built (.ok D) } ∧
      D.length = 8 + P.length ∧ D.take 4 = [0xAA, 0x55, 0x01, typeCode T] ∧
      wordAt D 4 = BitVec.ofNat 16 P.length ∧ slice D 6 (6 + P.length) = P ∧
      wordAt D (6 + P.length) = crc16 (slice D 2 (6 + P.length)))

/-- `CODEC.HDR` (R101): the first failing check wins. -/
def Obligations.HeaderCheckReportsTheFirstFailure : Prop :=
  ∀ (s : State) (S : List Byte), ∃ r, exec (.codecHdr S) s = .next { s with result := .header r } ∧
    (S.length < 4 → r = .err .insufficientData) ∧
    (4 ≤ S.length →
      (¬ (byteAt S 0 = 0xAA ∧ byteAt S 1 = 0x55) → r = .err .invalidPrefix) ∧
      (byteAt S 0 = 0xAA ∧ byteAt S 1 = 0x55 →
        (byteAt S 2 ≠ 0x01 → r = .err .invalidVersion) ∧
        (byteAt S 2 = 0x01 →
          ((byteAt S 3).toNat < 1 ∨ 5 < (byteAt S 3).toNat → r = .err .invalidType) ∧
          ∀ T : MessageType, byteAt S 3 = typeCode T → r = .ok T)))

/-- `CODEC.LEN` and `CODEC.CRCOK` (R102, R103). -/
def Obligations.LengthAndCrcChecks : Prop :=
  ∀ (s : State) (S : List Byte),
    (S.length < 6 →
      exec (.codecLen S) s = .next { s with result := .length (.err .insufficientData) } ∧
      exec (.codecCrcok S) s = .next { s with result := .crcOk false }) ∧
    (6 ≤ S.length →
      exec (.codecLen S) s = .next { s with result := .length (.ok (wordAt S 4)) } ∧
      (S.length < 8 + (wordAt S 4).toNat → exec (.codecCrcok S) s = .next { s with result := .crcOk false }) ∧
      (8 + (wordAt S 4).toNat ≤ S.length →
        exec (.codecCrcok S) s = .next (s.setResult
          (.crcOk (decide (crc16 (slice S 2 (6 + (wordAt S 4).toNat)) = wordAt S (6 + (wordAt S 4).toNat)))))))

/-- The parse sequence (R104) of the five `CODEC.PARSE` operations, and each type's decoded value at its frame offsets
(R105 to R109). -/
def Obligations.ParseFollowsTheSequence : Prop :=
  ∀ (s : State) (S : List Byte) (T : MessageType) (i : Instr),
    (T, i) ∈ [(.command, .codecParseCmd S), (.telemetry, .codecParseTlm S), (.ping, .codecParsePing S),
      (.pong, .codecParsePong S), (.log, .codecParseLog S)] →
    ∃ r, exec i s = .next { s with result := .parsed r } ∧
      let L := (wordAt S 4).toNat
      let lengthFits := match T with
        | .command => L = 7
        | .telemetry => L = 15
        | .ping => L = 0
        | .pong => L = 0
        | .log => L ≤ 200
      let value : FrameValue := match T with
        | .command => .command
            { seq := wordAt S 6
              throttle := fdiv (f32OfI16 (wordAt S 8)) f32Scale
              steering := fdiv (f32OfI16 (wordAt S 10)) f32Scale }
        | .telemetry => .telemetry
            { seq := wordAt S 6, status := byteAt S 8
              sensors :=
                { ax := wordAt S 9, ay := wordAt S 11, az := wordAt S 13
                  gx := wordAt S 15, gy := wordAt S 17, gz := wordAt S 19 } }
        | .ping => .ping
        | .pong => .pong
        | .log => .log (slice S 6 (6 + L))
      (S.length < 4 → r = .err .insufficientData) ∧
      (4 ≤ S.length →
        (¬ (byteAt S 0 = 0xAA ∧ byteAt S 1 = 0x55) → r = .err .invalidPrefix) ∧
        (byteAt S 0 = 0xAA ∧ byteAt S 1 = 0x55 →
          (byteAt S 2 ≠ 0x01 → r = .err .invalidVersion) ∧
          (byteAt S 2 = 0x01 →
            (byteAt S 3 ≠ typeCode T → r = .err .invalidType) ∧
            (byteAt S 3 = typeCode T →
              (S.length < 6 → r = .err .insufficientData) ∧
              (6 ≤ S.length →
                (¬ lengthFits → r = .err .invalidPayloadLength) ∧
                (lengthFits →
                  (S.length < 8 + L → r = .err .insufficientData) ∧
                  (8 + L ≤ S.length →
                    (crc16 (slice S 2 (6 + L)) ≠ wordAt S (6 + L) → r = .err .crcMismatch) ∧
                    (crc16 (slice S 2 (6 + L)) = wordAt S (6 + L) → r = .ok (value, 8 + L)))))))))

/-- The five wire rows: the frame is accepted exactly when its stored CRC is the CRC of its covered bytes, with the value
and the size of its type (R64 to R70, R105 to R109). That executing a wire row is its parse is the model's choice
(log 4). -/
def Obligations.WireRowsAreParsedByTheirRule : Prop :=
  ∀ s : State,
    (∀ (seq : U16) (thr steer : I16) (reserved : Byte) (crc : U16),
      exec (.frameCommand seq thr steer reserved crc) s = .next (s.setResult (.parsed
        (if crc = crc16 ([0x01, 0x01, 0x07, 0x00] ++ commandPayload seq thr steer reserved)
          then .ok (.command { seq := seq, throttle := fdiv (f32OfI16 thr) f32Scale, steering := fdiv (f32OfI16 steer) f32Scale }, 15)
          else .err .crcMismatch)))) ∧
    (∀ (seq : U16) (status : Byte) (w : Sensors) (crc : U16),
      exec (.frameTelemetry seq status w crc) s = .next (s.setResult (.parsed
        (if crc = crc16 ([0x01, 0x02, 0x0F, 0x00] ++ telemetryPayload seq status w)
          then .ok (.telemetry { seq := seq, status := status, sensors := w }, 23) else .err .crcMismatch)))) ∧
    (∀ crc : U16, exec (.framePing crc) s = .next (s.setResult (.parsed
        (if crc = 0xD8F1 then .ok (.ping, 8) else .err .crcMismatch)))) ∧
    (∀ crc : U16, exec (.framePong crc) s = .next (s.setResult (.parsed
        (if crc = 0x1940 then .ok (.pong, 8) else .err .crcMismatch)))) ∧
    (∀ (text : List Byte) (crc : U16), text.length ≤ 200 →
      exec (.frameLog text crc) s = .next (s.setResult (.parsed
        (if crc = crc16 ([0x01, 0x05, BitVec.ofNat 8 text.length, 0x00] ++ text)
          then .ok (.log text, 8 + text.length) else .err .crcMismatch))))

/-- The payload encoders (R110 to R112): the bytes of each layout; `CODEC.ENC.CMD` is refused exactly outside its operand
condition. -/
def Obligations.EncodersWriteTheirLayout : Prop :=
  ∀ s : State,
    (∀ (seq : U16) (throttle steering : F32),
      (axisInDomain throttle = true → axisInDomain steering = true →
        let t : I16 := BitVec.ofInt 16 (roundI (fmul throttle f32Scale))
        let r : I16 := BitVec.ofInt 16 (roundI (fmul steering f32Scale))
        exec (.codecEncCmd seq throttle steering) s = .next (s.setResult (.payload
          [lowByte seq, highByte seq, lowByte t, highByte t, lowByte r, highByte r, 0x00]))) ∧
      (axisInDomain throttle = false ∨ axisInDomain steering = false →
        exec (.codecEncCmd seq throttle steering) s = .refused .axisOutsideDomain)) ∧
    (∀ (seq : U16) (status : Byte) (w : Sensors),
      exec (.codecEncTlm seq status w) s = .next (s.setResult (.payload
        [lowByte seq, highByte seq, status, lowByte w.ax, highByte w.ax, lowByte w.ay, highByte w.ay,
          lowByte w.az, highByte w.az, lowByte w.gx, highByte w.gx, lowByte w.gy, highByte w.gy,
          lowByte w.gz, highByte w.gz]))) ∧
    (∀ text : List Byte, ∃ P, exec (.codecEncLog text) s = .next { s with result := .payload P } ∧
      P.length = min text.length 200 ∧ P <+: text)

/-- Every operation of CODEC is a function of its operands: it changes the result port alone, and what it puts there does
not depend on the state (R113). The wire rows, which are parses (log 4), are among them. -/
def Obligations.CodecIsStateless : Prop :=
  ∀ (i : Instr) (s t u : State), unitOf i = .codec → exec i s = .next t →
    t = { s with result := t.result } ∧ exec i u = .next { u with result := t.result }

/-- Requests refused for what they are: a build payload that no length field can count (R100's operand; log 17), a `TICK` at
the gateway end (`46_scheduler.md` R210; log 18), and a `TICK` with a slew rate that R191 e refuses as a configuration:
NaN, infinite, or below zero (that it is `TICK` that refuses it: log 28). -/
def Obligations.OverlongBuildGatewayTickAndForbiddenRateAreRefused : Prop :=
  (∀ (s : State) (T : MessageType) (P : List Byte) (d : Nat), 65535 < P.length →
    exec (.codecBuild T P d) s = .refused .payloadOverlong) ∧
  (∀ (s : State) (now : U32) (bytes : List Byte) (a : Option Axes) (w : Sensors) (e : Bool),
    s.params.linkEnd = .gateway → exec (.tick now bytes a w e) s = .refused .noGatewayTick) ∧
  (∀ (s : State) (now : U32) (bytes : List Byte) (a : Option Axes) (w : Sensors) (e : Bool) (rate : F32),
    s.params.linkEnd = .actuator → rate = s.params.slewRateThr ∨ rate = s.params.slewRateSteer →
    f32IsNaN rate = true ∨ f32IsInf rate = true ∨ flt rate f32Zero = true →
    exec (.tick now bytes a w e) s = .refused .slewRateOutsideDomain)

/-- Round trip, exact, for Telemetry, Ping, Pong and Log (R114): what `CODEC.BUILD` gives is parsed back to the same value,
whatever bytes follow it and whatever the state. -/
def Obligations.BuildThenParseReturnsTheSameValue : Prop :=
  ∀ (s u : State) (tail : List Byte),
    (∀ d : TelemetryData, ∃ D,
      exec (.codecBuild .telemetry (encodeTelemetry d.seq d.status d.sensors) 23) s =
        .next { s with result := .built (.ok D) } ∧
      exec (.codecParseTlm (D ++ tail)) u = .next { u with result := .parsed (.ok (.telemetry d, 23)) }) ∧
    (∃ D, exec (.codecBuild .ping [] 8) s = .next { s with result := .built (.ok D) } ∧
      exec (.codecParsePing (D ++ tail)) u = .next { u with result := .parsed (.ok (.ping, 8)) }) ∧
    (∃ D, exec (.codecBuild .pong [] 8) s = .next { s with result := .built (.ok D) } ∧
      exec (.codecParsePong (D ++ tail)) u = .next { u with result := .parsed (.ok (.pong, 8)) }) ∧
    (∀ text : List Byte, ∃ D,
      exec (.codecBuild .log (encodeLog text) 208) s = .next { s with result := .built (.ok D) } ∧
      exec (.codecParseLog (D ++ tail)) u =
        .next { u with result := .parsed (.ok (.log (text.take 200), 8 + min text.length 200)) })

/-- Round trip of a Command (R114): the sequence number exact, each axis within `1/32767`. `f32Scaled` counts units of
2^-149, so `1.0` is `2 ^ 149` of them. -/
def Obligations.CommandRoundTripIsWithinOneQuantum : Prop :=
  ∀ (s u : State) (tail : List Byte) (seq : U16) (a b : F32), axisInDomain a = true → axisInDomain b = true →
    ∃ (P D : List Byte) (a' b' : F32),
      exec (.codecEncCmd seq a b) s = .next { s with result := .payload P } ∧
      exec (.codecBuild .command P 15) s = .next { s with result := .built (.ok D) } ∧
      exec (.codecParseCmd (D ++ tail)) u =
        .next { u with result := .parsed (.ok (.command { seq := seq, throttle := a', steering := b' }, 15)) } ∧
      f32IsFinite a' = true ∧ f32IsFinite b' = true ∧
      (f32Scaled a' - f32Scaled a).natAbs * 32767 < 2 ^ 149 ∧
      (f32Scaled b' - f32Scaled b).natAbs * 32767 < 2 ^ 149

/-! ## RXBUF -/

/-- `RX.PUSH` (R130) in a state that keeps the buffer's invariant: the bytes that fit are appended in order, every other
byte of the store reads as before, and nothing else but the result changes. -/
def Obligations.PushAppendsWhatFits : Prop :=
  ∀ (s : State) (bytes : List Byte), s.rx.inv s.params.cap = true →
    let k := min bytes.length (s.params.cap - s.rx.cur)
    ∃ t, exec (.rxPush bytes) s = .next t ∧
      t = { s with rx := t.rx, result := .taken k } ∧ t.rx.cur = s.rx.cur + k ∧
      (∀ j, j < k → t.readRx (s.rx.cur + j) = bytes.getD j 0) ∧
      (∀ o, o < s.rx.cur ∨ s.rx.cur + k ≤ o → t.readRx o = s.readRx o) ∧
      t.rx.content = s.rx.content ++ bytes.take k

/-- `RX.EXTRACT` (R131) on the content: every way a call can end, and what it leaves in the buffer. Nothing but the buffer
and the result changes. -/
def Obligations.ExtractFollowsTheFourStates : Prop :=
  ∀ (s : State) (T : MessageType), ∃ (b : RxBuf) (r : Extract),
    exec (.rxExtract T) s = .next { s with rx := b, result := .extracted r } ∧
    let C := s.rx.content
    let prefixAt : Nat → Prop := fun i => i + 1 < s.rx.cur ∧ byteAt C i = 0xAA ∧ byteAt C (i + 1) = 0x55
    ((∀ i, ¬ prefixAt i) →
      (s.rx.cur = s.params.cap → r = .noFrame .reset ∧ b.cur = 0) ∧
      (s.rx.cur ≠ s.params.cap → r = .noFrame .noPrefix ∧ b = s.rx)) ∧
    (∀ i, prefixAt i → (∀ j, j < i → ¬ prefixAt j) →
      let D := C.drop i
      (D.length < 4 → r = .noFrame .headerPending ∧ b.content = D) ∧
      (4 ≤ D.length →
        (byteAt D 3 ≠ typeCode T → r = .noFrame .typeMismatch ∧ b.content = D) ∧
        (byteAt D 3 = typeCode T →
          (∀ v n, parseFrame T D = .ok (v, n) → r = .frame v ∧ b.content = D.drop n) ∧
          (∀ e, parseFrame T D = .err e →
            (e = .insufficientData → s.params.skipOnInsufficient = false →
              r = .noFrame .partialFrame ∧ b.content = D) ∧
            (e ≠ .insufficientData ∨ s.params.skipOnInsufficient = true →
              r = .noFrame (.rejected e) ∧ b.content = D.drop 1)))))

/-- State 4, rejection (R136): exactly one byte is skipped, the `55` is then in front, and only three errors can reach the
rule (`InsufficientData` waits unless `SKIP_ON_INSUFFICIENT`). -/
def Obligations.RejectionSkipsExactlyOneByte : Prop :=
  ∀ (s t : State) (T : MessageType) (e : ParseError), s.params.skipOnInsufficient = false →
    exec (.rxExtract T) s = .next t → t.result = .extracted (.noFrame (.rejected e)) →
      (e = .invalidVersion ∨ e = .invalidPayloadLength ∨ e = .crcMismatch) ∧
      ∃ i, byteAt s.rx.content i = 0xAA ∧ byteAt s.rx.content (i + 1) = 0x55 ∧
        (∀ j, j < i → ¬ (byteAt s.rx.content j = 0xAA ∧ byteAt s.rx.content (j + 1) = 0x55)) ∧
        t.rx.content = s.rx.content.drop (i + 1) ∧ t.rx.cur + (i + 1) = s.rx.cur ∧ byteAt t.rx.content 0 = 0x55

/-- A wait cannot last on a full buffer (R137): with a capacity the parameters admit and the prefix in front, a full
buffer never ends a call in `Partial`. -/
def Obligations.FullBufferNeverWaitsForAFrame : Prop :=
  ∀ (s : State) (T : MessageType), Config.maxFrame ≤ s.params.cap → s.rx.cur = s.params.cap →
    byteAt s.rx.content 0 = 0xAA → byteAt s.rx.content 1 = 0x55 →
    ∃ t, exec (.rxExtract T) s = .next t ∧ t.result ≠ .extracted (.noFrame .partialFrame)

/-- Resync progress (R138, `90_conflicts.md` C10): a capacity of bytes with no prefix anywhere, pushed into an empty
buffer, is discarded by the next extraction, whatever type it asks for. -/
def Obligations.GarbageFilledBufferIsReset : Prop :=
  ∀ (s : State) (T : MessageType) (bytes : List Byte), s.rx.inv s.params.cap = true → s.rx.cur = 0 →
    bytes.length = s.params.cap → (∀ i, byteAt bytes i = 0xAA → byteAt bytes (i + 1) ≠ 0x55) →
    ∃ t u, exec (.rxPush bytes) s = .next t ∧ t.result = .taken s.params.cap ∧ t.rx.cur = s.params.cap ∧
      exec (.rxExtract T) t = .next u ∧ u.result = .extracted (.noFrame .reset) ∧ u.rx.cur = 0

/-- A byte string a parser accepts, pushed into an empty buffer, comes out as that value, and what follows the frame stays
at the front (R135). -/
def Obligations.AcceptedFrameComesOutAndTheRestStays : Prop :=
  ∀ (s : State) (T : MessageType) (S : List Byte) (v : FrameValue) (n : Nat), s.rx.inv s.params.cap = true →
    s.rx.cur = 0 → S.length ≤ s.params.cap → parseFrame T S = .ok (v, n) →
    ∃ t u, exec (.rxPush S) s = .next t ∧ exec (.rxExtract T) t = .next u ∧
      u.result = .extracted (.frame v) ∧ u.rx.content = S.drop n ∧ u.rx.inv u.params.cap = true

/-- The head-of-line wedge (`70_reset_and_hazards.md` R260) lasts through every step but an `RX.EXTRACT` of a type that is not
expected, which may take the frame in front (R134): the buffer stays wedged and in order, and no byte of its content is
lost or moved. Every expected extraction ends in `TypeMismatch` and changes nothing in the buffer; every tick gives no
frame and only appends what fits. -/
def Obligations.HeadOfLineWedgeOutlastsAllButUnexpectedExtraction : Prop :=
  (∀ s t : State, s.rx.inv s.params.cap = true → wedged s.params s.rx = true →
    (∀ (r rest : List Byte) (waiting : List (List Byte)) (T : MessageType),
      s.requests = r :: waiting → decode r = .ok (.rxExtract T) rest → T ∈ s.params.expectedTypes) →
    step s = .next t →
    t.rx.inv t.params.cap = true ∧ wedged t.params t.rx = true ∧ s.rx.content <+: t.rx.content) ∧
  ∀ s : State, s.rx.inv s.params.cap = true → wedged s.params s.rx = true →
    (∀ T ∈ s.params.expectedTypes,
      exec (.rxExtract T) s = .next { s with result := .extracted (.noFrame .typeMismatch) }) ∧
    (s.params.linkEnd = .actuator → slewRatesAllowed s.params = true →
      ∀ (now : U32) (bytes : List Byte) (a : Option Axes) (w : Sensors) (e : Bool),
      ∃ t, exec (.tick now bytes a w e) s = .next t ∧ t.ports.frameOut = [] ∧
        t.ports.rxTaken = min bytes.length (s.params.cap - s.rx.cur) ∧
        t.rx.content = s.rx.content ++ bytes.take t.ports.rxTaken ∧ wedged t.params t.rx = true)

/-! ## LIVE -/

/-- `RADIO.POLL` (R150). -/
def Obligations.RadioPollSetsLivenessAndValues : Prop :=
  ∀ (s : State) (thr steer : F32),
    exec (.radioPoll (some (thr, steer))) s =
      .next { s with live := { s.live with radioLive := true, radioThr := thr, radioSteer := steer } } ∧
    exec (.radioPoll none) s = .next { s with live := { s.live with radioLive := false } }

/-- `NET.SUBMIT` (R151): the slot is overwritten unconditionally and nothing else is touched; of two submits the second is
left. -/
def Obligations.NetSubmitOverwritesTheSlot : Prop :=
  ∀ (s : State) (a b a' b' : F32), ∃ t,
    exec (.netSubmit a b) s = .next t ∧
    t = { s with live := { s.live with slotFull := true, slotThr := a, slotSteer := b } } ∧
    exec (.netSubmit a' b') t =
      .next { s with live := { s.live with slotFull := true, slotThr := a', slotSteer := b' } }

/-- `NET.TAKE` (R152): the slot's content or nothing, the slot empty, and a second take gives nothing. That the two value
registers keep what they held is the model's reading (log 19). -/
def Obligations.NetTakeReadsAndClears : Prop :=
  ∀ s : State, ∃ t,
    exec .netTake s = .next t ∧
    t = ({ s with live := { s.live with slotFull := false } } : State).setResult
      (.slot (if s.live.slotFull then some (s.live.slotThr, s.live.slotSteer) else none)) ∧
    exec .netTake t = .next { t with result := .slot none }

/-- `NET.CMD` (R153) stamps the command with the tick's time, and `LIVE.EVAL` (R154) then finds the network live for less
than `NET_TIMEOUT_MS`, never if the stamp is 0. -/
def Obligations.NetCommandIsLiveUntilTheTimeout : Prop :=
  ∀ (s : State) (thr steer : F32) (now later : U32), ∃ t,
    exec (.netCmd thr steer now) s = .next t ∧
    t = { s with live := { s.live with netThr := thr, netSteer := steer, netLastCmdMs := now } } ∧
    exec (.liveEval later) t = .next (t.setResult
      (.liveness s.live.radioLive (decide (now ≠ 0 ∧ (later - now).toNat < s.params.netTimeoutMs.toNat))))

/-- `LIVE.EVAL` (R154): the two liveness values, the comparison strict and modulo 2^32; no register is written. -/
def Obligations.LivenessIsEvaluatedByTheFormula : Prop :=
  ∀ (s : State) (now : U32),
    exec (.liveEval now) s = .next (s.setResult (.liveness s.live.radioLive
      (decide (s.live.netLastCmdMs ≠ 0 ∧ (now - s.live.netLastCmdMs).toNat < s.params.netTimeoutMs.toNat))))

/-- `ARB.SELECT` (R155): radio if live, whatever the network holds (R156), else network if live, else nothing; no register
is written. -/
def Obligations.ArbitrationPrefersTheRadio : Prop :=
  ∀ (s : State) (now : U32), ∃ r,
    exec (.arbSelect now) s = .next { s with result := .selected r } ∧
    (s.live.radioLive = true → r = some (s.live.radioThr, s.live.radioSteer)) ∧
    (s.live.radioLive = false →
      (s.live.netLastCmdMs ≠ 0 → (now - s.live.netLastCmdMs).toNat < s.params.netTimeoutMs.toNat →
        r = some (s.live.netThr, s.live.netSteer)) ∧
      (s.live.netLastCmdMs = 0 ∨ s.params.netTimeoutMs.toNat ≤ (now - s.live.netLastCmdMs).toNat → r = none))

/-- A `NET.SUBMIT` may be moved across any operation that neither takes nor fills the slot, that is any but `NET.TAKE`,
`TICK` and another `NET.SUBMIT`, without any difference (`20_memory.md` R52: the tick agent touches the slot only in
`NET.TAKE`). -/
def Obligations.SubmitCommutesWithWhatNeitherTakesNorFills : Prop :=
  ∀ (i : Instr) (s : State) (a b : F32), i ≠ .netTake → unitOf i ≠ .sched → .networkAgent ∉ performers i →
    ∃ s1, exec (.netSubmit a b) s = .next s1 ∧
      (∀ t, exec i s = .next t → ∃ u, exec (.netSubmit a b) t = .next u ∧ exec i s1 = .next u) ∧
      (∀ r, exec i s = .refused r → exec i s1 = .refused r)

/-- What the network agent may perform changes the slot alone, and no operation of another party fills the slot or changes
its values (`10_state.md` R15, `60_exceptions.md` R233). That `NET.TAKE`, and `TICK` with it, leaves the two values in the
emptied slot is the model's reading (log 19). -/
def Obligations.OnlyTheNetworkAgentFillsTheSlot : Prop :=
  ∀ (i : Instr) (s t : State), exec i s = .next t →
    (.networkAgent ∈ performers i → t = { s with live :=
      { s.live with slotFull := t.live.slotFull, slotThr := t.live.slotThr, slotSteer := t.live.slotSteer } }) ∧
    (.networkAgent ∉ performers i → t.live.slotThr = s.live.slotThr ∧ t.live.slotSteer = s.live.slotSteer ∧
      (t.live.slotFull = true → s.live.slotFull = true))

/-! ## FSAFE -/

/-- The transition table (R171), after the first update: six rows, the timeout inclusive, `FS_LAST_ACTIVE_MS` written in
exactly the three rows with a source. -/
def Obligations.FailsafeFollowsTheTable : Prop :=
  ∀ (s : State) (now : U32), s.fs.seeded = true →
    let moved : FsState → U32 → State := fun st last =>
      { s with fs := { state := st, lastActiveMs := last, seeded := true }, result := .failsafe st }
    (s.fs.state = .inactive →
      exec (.fsUpdate now true) s = .next (moved .inactive now) ∧
      ((now - s.fs.lastActiveMs).toNat < s.params.fsTimeoutMs.toNat →
        exec (.fsUpdate now false) s = .next (moved .inactive s.fs.lastActiveMs)) ∧
      (s.params.fsTimeoutMs.toNat ≤ (now - s.fs.lastActiveMs).toNat →
        exec (.fsUpdate now false) s = .next (moved .active s.fs.lastActiveMs))) ∧
    (s.fs.state = .active →
      exec (.fsUpdate now true) s = .next (moved .recovering now) ∧
      exec (.fsUpdate now false) s = .next (moved .active s.fs.lastActiveMs)) ∧
    (s.fs.state = .recovering →
      exec (.fsUpdate now true) s = .next (moved .inactive now) ∧
      exec (.fsUpdate now false) s = .next (moved .active s.fs.lastActiveMs))

/-- The first update under both policies of `TRIP_ON_BOOT` (R172), from the state in which reset or `FS.RESET` leaves
FSAFE. -/
def Obligations.FirstUpdateFollowsTheBootPolicy : Prop :=
  ∀ (s : State) (now : U32), s.fs.seeded = false → s.fs.state = .inactive →
    let moved : FsState → U32 → State := fun st last =>
      { s with fs := { state := st, lastActiveMs := last, seeded := true }, result := .failsafe st }
    exec (.fsUpdate now true) s = .next (moved .inactive now) ∧
    (s.params.tripOnBoot = true → exec (.fsUpdate now false) s = .next (moved .active s.fs.lastActiveMs)) ∧
    (s.params.tripOnBoot = false →
      exec (.fsUpdate now false) s = .next (moved (if s.params.fsTimeoutMs = 0 then .active else .inactive) now))

/-- Timeout zero (R173): an update without a source gives Active, from every state of FSAFE, the first update under either
policy included. -/
def Obligations.ZeroTimeoutTripsAtOnce : Prop :=
  ∀ (s : State) (now : U32), s.params.fsTimeoutMs = 0 →
    ∃ t, exec (.fsUpdate now false) s = .next t ∧ t.fs.state = .active ∧ t.result = .failsafe .active

/-- `FS.RESET` (R174): FSAFE is back in its reset state with `FS_LAST_ACTIVE_MS` any value at all (log 13), nothing of
LIVE, SCHED or the other units is touched, `failsafe_active` is 0, and under policy (a) an update without a source goes
straight to Active. -/
def Obligations.FailsafeResetReturnsToTheResetState : Prop :=
  ∀ s : State, ∃ (t : State) (any : U32), exec .fsReset s = .next t ∧
    t = { s with fs := { state := .inactive, lastActiveMs := any, seeded := false }, freeCount := t.freeCount } ∧
    failsafeActive t = false ∧
    (s.params.tripOnBoot = true → ∀ now : U32, ∃ u, exec (.fsUpdate now false) t = .next u ∧ u.fs.state = .active)

/-- Recovery takes two updates (R176): Recovering, then Inactive or, on a dropout, Active; Recovering never outlasts one
update. -/
def Obligations.RecoveryTakesTwoUpdates : Prop :=
  (∀ (s : State) (t1 t2 : U32), s.fs.seeded = true → s.fs.state = .active →
    ∃ u v w, exec (.fsUpdate t1 true) s = .next u ∧ u.fs.state = .recovering ∧
      exec (.fsUpdate t2 true) u = .next v ∧ v.fs.state = .inactive ∧
      exec (.fsUpdate t2 false) u = .next w ∧ w.fs.state = .active) ∧
  (∀ (s : State) (now : U32) (active : Bool), s.fs.seeded = true → s.fs.state = .recovering →
    ∃ t, exec (.fsUpdate now active) s = .next t ∧ t.fs.state ≠ .recovering)

/-- `FS_LAST_ACTIVE_MS` is never read before it is written (R175): two states that differ in that register alone, before
the first update or outside Inactive, answer every update alike, and afterwards are equal again or still in that case. So
neither its reset value (log 11) nor the free value after `FS.RESET` (log 13) is ever observed. -/
def Obligations.UnwrittenLastActiveTimeIsUnobservable : Prop :=
  ∀ (s : State) (v now : U32) (active : Bool), s.fs.seeded = false ∨ s.fs.state ≠ .inactive →
    ∃ t u, exec (.fsUpdate now active) s = .next t ∧
      exec (.fsUpdate now active) { s with fs := { s.fs with lastActiveMs := v } } = .next u ∧
      t.result = u.result ∧ t.fs.state = u.fs.state ∧ t.fs.seeded = u.fs.seeded ∧
      (t.fs.lastActiveMs = u.fs.lastActiveMs ∨ t.fs.state ≠ .inactive)

/-! ## SLEW -/

/-- `SLEW.STEP` (R190). -/
def Obligations.SlewStepFollowsTheFormula : Prop :=
  ∀ (s : State) (target current rate : F32) (dt : U32),
    let m := fdiv (fmul rate (f32OfU32 dt)) 0x447A0000
    let d := fsub target current
    exec (.slewStep target current rate dt) s = .next (s.setResult (.slew
      (if fgt d m then fadd current m else if flt d (fneg m) then fsub current m else target)))

/-- Slew-rate never overshoots (R192), in binary32 arithmetic, for finite target and current and every `max_change` that is
not negative, infinity included: the result is finite and no farther from the target. -/
def Obligations.SlewNeverOvershoots : Prop :=
  ∀ (s : State) (target current rate : F32) (dt : U32), f32IsFinite target = true → f32IsFinite current = true →
    let m := fdiv (fmul rate (f32OfU32 dt)) f32Thousand
    f32IsNaN m = false → 0 ≤ f32Key m →
    ∃ r, exec (.slewStep target current rate dt) s = .next { s with result := .slew r } ∧ f32IsFinite r = true ∧
      (f32Scaled r - f32Scaled target).natAbs ≤ (f32Scaled current - f32Scaled target).natAbs

/-- A step at its target stays there, bit for bit (R191 f, R192: never oscillates), unless `max_change` is negative. -/
def Obligations.SlewStaysAtItsTarget : Prop :=
  ∀ (s : State) (target rate : F32) (dt : U32),
    let m := fdiv (fmul rate (f32OfU32 dt)) f32Thousand
    f32IsNaN m = true ∨ 0 ≤ f32Key m →
    exec (.slewStep target target rate dt) s = .next { s with result := .slew target }

/-- NaN (R191 d): the result is NaN only if the target is, and a NaN current or `max_change` gives the target. -/
def Obligations.SlewHealsEveryNaNButTheTargets : Prop :=
  ∀ (s : State) (target current rate : F32) (dt : U32), ∃ r,
    exec (.slewStep target current rate dt) s = .next { s with result := .slew r } ∧
    (f32IsNaN r = true → f32IsNaN target = true) ∧
    (f32IsNaN target = true ∨ f32IsNaN current = true ∨ f32IsNaN (fdiv (fmul rate (f32OfU32 dt)) f32Thousand) = true →
      r = target)

/-! ## SCHED -/

/-- `TICK` completes at the actuator end, with slew rates that R191 e does not refuse, from every state and for every input
(R200, R209), and its frame. The model's choices: it leaves the result port (log 7), and the emptied slot keeps its two
values (log 19). -/
def Obligations.TickAlwaysCompletesAtTheActuatorEnd : Prop :=
  ∀ (s : State) (now : U32) (bytes : List Byte) (a : Option Axes) (w : Sensors) (e : Bool),
    s.params.linkEnd = .actuator → slewRatesAllowed s.params = true → ∃ t, exec (.tick now bytes a w e) s = .next t ∧
      t.sched.seeded = true ∧ t.fs.seeded = true ∧ t.live.slotFull = false ∧
      t.live.slotThr = s.live.slotThr ∧ t.live.slotSteer = s.live.slotSteer ∧
      t.params = s.params ∧ t.crcAcc = s.crcAcc ∧ t.result = s.result ∧ t.requests = s.requests ∧
      t.freeCount = s.freeCount

/-- A run is a sequence of ticks with `NET.SUBMIT` operations between them, and never stops (R209): however many such
requests wait, all of them are performed. -/
def Obligations.TicksAndSubmitsNeverStop : Prop :=
  ∀ (s : State) (is : List Instr), s.params.linkEnd = .actuator → slewRatesAllowed s.params = true →
    s.requests = is.map encode →
    (∀ i ∈ is, i.wf = true ∧ (unitOf i = .sched ∨ .networkAgent ∈ performers i)) →
    ∃ t, Host.Core.run Sys2Proof.core is.length s = .next t ∧ t.requests = [] ∧ t.params = s.params

/-- Phases 1 and 2 (R201, R202) are the unit operations: one `RX.PUSH`, then one `RX.EXTRACT` for each expected type in
list order, each extracted frame put on `frame_out`. -/
def Obligations.TickPumpsAndParsesByTheUnitOperations : Prop :=
  ∀ (s : State) (now : U32) (bytes : List Byte) (a : Option Axes) (w : Sensors) (e : Bool),
    s.params.linkEnd = .actuator → slewRatesAllowed s.params = true → ∃ t u, exec (.tick now bytes a w e) s = .next t ∧
      exec (.rxPush bytes) s = .next u ∧ u.result = .taken t.ports.rxTaken ∧
      let extractNext : State × List FrameValue → MessageType → State × List FrameValue := fun acc T =>
        match exec (.rxExtract T) acc.1 with
        | .next v =>
          match v.result with
          | .extracted (.frame f) => (v, acc.2 ++ [f])
          | _ => (v, acc.2)
        | _ => acc
      (s.params.expectedTypes.foldl extractNext (u, [])).1.rx = t.rx ∧
      (s.params.expectedTypes.foldl extractNext (u, [])).2 = t.ports.frameOut

/-- Phase 3 (R203, R208): the radio behind its inclusive gate, the slot taken on every tick, and the two network paths in
the order of `NET_MERGE`, each stamping `now`. -/
def Obligations.TickUpdatesBothSources : Prop :=
  ∀ (s : State) (now : U32) (bytes : List Byte) (a : Option Axes) (w : Sensors) (e : Bool),
    s.params.linkEnd = .actuator → slewRatesAllowed s.params = true → ∃ t, exec (.tick now bytes a w e) s = .next t ∧
      let polls := s.sched.seeded = false ∨ s.params.rcPollIntervalMs.toNat ≤ (now - s.sched.rcLastMs).toNat
      let fromFrame : Option Axes := frameCommandOf t.ports.frameOut
      let fromSlot : Option Axes := if s.live.slotFull then some (s.live.slotThr, s.live.slotSteer) else none
      let winner : Option Axes := match s.params.netMerge with
        | .slotWins => fromSlot.or fromFrame
        | .frameWins => fromFrame.or fromSlot
      (polls → t.ports.radioPoll = true ∧ t.sched.rcLastMs = now ∧ t.live.radioLive = a.isSome ∧
        (∀ v, a = some v → t.live.radioThr = v.1 ∧ t.live.radioSteer = v.2) ∧
        (a = none → t.live.radioThr = s.live.radioThr ∧ t.live.radioSteer = s.live.radioSteer)) ∧
      (¬ polls → t.ports.radioPoll = false ∧ t.sched.rcLastMs = s.sched.rcLastMs ∧
        t.live.radioLive = s.live.radioLive ∧ t.live.radioThr = s.live.radioThr ∧
        t.live.radioSteer = s.live.radioSteer) ∧
      t.live.slotFull = false ∧
      (∀ v, winner = some v → t.live.netThr = v.1 ∧ t.live.netSteer = v.2 ∧ t.live.netLastCmdMs = now) ∧
      (winner = none → t.live.netThr = s.live.netThr ∧ t.live.netSteer = s.live.netSteer ∧
        t.live.netLastCmdMs = s.live.netLastCmdMs)

/-- Phases 4 and 5 (R204, R205): the failsafe is updated on every tick with the liveness found, and, unless the output is
forced, the commanded values are the arbitrated command or, with no live source, what they were. -/
def Obligations.TickArbitratesAndUpdatesTheFailsafe : Prop :=
  ∀ (s : State) (now : U32) (bytes : List Byte) (a : Option Axes) (w : Sensors) (e : Bool),
    s.params.linkEnd = .actuator → slewRatesAllowed s.params = true → ∃ t u, exec (.tick now bytes a w e) s = .next t ∧
      exec (.fsUpdate now (radioOk t || networkOk now t)) s = .next u ∧ t.fs = u.fs ∧
      (failsafeActive t = false →
        (radioOk t = true → t.sched.cmdThr = t.live.radioThr ∧ t.sched.cmdSteer = t.live.radioSteer) ∧
        (radioOk t = false → networkOk now t = true →
          t.sched.cmdThr = t.live.netThr ∧ t.sched.cmdSteer = t.live.netSteer) ∧
        (radioOk t = false → networkOk now t = false →
          t.sched.cmdThr = s.sched.cmdThr ∧ t.sched.cmdSteer = s.sched.cmdSteer))

/-- Phase 6 (R206, R231): while the failsafe forces neutral, commanded and applied values are neutral and `act_neutral` is
strobed, whatever the gate; otherwise each axis takes one limited step over the real elapsed time when the gate passes,
and nothing is sent when it does not. -/
def Obligations.TickDrivesTheActuator : Prop :=
  ∀ (s : State) (now : U32) (bytes : List Byte) (a : Option Axes) (w : Sensors) (e : Bool),
    s.params.linkEnd = .actuator → slewRatesAllowed s.params = true → ∃ t, exec (.tick now bytes a w e) s = .next t ∧
      let forced := t.fs.state = .active ∨ (s.params.recoveringForcesNeutral = true ∧ t.fs.state = .recovering)
      let passes := s.sched.seeded = false ∨ s.params.actIntervalMs.toNat ≤ (now - s.sched.actLastMs).toNat
      let dt : U32 := if s.sched.seeded then now - s.sched.actLastMs else 0
      (forced → t.sched.cmdThr = f32Zero ∧ t.sched.cmdSteer = f32Zero ∧ t.sched.appliedThr = f32Zero ∧
        t.sched.appliedSteer = f32Zero ∧ t.sched.actLastMs = now ∧ t.ports.actNeutral = true ∧ t.ports.actSet = none) ∧
      (¬ forced → passes →
        t.sched.appliedThr = slewStep t.sched.cmdThr s.sched.appliedThr s.params.slewRateThr dt ∧
        t.sched.appliedSteer = slewStep t.sched.cmdSteer s.sched.appliedSteer s.params.slewRateSteer dt ∧
        t.sched.actLastMs = now ∧ t.ports.actSet = some (t.sched.appliedThr, t.sched.appliedSteer) ∧
        t.ports.actNeutral = false) ∧
      (¬ forced → ¬ passes →
        t.sched.appliedThr = s.sched.appliedThr ∧ t.sched.appliedSteer = s.sched.appliedSteer ∧
        t.sched.actLastMs = s.sched.actLastMs ∧ t.ports.actSet = none ∧ t.ports.actNeutral = false)

/-- Active after a tick and a live source never hold together (R230 b): the status port is then `100`. -/
def Obligations.ActiveAfterATickMeansNoLiveSource : Prop :=
  ∀ (s : State) (now : U32) (bytes : List Byte) (a : Option Axes) (w : Sensors) (e : Bool),
    s.params.linkEnd = .actuator → slewRatesAllowed s.params = true → ∃ t, exec (.tick now bytes a w e) s = .next t ∧
      (t.fs.state = .active → statusBits now t = 0b100#3)

/-- Phase 7 (R207): behind its gate a telemetry frame with the tick's sequence number, flags and sensor words is written,
and a receiver's parser reads it back; where the destination is too small the send is skipped and `TLM_SEQ` stays. -/
def Obligations.TickSendsTelemetry : Prop :=
  ∀ (s : State) (now : U32) (bytes : List Byte) (a : Option Axes) (w : Sensors) (e : Bool),
    s.params.linkEnd = .actuator → slewRatesAllowed s.params = true → ∃ t, exec (.tick now bytes a w e) s = .next t ∧
      let passes := s.sched.seeded = false ∨ s.params.tlmIntervalMs.toNat ≤ (now - s.sched.tlmLastMs).toNat
      let status : Byte := (BitVec.ofBool (failsafeActive t) ++
        (BitVec.ofBool (networkOk now t) ++ BitVec.ofBool (radioOk t))).zeroExtend 8
      (passes → t.sched.tlmLastMs = now ∧
        (23 ≤ s.params.txbufSize →
          t.ports.txBytes.length = 23 ∧ t.sched.tlmSeq = s.sched.tlmSeq + 1 ∧
          exec (.codecBuild .telemetry (encodeTelemetry s.sched.tlmSeq status w) s.params.txbufSize) s =
            .next { s with result := .built (.ok t.ports.txBytes) } ∧
          exec (.codecParseTlm t.ports.txBytes) s = .next (s.setResult
            (.parsed (.ok (.telemetry { seq := s.sched.tlmSeq, status := status, sensors := w }, 23))))) ∧
        (s.params.txbufSize < 23 → t.ports.txBytes = [] ∧ t.sched.tlmSeq = s.sched.tlmSeq)) ∧
      (¬ passes → t.sched.tlmLastMs = s.sched.tlmLastMs ∧ t.ports.txBytes = [] ∧ t.sched.tlmSeq = s.sched.tlmSeq)

/-- The writer's `IoError` changes nothing (R226). -/
def Obligations.WriteErrorIsIgnored : Prop :=
  ∀ (s : State) (now : U32) (bytes : List Byte) (a : Option Axes) (w : Sensors),
    exec (.tick now bytes a w true) s = exec (.tick now bytes a w false) s

/-- The first tick after reset reads no register that R251 leaves unspecified (R208, R175, R12): change all of them at will,
the bytes of `RX_MEM` at or above the cursor included, and the outputs, the scheduler, the buffer's content, the failsafe's
state and the status port are the same. So no reset value the model names (logs 11 and 12) is ever observed through
them. -/
def Obligations.FirstTickIgnoresUnspecifiedRegisters : Prop :=
  ∀ (s : State) (rt rs st ss nt ns : F32) (la al rl tl now : U32) (m : Memory) (bytes : List Byte) (a : Option Axes)
    (w : Sensors) (e : Bool), s.params.linkEnd = .actuator → slewRatesAllowed s.params = true →
    s.sched.seeded = false → s.fs.seeded = false →
    s.live.slotFull = false → s.live.radioLive = false → s.live.netLastCmdMs = 0 →
    s.rx.mem.wf = true → m.wf = true → (∀ o, o < s.rx.cur → readCell m o = s.readRx o) →
    let s' : State := { s with
      rx := { s.rx with mem := m }
      live := { s.live with radioThr := rt, radioSteer := rs, slotThr := st, slotSteer := ss, netThr := nt, netSteer := ns }
      fs := { s.fs with lastActiveMs := la }
      sched := { s.sched with actLastMs := al, rcLastMs := rl, tlmLastMs := tl } }
    ∃ t t', exec (.tick now bytes a w e) s = .next t ∧ exec (.tick now bytes a w e) s' = .next t' ∧
      t.ports = t'.ports ∧ t.sched = t'.sched ∧ t.rx.cur = t'.rx.cur ∧ t.rx.content = t'.rx.content ∧
      (m = s.rx.mem → t.rx = t'.rx) ∧ t.fs.state = t'.fs.state ∧ statusBits now t = statusBits now t'

/-- The first actuator output after reset is neutral (R252) but for an axis whose command is NaN, for all parameters R8
admits and every input: `act_neutral`, or a pair in which each axis is zero, or is NaN because the command of a live source
is (R268 lets a NaN through). -/
def Obligations.FirstActuatorOutputIsNeutral : Prop :=
  ∀ (p : Params) (now : U32) (bytes : List Byte) (a : Option Axes) (w : Sensors) (e : Bool),
    paramsAllowed p = true → p.linkEnd = .actuator →
    ∃ t, exec (.tick now bytes a w e) (State.resetWith p) = .next t ∧
      (t.ports.actNeutral = true ∨ ∃ thr steer, t.ports.actSet = some (thr, steer) ∧
        (feq thr f32Zero = true ∨ (thr = t.sched.cmdThr ∧ f32IsNaN thr = true)) ∧
        (feq steer f32Zero = true ∨ (steer = t.sched.cmdSteer ∧ f32IsNaN steer = true)))
end

