-- ==== Sys2Proof/Laws/Bytes.lean ====
section
/-! SUPPORT. Byte order and layouts: taking a field apart and putting it together, lengths, and the fields of a layout. -/

namespace Sys2Proof

/-- `le16(lo, hi) = lo + 256 * hi` (`20_memory.md` R41). -/
theorem le16_toNat (lo hi : Byte) : (le16 lo hi).toNat = lo.toNat + 256 * hi.toNat := by
  have h := lo.isLt
  simp only [le16, BitVec.toNat_append]
  rw [← Nat.shiftLeft_add_eq_or_of_lt h, Nat.shiftLeft_eq]
  omega

theorem le32_toNat (b0 b1 b2 b3 : Byte) :
    (le32 b0 b1 b2 b3).toNat = b0.toNat + 256 * (b1.toNat + 256 * (b2.toNat + 256 * b3.toNat)) := by
  have h0 := b0.isLt
  have h1 := b1.isLt
  have h2 := b2.isLt
  simp only [le32, BitVec.toNat_append]
  rw [← Nat.shiftLeft_add_eq_or_of_lt h2, ← Nat.shiftLeft_add_eq_or_of_lt h1, ← Nat.shiftLeft_add_eq_or_of_lt h0]
  simp only [Nat.shiftLeft_eq]
  omega

@[simp] theorem le16_bytes (v : U16) : le16 (lowByte v) (highByte v) = v := by
  have h := v.isLt
  refine BitVec.eq_of_toNat_eq ?_
  rw [le16_toNat]
  simp only [lowByte, highByte, BitVec.extractLsb'_toNat, Nat.shiftRight_eq_div_pow]
  omega

@[simp] theorem lowByte_le16 (lo hi : Byte) : lowByte (le16 lo hi) = lo := by
  have h := lo.isLt
  refine BitVec.eq_of_toNat_eq ?_
  simp only [lowByte, BitVec.extractLsb'_toNat, Nat.shiftRight_eq_div_pow, le16_toNat]
  omega

@[simp] theorem highByte_le16 (lo hi : Byte) : highByte (le16 lo hi) = hi := by
  have h := lo.isLt
  have h' := hi.isLt
  refine BitVec.eq_of_toNat_eq ?_
  simp only [highByte, BitVec.extractLsb'_toNat, Nat.shiftRight_eq_div_pow, le16_toNat]
  omega

@[simp] theorem le32_bytes (v : U32) :
    le32 (v.extractLsb' 0 8) (v.extractLsb' 8 8) (v.extractLsb' 16 8) (v.extractLsb' 24 8) = v := by
  have h := v.isLt
  refine BitVec.eq_of_toNat_eq ?_
  simp only [le32_toNat, BitVec.extractLsb'_toNat, Nat.shiftRight_eq_div_pow]
  omega

@[simp] theorem bytes16_length (v : U16) : (bytes16 v).length = 2 := rfl
@[simp] theorem bytes32_length (v : U32) : (bytes32 v).length = 4 := rfl
@[simp] theorem headerBytes_length (t : MessageType) (l : U16) : (headerBytes t l).length = 6 := rfl
@[simp] theorem commandPayload_length (seq : U16) (thr steer : I16) (r : Byte) :
    (commandPayload seq thr steer r).length = 7 := rfl
@[simp] theorem sensorBytes_length (w : Sensors) : (sensorBytes w).length = 12 := rfl
@[simp] theorem telemetryPayload_length (seq : U16) (status : Byte) (w : Sensors) :
    (telemetryPayload seq status w).length = 15 := rfl

/-- `frame_size = 6 + payload_len + 2` (`30_encoding.md` R61). -/
@[simp] theorem frameBytes_length (t : MessageType) (P : List Byte) (crc : U16) :
    (frameBytes t P crc).length = 6 + P.length + 2 := by
  simp [frameBytes]; omega

@[simp] theorem typeOfCode_typeCode (t : MessageType) : typeOfCode (typeCode t) = some t := by
  cases t <;> decide

theorem typeOfCode_some {b : Byte} {t : MessageType} (h : typeOfCode b = some t) : b = typeCode t := by
  unfold typeOfCode at h
  repeat' split at h
  all_goals first | (cases h; assumption) | cases h

theorem typeCode_injective {a b : MessageType} (h : typeCode a = typeCode b) : a = b := by
  revert h; cases a <;> cases b <;> decide

/-! ## The fields of a frame -/

section
variable (t : MessageType) (P : List Byte) (crc : U16) (tail : List Byte)

@[simp] theorem frame_byte0 : byteAt (frameBytes t P crc ++ tail) 0 = 0xAA := rfl
@[simp] theorem frame_byte1 : byteAt (frameBytes t P crc ++ tail) 1 = 0x55 := rfl
@[simp] theorem frame_byte2 : byteAt (frameBytes t P crc ++ tail) 2 = 0x01 := rfl
@[simp] theorem frame_byte3 : byteAt (frameBytes t P crc ++ tail) 3 = typeCode t := rfl
@[simp] theorem frame_length_field : wordAt (frameBytes t P crc ++ tail) 4 = BitVec.ofNat 16 P.length := by
  show le16 (lowByte _) (highByte _) = _
  exact le16_bytes _

theorem frame_payload : slice (frameBytes t P crc ++ tail) 6 (6 + P.length) = P := by
  simp [slice, frameBytes, headerBytes, bytes16, Nat.add_comm 6 P.length]

theorem frame_covered :
    slice (frameBytes t P crc ++ tail) 2 (6 + P.length) =
      (headerBytes t (BitVec.ofNat 16 P.length) ++ P).drop 2 := by
  simp [slice, frameBytes, headerBytes, bytes16, Nat.add_comm 6 P.length]

theorem frame_crc : wordAt (frameBytes t P crc ++ tail) (6 + P.length) = crc := by
  have e : frameBytes t P crc ++ tail = (headerBytes t (BitVec.ofNat 16 P.length) ++ P) ++ (bytes16 crc ++ tail) := by
    simp [frameBytes]
  have hl : (headerBytes t (BitVec.ofNat 16 P.length) ++ P).length = 6 + P.length := by simp
  have h0 : byteAt (frameBytes t P crc ++ tail) (6 + P.length) = lowByte crc := by
    rw [e, byteAt, List.getD_append_right _ _ _ _ (by omega), hl]
    simp [bytes16]
  have h1 : byteAt (frameBytes t P crc ++ tail) (6 + P.length + 1) = highByte crc := by
    rw [e, byteAt, List.getD_append_right _ _ _ _ (by omega), hl, show 6 + P.length + 1 - (6 + P.length) = 1 by omega]
    simp [bytes16]
  rw [wordAt, h0, h1, le16_bytes]

end

/-! ## The fields of a payload -/

namespace Machine

theorem decodeCommand_payload (seq : U16) (thr steer : I16) (r : Byte) :
    decodeCommand (commandPayload seq thr steer r) =
      { seq := seq, throttle := rawToAxis thr, steering := rawToAxis steer } := by
  simp [decodeCommand, commandPayload, wordAt, byteAt, bytes16]

theorem decodeTelemetry_payload (seq : U16) (status : Byte) (w : Sensors) :
    decodeTelemetry (telemetryPayload seq status w) = { seq := seq, status := status, sensors := w } := by
  simp [decodeTelemetry, telemetryPayload, sensorBytes, wordAt, byteAt, bytes16]

end Machine

end Sys2Proof
end

