-- ==== Sys2Proof/Laws/Codec.lean ====
section
/-! SUPPORT. The CODEC functions (`41_frame_codec.md`): every way a check or a parse can end, and the parse of a frame that
is written out. -/

namespace Sys2Proof.Machine

/-- `CODEC.BUILD` (R100): too small, or the frame with its own CRC. -/
theorem buildFrame_cases (t : MessageType) (P : List Byte) (d : Nat) :
    (d < 6 + P.length + 2 ∧ buildFrame t P d = .err .bufferTooSmall) ∨
      (6 + P.length + 2 ≤ d ∧
        buildFrame t P d = .ok (frameBytes t P (crc16 ((headerBytes t (BitVec.ofNat 16 P.length) ++ P).drop 2)))) := by
  unfold buildFrame
  split
  · exact .inl ⟨‹_›, rfl⟩
  · exact .inr ⟨by omega, rfl⟩

theorem typeOfCode_none {b : Byte} : typeOfCode b = none ↔ b.toNat < 1 ∨ 5 < b.toNat := by
  revert b; decide

/-- `CODEC.HDR` (R101): every way it can end. -/
theorem checkHeader_cases (S : List Byte) :
    (S.length < 4 ∧ checkHeader S = .err .insufficientData) ∨
      (4 ≤ S.length ∧ ¬ (byteAt S 0 = 0xAA ∧ byteAt S 1 = 0x55) ∧ checkHeader S = .err .invalidPrefix) ∨
      (4 ≤ S.length ∧ byteAt S 0 = 0xAA ∧ byteAt S 1 = 0x55 ∧ byteAt S 2 ≠ 0x01 ∧
        checkHeader S = .err .invalidVersion) ∨
      (4 ≤ S.length ∧ byteAt S 0 = 0xAA ∧ byteAt S 1 = 0x55 ∧ byteAt S 2 = 0x01 ∧ typeOfCode (byteAt S 3) = none ∧
        checkHeader S = .err .invalidType) ∨
      ∃ t, 4 ≤ S.length ∧ byteAt S 0 = 0xAA ∧ byteAt S 1 = 0x55 ∧ byteAt S 2 = 0x01 ∧ byteAt S 3 = typeCode t ∧
        checkHeader S = .ok t := by
  unfold checkHeader
  by_cases h0 : S.length < 4
  · exact .inl ⟨h0, by rw [if_pos h0]⟩
  have h0' : 4 ≤ S.length := by omega
  by_cases h1 : byteAt S 0 ≠ 0xAA ∨ byteAt S 1 ≠ 0x55
  · exact .inr (.inl ⟨h0', by tauto, by rw [if_neg h0, if_pos h1]⟩)
  have ha : byteAt S 0 = 0xAA := by by_contra h; exact h1 (.inl h)
  have hb : byteAt S 1 = 0x55 := by by_contra h; exact h1 (.inr h)
  by_cases h2 : byteAt S 2 ≠ 0x01
  · exact .inr (.inr (.inl ⟨h0', ha, hb, h2, by rw [if_neg h0, if_neg h1, if_pos h2]⟩))
  have hv : byteAt S 2 = 0x01 := by by_contra h; exact h2 h
  cases h3 : typeOfCode (byteAt S 3) with
  | none => exact .inr (.inr (.inr (.inl ⟨h0', ha, hb, hv, rfl, by rw [if_neg h0, if_neg h1, if_neg h2]⟩)))
  | some t =>
    exact .inr (.inr (.inr (.inr ⟨t, h0', ha, hb, hv, typeOfCode_some h3, by rw [if_neg h0, if_neg h1, if_neg h2]⟩)))

theorem checkHeader_ok {S : List Byte} {t : MessageType} (h : checkHeader S = .ok t) :
    4 ≤ S.length ∧ byteAt S 0 = 0xAA ∧ byteAt S 1 = 0x55 ∧ byteAt S 2 = 0x01 ∧ byteAt S 3 = typeCode t := by
  rcases checkHeader_cases S with ⟨_, e⟩ | ⟨_, _, e⟩ | ⟨_, _, _, _, e⟩ | ⟨_, _, _, _, _, e⟩ | ⟨t', h1, h2, h3, h4, h5, e⟩
  all_goals rw [h] at e
  all_goals cases e
  exact ⟨h1, h2, h3, h4, h5⟩

theorem checkHeader_of {S : List Byte} {t : MessageType} (h0 : 4 ≤ S.length) (h1 : byteAt S 0 = 0xAA)
    (h2 : byteAt S 1 = 0x55) (h3 : byteAt S 2 = 0x01) (h4 : byteAt S 3 = typeCode t) : checkHeader S = .ok t := by
  unfold checkHeader
  rw [if_neg (by omega), if_neg (by rw [h1, h2]; decide), if_neg (by rw [h3]; decide), h4, typeOfCode_typeCode]

/-- `CODEC.CRCOK` (R103) where the frame is all there. -/
theorem crcOk_of_present {S : List Byte} (h : 8 + (wordAt S 4).toNat ≤ S.length) :
    crcOk S = decide (crc16 (slice S 2 (6 + (wordAt S 4).toNat)) = wordAt S (6 + (wordAt S 4).toNat)) := by
  unfold crcOk
  rw [if_neg (by omega), if_neg (by omega)]

/-- What a parse that succeeds has found (R104): every check, and the value and the size it gives. -/
theorem parseFrame_ok_iff (t : MessageType) (S : List Byte) (r : FrameValue × Nat) :
    parseFrame t S = .ok r ↔
      checkHeader S = .ok t ∧ lengthAllowed t (wordAt S 4).toNat = true ∧ 8 + (wordAt S 4).toNat ≤ S.length ∧
        crcOk S = true ∧ r = (decodePayload t (slice S 6 (6 + (wordAt S 4).toNat)), 8 + (wordAt S 4).toNat) := by
  unfold parseFrame
  cases hh : checkHeader S with
  | err e => simp
  | ok found =>
    by_cases ht : found = t
    · subst ht
      simp only [ne_eq, not_true_eq_false, if_false, checkLength, true_and]
      by_cases hl : S.length < 6
      · simp only [hl, if_true]
        constructor
        · intro h; cases h
        · intro h; omega
      · simp only [hl, if_false]
        by_cases ha : lengthAllowed found (wordAt S 4).toNat = true
        · simp only [ha, Bool.not_true, Bool.false_eq_true, if_false, true_and]
          by_cases hp : S.length < 8 + (wordAt S 4).toNat
          · simp only [hp, if_true]
            constructor
            · intro h; cases h
            · intro h; omega
          · simp only [hp, if_false]
            by_cases hc : crcOk S = true
            · simp only [hc, Bool.not_true, Bool.false_eq_true, if_false, Checked.ok.injEq, true_and]
              exact ⟨fun h => ⟨by omega, h.symm⟩, fun h => h.2.symm⟩
            · simp [hc]
        · simp [ha]
    · simp [ht]

/-- A parse whose type byte is the expected one fails only in these four ways, and each says what it found. -/
theorem parseFrame_err {t : MessageType} {S : List Byte} {e : ParseError} (h : parseFrame t S = .err e)
    (hp : byteAt S 0 = 0xAA ∧ byteAt S 1 = 0x55) (ht : byteAt S 3 = typeCode t) :
    (e = .insufficientData ∧
        (S.length < 6 ∨ lengthAllowed t (wordAt S 4).toNat = true ∧ S.length < 8 + (wordAt S 4).toNat)) ∨
      (e = .invalidVersion ∧ byteAt S 2 ≠ 0x01) ∨
      (e = .invalidPayloadLength ∧ lengthAllowed t (wordAt S 4).toNat = false) ∨
      (e = .crcMismatch ∧ 8 + (wordAt S 4).toNat ≤ S.length ∧ crcOk S = false) := by
  unfold parseFrame at h
  rcases checkHeader_cases S with ⟨hl, e'⟩ | ⟨_, hn, e'⟩ | ⟨_, _, _, hv, e'⟩ | ⟨_, _, _, _, hn, e'⟩ | ⟨t', _, _, _, _, h5, e'⟩
  · rw [e'] at h; cases h; exact .inl ⟨rfl, .inl (by omega)⟩
  · exact absurd hp hn
  · rw [e'] at h; cases h; exact .inr (.inl ⟨rfl, hv⟩)
  · rw [ht, typeOfCode_typeCode] at hn; cases hn
  · rw [e'] at h
    obtain rfl : t' = t := typeCode_injective (h5.symm.trans ht)
    simp only [ne_eq, not_true_eq_false, if_false, checkLength] at h
    by_cases hl : S.length < 6
    · simp only [hl, if_true] at h; cases h; exact .inl ⟨rfl, .inl hl⟩
    · simp only [hl, if_false] at h
      by_cases ha : lengthAllowed t' (wordAt S 4).toNat = true
      · simp only [ha, Bool.not_true, Bool.false_eq_true, if_false] at h
        by_cases hq : S.length < 8 + (wordAt S 4).toNat
        · simp only [hq, if_true] at h; cases h; exact .inl ⟨rfl, .inr ⟨ha, hq⟩⟩
        · simp only [hq, if_false] at h
          by_cases hc : crcOk S = true
          · simp [hc] at h
          · simp only [hc, Bool.not_false, if_true] at h
            cases h
            exact .inr (.inr (.inr ⟨rfl, by omega, by simpa using hc⟩))
      · simp only [ha, Bool.not_false, if_true] at h
        cases h
        exact .inr (.inr (.inl ⟨rfl, by simpa using ha⟩))

/-- A length that a type allows is at most 200, so a frame is at most 208 bytes (`30_encoding.md` R61). -/
theorem lengthAllowed_le {t : MessageType} {n : Nat} (h : lengthAllowed t n = true) : 8 + n ≤ Config.maxFrame := by
  cases t <;> simp only [lengthAllowed, decide_eq_true_eq] at h <;> simp only [Config.maxFrame, Config.logMax] at * <;>
    omega

/-- The parse of a frame with a given stored CRC, whatever follows it: the value exactly where the CRC is right. -/
theorem parseFrame_frameBytes (t : MessageType) (P : List Byte) (crc : U16) (tail : List Byte)
    (ha : lengthAllowed t P.length = true) :
    parseFrame t (frameBytes t P crc ++ tail) =
      if crc16 ((headerBytes t (BitVec.ofNat 16 P.length) ++ P).drop 2) = crc then .ok (decodePayload t P, 8 + P.length)
      else .err .crcMismatch := by
  have hn : P.length < 2 ^ 16 := by have := lengthAllowed_le ha; simp [Config.maxFrame] at this; omega
  have hL : (wordAt (frameBytes t P crc ++ tail) 4).toNat = P.length := by
    rw [frame_length_field, BitVec.toNat_ofNat, Nat.mod_eq_of_lt hn]
  have hlen : (frameBytes t P crc ++ tail).length = 8 + P.length + tail.length := by
    simp only [List.length_append, frameBytes_length]; omega
  have hh : checkHeader (frameBytes t P crc ++ tail) = .ok t :=
    checkHeader_of (by omega) (frame_byte0 ..) (frame_byte1 ..) (frame_byte2 ..) (frame_byte3 ..)
  have hc : crcOk (frameBytes t P crc ++ tail) =
      decide (crc16 ((headerBytes t (BitVec.ofNat 16 P.length) ++ P).drop 2) = crc) := by
    rw [crcOk_of_present (by omega), hL, frame_covered, frame_crc]
  have hp := frame_payload t P crc tail
  generalize frameBytes t P crc ++ tail = S at hL hlen hh hc hp
  have h6 : ¬ S.length < 6 := by omega
  have h8 : ¬ S.length < 8 + P.length := by omega
  unfold parseFrame
  simp only [hh, ne_eq, not_true_eq_false, if_false, checkLength, h6, hL, ha, hc, hp, h8, Bool.not_true,
    Bool.false_eq_true]
  by_cases h : crc16 ((headerBytes t (BitVec.ofNat 16 P.length) ++ P).drop 2) = crc <;> simp [h]

end Sys2Proof.Machine
end

