-- ==== Sys2Proof/Laws/Crc.lean ====
section
/-! SUPPORT. The CRC function (`40_crc16.md` R90, R91): it is linear over exclusive or, and it folds over a byte string. -/

namespace Sys2Proof.Machine

theorem crcShift_xor (a b : U16) : crcShift (a ^^^ b) = crcShift a ^^^ crcShift b := by
  have hs : (a ^^^ b) >>> 1 = (a >>> 1) ^^^ (b >>> 1) := BitVec.ushiftRight_xor_distrib a b 1
  unfold crcShift
  rw [hs, BitVec.getLsbD_xor]
  generalize a >>> 1 = x
  generalize b >>> 1 = y
  have cancel : (x ^^^ 0xA001) ^^^ (y ^^^ 0xA001) = x ^^^ y := by
    rw [show (x ^^^ 0xA001) ^^^ (y ^^^ 0xA001) = (x ^^^ y) ^^^ (0xA001 ^^^ 0xA001) by ac_rfl, BitVec.xor_self, BitVec.xor_zero]
  cases a.getLsbD 0 <;> cases b.getLsbD 0
  · rfl
  · exact BitVec.xor_assoc x y _
  · show (x ^^^ y) ^^^ 0xA001 = (x ^^^ 0xA001) ^^^ y
    ac_rfl
  · exact cancel.symm

theorem crcShifts_xor (n : Nat) (a b : U16) : crcShifts n (a ^^^ b) = crcShifts n a ^^^ crcShifts n b := by
  induction n generalizing a b with
  | zero => rfl
  | succ n ih => simp only [crcShifts, crcShift_xor, ih]

/-- The byte step, taken apart: a state and a byte contribute separately. -/
theorem crc16Byte_split (c : U16) (b : Byte) : crc16Byte c b = crcShifts 8 c ^^^ crcShifts 8 (b.zeroExtend 16) := by
  simp only [crc16Byte, crcShifts_xor]

/-- Eight shifts of a value with no low byte only move it down. -/
theorem crcShifts_of_low_zero (h : Byte) : crcShifts 8 (h ++ (0 : Byte)) = h.zeroExtend 16 := by
  revert h; decide +kernel

/-- Eight shifts send no low byte but 0 to 0. -/
theorem crcShifts_low_eq_zero {b : Byte} : crcShifts 8 (b.zeroExtend 16) = 0 → b = 0 := by
  revert b; decide +kernel

@[simp] theorem crc16From_nil (c : U16) : crc16From c [] = c := rfl

@[simp] theorem crc16From_cons (c : U16) (b : Byte) (bs : List Byte) :
    crc16From c (b :: bs) = crc16From (crc16Byte c b) bs := rfl

theorem crc16From_append (c : U16) (as bs : List Byte) :
    crc16From c (as ++ bs) = crc16From (crc16From c as) bs := List.foldl_append ..

theorem crc16_append (as bs : List Byte) : crc16 (as ++ bs) = crc16From (crc16 as) bs := crc16From_append ..

end Sys2Proof.Machine
end

