-- ==== Sys2Proof/Laws/Decode.lean ====
section
/-! SUPPORT. One lemma per reader of a request operand: it reads back what the writer wrote and leaves what follows. -/

namespace Sys2Proof

@[simp] theorem andThen_ok {α β : Type} (v : α) (r : List Byte) (f : α → List Byte → Decoded β) :
    (Decoded.ok v r).andThen f = f v r := rfl

@[simp] theorem andThen_bad {α β : Type} (e : DecodeError) (f : α → List Byte → Decoded β) :
    (Decoded.bad e : Decoded α).andThen f = .bad e := rfl

theorem readByte_cons (b : Byte) (r : List Byte) : readByte (b :: r) = .ok b r := rfl

theorem readU16_write (v : U16) (r : List Byte) : readU16 (bytes16 v ++ r) = .ok v r := by
  simp [bytes16, readU16]

theorem readU32_write (v : U32) (r : List Byte) : readU32 (bytes32 v ++ r) = .ok v r := by
  simp [bytes32, readU32]

theorem readCount_append (bs r : List Byte) : readCount bs.length (bs ++ r) = .ok bs r := by
  simp [readCount]

theorem readBytes_write {bs : List Byte} (h : bs.length < 2 ^ 32) (r : List Byte) :
    readBytes (writeBytes bs ++ r) = .ok bs r := by
  simp only [readBytes, writeBytes, List.append_assoc, readU32_write, andThen_ok, BitVec.toNat_ofNat, Nat.mod_eq_of_lt h]
  exact readCount_append bs r

theorem readPayload_write {bs : List Byte} (h : bs.length ≤ 65535) (r : List Byte) :
    readPayload (writePayload bs ++ r) = .ok bs r := by
  simp only [readPayload, writePayload, List.append_assoc, readU16_write, andThen_ok, BitVec.toNat_ofNat]
  rw [Nat.mod_eq_of_lt (by omega)]
  exact readCount_append bs r

theorem readType_write (t : MessageType) (r : List Byte) : readType (writeType t ++ r) = .ok t r := by
  cases t <;> rfl

theorem readFlag_write (f : Bool) (r : List Byte) : readFlag (writeFlag f ++ r) = .ok f r := by
  cases f <;> rfl

theorem readSample_write (a : Option Axes) (r : List Byte) : readSample (writeSample a ++ r) = .ok a r := by
  cases a with
  | none => simp [readSample, writeSample, readFlag_write]
  | some a => simp [readSample, writeSample, readFlag_write, readU32_write]

theorem readSensors_write (w : Sensors) (r : List Byte) : readSensors (sensorBytes w ++ r) = .ok w r := by
  simp [readSensors, sensorBytes, readU16_write]

/-- A frame's header selects the row of its type; payload and CRC are read from what follows. -/
theorem decode_frameBytes (t : MessageType) (P : List Byte) (crc : U16) (r : List Byte) :
    decode (frameBytes t P crc ++ r) =
      decodeFrameBody t (BitVec.ofNat 16 P.length).toNat (P ++ (bytes16 crc ++ r)) := by
  have e : frameBytes t P crc ++ r =
      0xAA :: 0x55 :: 0x01 :: typeCode t :: lowByte (BitVec.ofNat 16 P.length) ::
        highByte (BitVec.ofNat 16 P.length) :: (P ++ (bytes16 crc ++ r)) := by
    simp [frameBytes, headerBytes, bytes16]
  rw [e, decode, if_neg (by decide)]
  simp only [decodeFrame, typeOfCode_typeCode, le16_bytes]
  rw [if_neg (by decide), if_neg (by decide)]

/-- A first byte below `0x80` is a select code. -/
theorem decode_op {b : Byte} (h : b.toNat < 0x80) (r : List Byte) : decode (b :: r) = decodeOp b r := if_pos h

end Sys2Proof
end

