-- ==== Sys2Proof/Laws/Failsafe.lean ====
section
/-! SUPPORT. FSAFE (`44_failsafe.md`): every way an update can end, field by field. -/

namespace Sys2Proof.Machine

/-- The table (R171): the next state and the time register of each row; `seeded` is never touched. -/
theorem fsTable_cases (timeout now last : U32) (active : Bool) (r : FsRegs) :
    (fsTable timeout now last active r).seeded = r.seeded ∧
      ((active = true ∧ (fsTable timeout now last active r).lastActiveMs = now ∧
          ((r.state = .active ∧ (fsTable timeout now last active r).state = .recovering) ∨
            (r.state ≠ .active ∧ (fsTable timeout now last active r).state = .inactive))) ∨
        (active = false ∧ (fsTable timeout now last active r).lastActiveMs = r.lastActiveMs ∧
          ((r.state = .inactive ∧ (elapsed now last).toNat < timeout.toNat ∧
              (fsTable timeout now last active r).state = .inactive) ∨
            ((r.state = .inactive → timeout.toNat ≤ (elapsed now last).toNat) ∧
              (fsTable timeout now last active r).state = .active)))) := by
  obtain ⟨st, l, sd⟩ := r
  cases st <;> cases active <;> simp [fsTable]
  by_cases h : timeout.toNat ≤ (elapsed now last).toNat
  · simp [h]
  · simp [h, Nat.lt_of_not_le h]

/-- After any update the failsafe is seeded. -/
theorem fsStep_seeded (p : Params) (now : U32) (active : Bool) (r : FsRegs) : (fsStep p now active r).seeded = true := by
  unfold fsStep
  split
  · rw [(fsTable_cases ..).1]; assumption
  · split
    · split <;> rfl
    · rw [(fsTable_cases ..).1]

theorem fsStep_of_seeded (p : Params) (now : U32) (active : Bool) {r : FsRegs} (h : r.seeded = true) :
    fsStep p now active r = fsTable p.fsTimeoutMs now r.lastActiveMs active r := if_pos h

/-- An update with a source does not end in Active, whatever the state before it (R171, R172). -/
theorem fsStep_active_source (p : Params) (now : U32) (r : FsRegs) : (fsStep p now true r).state ≠ .active := by
  obtain ⟨st, l, sd⟩ := r
  unfold fsStep
  cases sd
  · by_cases hb : p.tripOnBoot = true
    · simp [hb]
    · cases st <;> simp [hb, fsTable]
  · cases st <;> simp [fsTable]

/-- An update without a source ends in Active or in Inactive. -/
theorem fsStep_no_source (p : Params) (now : U32) (r : FsRegs) : (fsStep p now false r).state ≠ .recovering := by
  obtain ⟨st, l, sd⟩ := r
  unfold fsStep
  cases sd
  · by_cases hb : p.tripOnBoot = true
    · simp [hb]
    · cases st <;> simp [hb, fsTable] <;> split <;> simp
  · cases st <;> simp [fsTable] <;> split <;> simp

/-- Whether the output is forced (`10_state.md` R24). -/
theorem neutralForced_iff (b : Bool) (st : FsState) :
    neutralForced b st = true ↔ st = .active ∨ (b = true ∧ st = .recovering) := by
  cases st <;> simp [neutralForced]

end Sys2Proof.Machine
end

