-- ==== Sys2Proof/Laws/Float.lean ====
section
/-! SUPPORT. Binary32 (`Machine/Float.lean`): the bits of a packed value, rounding is monotonic and exact on binary32
values, order by key is order by value, and an exact sum that lies between two binary32 values is rounded between them. -/

namespace Sys2Proof.Machine

/-! ## Bits -/

theorem f32Mag_lt (x : F32) : f32Mag x < 2 ^ 31 := Nat.mod_lt _ (by decide)

theorem f32Neg_eq (x : F32) : f32Neg x = decide (2 ^ 31 ≤ x.toNat) := by
  simp [f32Neg, BitVec.msb_eq_decide]

theorem f32Pack_toNat (neg : Bool) {mag : Nat} (h : mag < 2 ^ 31) :
    (f32Pack neg mag).toNat = (if neg then 2 ^ 31 else 0) + mag := by
  unfold f32Pack
  rw [BitVec.toNat_ofNat, Nat.mod_eq_of_lt]
  cases neg
  · simp; omega
  · simp; omega

@[simp] theorem f32Mag_pack (neg : Bool) {mag : Nat} (h : mag < 2 ^ 31) : f32Mag (f32Pack neg mag) = mag := by
  rw [f32Mag, f32Pack_toNat neg h]
  cases neg
  · simp; omega
  · simp; omega

@[simp] theorem f32Neg_pack (neg : Bool) {mag : Nat} (h : mag < 2 ^ 31) : f32Neg (f32Pack neg mag) = neg := by
  rw [f32Neg_eq, f32Pack_toNat neg h]
  cases neg
  · simp; omega
  · simp

/-- A pattern is its sign and its magnitude. -/
theorem f32Pack_self (x : F32) : f32Pack (f32Neg x) (f32Mag x) = x := by
  apply BitVec.eq_of_toNat_eq
  have hx := x.isLt
  rw [f32Pack_toNat _ (f32Mag_lt x), f32Neg_eq, f32Mag]
  by_cases h : 2 ^ 31 ≤ x.toNat
  · rw [if_pos (by simpa using h)]; omega
  · rw [if_neg (by simpa using h)]; omega

theorem testBit_signed (neg : Bool) {mag : Nat} (h : mag < 2 ^ 31) {i : Nat} (hi : i < 32) :
    ((if neg then 2 ^ 31 else 0) + mag).testBit i = if i = 31 then neg else mag.testBit i := by
  have hm : mag.testBit 31 = false := Nat.testBit_lt_two_pow h
  cases neg
  · by_cases h31 : i = 31
    · subst h31; simpa using hm
    · simp [h31]
  · by_cases h31 : i = 31
    · subst h31
      rw [if_pos rfl, if_pos rfl, Nat.testBit_two_pow_add_eq, hm]
      rfl
    · rw [if_pos rfl, if_neg h31, Nat.testBit_two_pow_add_gt (by omega)]

theorem fneg_eq (x : F32) : fneg x = f32Pack (!f32Neg x) (f32Mag x) := by
  apply BitVec.eq_of_getLsbD_eq
  intro i hi
  have e : (f32Pack (!f32Neg x) (f32Mag x)).getLsbD i =
      ((if (!f32Neg x) = true then 2 ^ 31 else 0) + f32Mag x).testBit i := by
    rw [← f32Pack_toNat _ (f32Mag_lt x)]; rfl
  rw [e, testBit_signed _ (f32Mag_lt x) hi, fneg, BitVec.getLsbD_xor,
    show (0x80000000 : F32) = BitVec.twoPow 32 31 from rfl, BitVec.getLsbD_twoPow]
  by_cases h31 : i = 31
  · subst h31
    simp [f32Neg, BitVec.msb_eq_getLsbD_last]
  · have hi' : i < 31 := by omega
    rw [if_neg h31, f32Mag, Nat.testBit_mod_two_pow]
    simp [hi', Ne.symm h31, BitVec.getLsbD]

@[simp] theorem f32Mag_fneg (x : F32) : f32Mag (fneg x) = f32Mag x := by
  rw [fneg_eq, f32Mag_pack _ (f32Mag_lt x)]

@[simp] theorem f32Neg_fneg (x : F32) : f32Neg (fneg x) = !f32Neg x := by
  rw [fneg_eq, f32Neg_pack _ (f32Mag_lt x)]

@[simp] theorem fneg_fneg (x : F32) : fneg (fneg x) = x := by
  rw [fneg_eq (fneg x)]; simp [f32Pack_self]

@[simp] theorem f32IsNaN_fneg (x : F32) : f32IsNaN (fneg x) = f32IsNaN x := by simp [f32IsNaN]
@[simp] theorem f32IsInf_fneg (x : F32) : f32IsInf (fneg x) = f32IsInf x := by simp [f32IsInf]
@[simp] theorem f32IsFinite_fneg (x : F32) : f32IsFinite (fneg x) = f32IsFinite x := by simp [f32IsFinite]
@[simp] theorem f32Units_fneg (x : F32) : f32Units (fneg x) = f32Units x := by simp [f32Units]

@[simp] theorem f32Scaled_fneg (x : F32) : f32Scaled (fneg x) = -f32Scaled x := by
  cases h : f32Neg x <;> simp [f32Scaled, h]

@[simp] theorem f32Key_fneg (x : F32) : f32Key (fneg x) = -f32Key x := by
  cases h : f32Neg x <;> simp [f32Key, h]

/-- A pattern is NaN, infinite or finite, and only one of them. -/
theorem f32_kinds (x : F32) :
    (f32IsNaN x = true ∧ f32IsInf x = false ∧ f32IsFinite x = false) ∨
      (f32IsNaN x = false ∧ f32IsInf x = true ∧ f32IsFinite x = false) ∨
      (f32IsNaN x = false ∧ f32IsInf x = false ∧ f32IsFinite x = true) := by
  simp only [f32IsNaN, f32IsInf, f32IsFinite, decide_eq_true_eq, decide_eq_false_iff_not]
  omega

/-! ## Magnitudes and their values -/

/-- The value of a magnitude, in units of 2^-149. -/
def magUnits (m : Nat) : Nat := if m / 2 ^ 23 = 0 then m % 2 ^ 23 else (2 ^ 23 + m % 2 ^ 23) * 2 ^ (m / 2 ^ 23 - 1)

theorem f32Units_eq (x : F32) : f32Units x = magUnits (f32Mag x) := rfl

theorem magUnits_lt_succ (m : Nat) : magUnits m < magUnits (m + 1) := by
  unfold magUnits
  have h : m % 2 ^ 23 + 1 < 2 ^ 23 ∨ m % 2 ^ 23 + 1 = 2 ^ 23 := by omega
  rcases h with h | h
  · have e1 : (m + 1) / 2 ^ 23 = m / 2 ^ 23 := by omega
    have e2 : (m + 1) % 2 ^ 23 = m % 2 ^ 23 + 1 := by omega
    rw [e1, e2]
    by_cases h0 : m / 2 ^ 23 = 0
    · rw [if_pos h0, if_pos h0]; omega
    · rw [if_neg h0, if_neg h0]
      exact Nat.mul_lt_mul_of_pos_right (by omega) (by positivity)
  · have e1 : (m + 1) / 2 ^ 23 = m / 2 ^ 23 + 1 := by omega
    have e2 : (m + 1) % 2 ^ 23 = 0 := by omega
    rw [e1, e2, if_neg (Nat.succ_ne_zero _), Nat.add_sub_cancel]
    by_cases h0 : m / 2 ^ 23 = 0
    · rw [if_pos h0, h0]; omega
    · rw [if_neg h0]
      obtain ⟨e, he⟩ : ∃ e, m / 2 ^ 23 = e + 1 := ⟨m / 2 ^ 23 - 1, by omega⟩
      rw [he, Nat.add_sub_cancel]
      calc (2 ^ 23 + m % 2 ^ 23) * 2 ^ e < 2 ^ 24 * 2 ^ e := Nat.mul_lt_mul_of_pos_right (by omega) (by positivity)
        _ = (2 ^ 23 + 0) * 2 ^ (e + 1) := by rw [pow_succ]; ring

theorem magUnits_strictMono : StrictMono magUnits := strictMono_nat_of_lt_succ magUnits_lt_succ

/-! ## Rounding -/

/-- What rounding to nearest gives: within a half, and even on a tie. -/
theorem divRoundEven_spec (n : Nat) {d : Nat} (hd : 0 < d) :
    2 * n ≤ (2 * divRoundEven n d + 1) * d ∧ 2 * divRoundEven n d * d ≤ 2 * n + d ∧
      (2 * n = (2 * divRoundEven n d + 1) * d → divRoundEven n d % 2 = 0) ∧
      (2 * divRoundEven n d * d = 2 * n + d → divRoundEven n d % 2 = 0) := by
  have hn := Nat.div_add_mod n d
  have hr := Nat.mod_lt n hd
  unfold divRoundEven
  generalize n / d = q at *
  generalize n % d = r at *
  have hq : n = d * q + r := hn.symm
  subst hq
  simp only
  split
  · refine ⟨by nlinarith, by nlinarith, fun h => ?_, fun h => ?_⟩
    · exfalso; nlinarith
    · exfalso; nlinarith
  · split
    · refine ⟨by nlinarith, by nlinarith, fun h => ?_, fun h => ?_⟩
      · exfalso; nlinarith
      · exfalso; nlinarith
    · split
      · refine ⟨by nlinarith, by nlinarith, fun _ => by assumption, fun _ => by assumption⟩
      · refine ⟨by nlinarith, by nlinarith, fun h => by omega, fun _ => by omega⟩

theorem divRoundEven_mono {n d n' d' : Nat} (hd : 0 < d) (hd' : 0 < d') (h : n * d' ≤ n' * d) :
    divRoundEven n d ≤ divRoundEven n' d' := by
  by_contra hlt
  obtain ⟨_, b1, _, b2⟩ := divRoundEven_spec n hd
  obtain ⟨a1, _, a2, _⟩ := divRoundEven_spec n' hd'
  generalize divRoundEven n d = r at *
  generalize divRoundEven n' d' = r' at *
  have hle : 2 * r' + 1 ≤ 2 * r - 1 := by omega
  obtain ⟨s, rfl⟩ : ∃ s, r = s + 1 := ⟨r - 1, by omega⟩
  have c1 : 2 * n' * d ≤ (2 * r' + 1) * d' * d := Nat.mul_le_mul_right d a1
  have c2 : (2 * s + 1) * d * d' ≤ 2 * n * d' := by
    have : (2 * s + 1) * d ≤ 2 * n := by nlinarith
    exact Nat.mul_le_mul_right d' this
  have c3 : r' ≤ s := by omega
  have c4 : (2 * r' + 1) * (d' * d) ≤ (2 * s + 1) * (d' * d) := Nat.mul_le_mul_right _ (by omega)
  have hdd : 0 < d' * d := Nat.mul_pos hd' hd
  have e : r' = s := by
    by_contra hne
    have : 2 * r' + 1 < 2 * s + 1 := by omega
    have := Nat.mul_lt_mul_of_pos_right this hdd
    nlinarith
  subst e
  have t1 : 2 * n' = (2 * r' + 1) * d' := by
    apply Nat.eq_of_mul_eq_mul_right hd
    nlinarith
  have t2 : 2 * (r' + 1) * d = 2 * n + d := by
    have : 2 * n = (2 * r' + 1) * d := by
      apply Nat.eq_of_mul_eq_mul_right hd'
      nlinarith
    nlinarith
  have := a2 t1
  have := b2 t2
  omega

theorem divRoundEven_mul (n : Nat) {d : Nat} (hd : 0 < d) : divRoundEven (n * d) d = n := by
  unfold divRoundEven
  simp [Nat.mul_div_cancel n hd, hd]

/-- Rounding never passes the bits of infinity. -/
theorem roundUnits_le (n d : Nat) : roundUnits n d ≤ 0x7F800000 := Nat.min_le_right ..

theorem roundUnits_lt (n d : Nat) : roundUnits n d < 2 ^ 31 := by
  have := roundUnits_le n d; omega

/-- Rounding is monotonic (`45_slew.md` R192). -/
theorem roundUnits_mono {n d n' d' : Nat} (hd : 0 < d) (hd' : 0 < d') (h : n * d' ≤ n' * d) :
    roundUnits n d ≤ roundUnits n' d' := by
  have hq : n / d ≤ n' / d' := by
    rw [Nat.le_div_iff_mul_le hd']
    by_contra hc
    have h1 : n / d * d ≤ n := Nat.div_mul_le_self n d
    have : n' < n / d * d' := by omega
    have : n' * d < n / d * d' * d := Nat.mul_lt_mul_of_pos_right this hd
    nlinarith
  have hlog : Nat.log2 (n / d) ≤ Nat.log2 (n' / d') := by
    rw [Nat.log2_eq_log_two, Nat.log2_eq_log_two]; exact Nat.log_mono_right hq
  unfold roundUnits
  simp only
  refine min_le_min ?_ le_rfl
  generalize hk : Nat.log2 (n / d) - 23 = k
  generalize hk' : Nat.log2 (n' / d') - 23 = k'
  have hp : 0 < 2 ^ k := by positivity
  have hp' : 0 < 2 ^ k' := by positivity
  rcases Nat.eq_or_lt_of_le (show k ≤ k' by omega) with rfl | hlt
  · refine Nat.add_le_add_left (divRoundEven_mono (by positivity) (by positivity) ?_) _
    calc n * (d' * 2 ^ k) = n * d' * 2 ^ k := by ring
      _ ≤ n' * d * 2 ^ k := Nat.mul_le_mul_right _ h
      _ = n' * (d * 2 ^ k) := by ring
  · have up : divRoundEven n (d * 2 ^ k) ≤ 2 ^ 24 := by
      have hb : n / d < 2 ^ (k + 24) := by
        by_cases h0 : n / d = 0
        · rw [h0]; positivity
        · exact (Nat.log2_lt h0).1 (by omega)
      have hn : n ≤ 2 ^ (k + 24) * d := by
        have := (Nat.div_lt_iff_lt_mul hd).1 hb
        omega
      calc divRoundEven n (d * 2 ^ k) ≤ divRoundEven (2 ^ 24 * (d * 2 ^ k)) (d * 2 ^ k) := by
            refine divRoundEven_mono (by positivity) (by positivity) (Nat.mul_le_mul_right _ ?_)
            calc n ≤ 2 ^ (k + 24) * d := hn
              _ = 2 ^ 24 * (d * 2 ^ k) := by rw [pow_add]; ring
        _ = 2 ^ 24 := divRoundEven_mul _ (by positivity)
    have down : 2 ^ 23 ≤ divRoundEven n' (d' * 2 ^ k') := by
      have hne : n' / d' ≠ 0 := by
        intro h0; rw [h0] at hk'; simp at hk'; omega
      have hb : 2 ^ (k' + 23) ≤ n' / d' := by
        have := (Nat.le_log2 hne).1 (le_refl _)
        rwa [show Nat.log2 (n' / d') = k' + 23 by omega] at this
      have hn : 2 ^ (k' + 23) * d' ≤ n' := (Nat.le_div_iff_mul_le hd').1 hb
      calc 2 ^ 23 = divRoundEven (2 ^ 23 * (d' * 2 ^ k')) (d' * 2 ^ k') := (divRoundEven_mul _ (by positivity)).symm
        _ ≤ divRoundEven n' (d' * 2 ^ k') := by
          refine divRoundEven_mono (by positivity) (by positivity) (Nat.mul_le_mul_right _ ?_)
          calc 2 ^ 23 * (d' * 2 ^ k') = 2 ^ (k' + 23) * d' := by rw [pow_add]; ring
            _ ≤ n' := hn
    have : (k + 1) * 2 ^ 23 ≤ k' * 2 ^ 23 := Nat.mul_le_mul_right _ hlt
    omega

/-- A binary32 value rounds to itself (`45_slew.md` R192). -/
theorem roundUnits_magUnits {m : Nat} (h : m ≤ 0x7F800000) : roundUnits (magUnits m) 1 = m := by
  unfold roundUnits magUnits
  simp only [Nat.div_one, one_mul]
  by_cases h0 : m / 2 ^ 23 = 0
  · rw [if_pos h0]
    have hm : m % 2 ^ 23 = m := by omega
    rw [hm]
    have hk : Nat.log2 m - 23 = 0 := by
      by_cases hz : m = 0
      · subst hz; simp
      · have := (Nat.log2_lt hz).2 (show m < 2 ^ 23 by omega)
        omega
    rw [hk]
    have := divRoundEven_mul m (d := 1) one_pos
    simp only [mul_one] at this
    simp [this]
    omega
  · rw [if_neg h0]
    obtain ⟨e, he⟩ : ∃ e, m / 2 ^ 23 = e + 1 := ⟨m / 2 ^ 23 - 1, by omega⟩
    rw [he, Nat.add_sub_cancel]
    have hf : m % 2 ^ 23 < 2 ^ 23 := Nat.mod_lt _ (by decide)
    have hpos : (2 ^ 23 + m % 2 ^ 23) * 2 ^ e ≠ 0 := by positivity
    have hlog : Nat.log2 ((2 ^ 23 + m % 2 ^ 23) * 2 ^ e) = e + 23 := by
      have h1 : e + 23 ≤ Nat.log2 ((2 ^ 23 + m % 2 ^ 23) * 2 ^ e) := by
        rw [Nat.le_log2 hpos, pow_add, mul_comm]
        exact Nat.mul_le_mul_right _ (by omega)
      have h2 : Nat.log2 ((2 ^ 23 + m % 2 ^ 23) * 2 ^ e) < e + 24 := by
        rw [Nat.log2_lt hpos, pow_add, mul_comm]
        exact Nat.mul_lt_mul_of_pos_left (by omega) (by positivity)
      omega
    rw [hlog, Nat.add_sub_cancel, divRoundEven_mul _ (by positivity)]
    have : e * 2 ^ 23 + (2 ^ 23 + m % 2 ^ 23) = m := by
      have := Nat.div_add_mod m (2 ^ 23)
      rw [he] at this
      omega
    rw [this]
    omega

/-! ## Order -/

/-- On finite values the order of the keys is the order of the values. -/
theorem f32Key_le_iff {x y : F32} : f32Key x ≤ f32Key y ↔ f32Scaled x ≤ f32Scaled y := by
  have hx : magUnits 0 = 0 := by decide
  have mono : ∀ {a b : Nat}, magUnits a ≤ magUnits b ↔ a ≤ b := magUnits_strictMono.le_iff_le
  have zx : magUnits (f32Mag x) = 0 ↔ f32Mag x = 0 := by rw [← hx]; exact magUnits_strictMono.injective.eq_iff
  have zy : magUnits (f32Mag y) = 0 ↔ f32Mag y = 0 := by rw [← hx]; exact magUnits_strictMono.injective.eq_iff
  have m1 := @mono (f32Mag x) (f32Mag y)
  have m2 := @mono (f32Mag y) (f32Mag x)
  simp only [f32Key, f32Scaled, f32Units_eq]
  generalize magUnits (f32Mag x) = ux at *
  generalize magUnits (f32Mag y) = uy at *
  cases f32Neg x <;> cases f32Neg y <;> simp <;> omega

theorem f32Key_lt_iff {x y : F32} : f32Key x < f32Key y ↔ f32Scaled x < f32Scaled y := by
  rw [← not_le, ← not_le, f32Key_le_iff]

theorem f32Scaled_pack (neg : Bool) {mag : Nat} (h : mag < 2 ^ 31) :
    f32Scaled (f32Pack neg mag) = if neg then -(magUnits mag : Int) else (magUnits mag : Int) := by
  rw [f32Scaled, f32Units_eq, f32Neg_pack neg h, f32Mag_pack neg h]

/-- A finite sum is the exact sum, narrowed once. -/
theorem fadd_of_finite {a b : F32} (ha : f32IsFinite a = true) (hb : f32IsFinite b = true) :
    fadd a b =
      if f32Scaled a + f32Scaled b = 0 then f32Pack (f32Neg a && f32Neg b) 0
      else f32Pack (decide (f32Scaled a + f32Scaled b < 0)) (roundUnits (f32Scaled a + f32Scaled b).natAbs 1) := by
  rcases f32_kinds a with ⟨_, _, h⟩ | ⟨_, _, h⟩ | ⟨na, ia, _⟩
  · rw [ha] at h; cases h
  · rw [ha] at h; cases h
  rcases f32_kinds b with ⟨_, _, h⟩ | ⟨_, _, h⟩ | ⟨nb, ib, _⟩
  · rw [hb] at h; cases h
  · rw [hb] at h; cases h
  simp [fadd, na, nb, ia, ib]

/-- A finite sum is no NaN. -/
theorem f32IsNaN_fadd {a b : F32} (ha : f32IsFinite a = true) (hb : f32IsFinite b = true) :
    f32IsNaN (fadd a b) = false := by
  rw [fadd_of_finite ha hb]
  split
  · simp [f32IsNaN, f32Mag_pack]
  · simp only [f32IsNaN, f32Mag_pack _ (roundUnits_lt _ _)]
    have := roundUnits_le (f32Scaled a + f32Scaled b).natAbs 1
    simp; omega

/-- A sum with a NaN is NaN. -/
theorem fadd_nan {a b : F32} (h : f32IsNaN a = true ∨ f32IsNaN b = true) : fadd a b = f32QuietNaN := by
  rcases h with h | h <;> simp [fadd, h]

/-- The key of a finite sum is at most that of any value at or above the exact sum, infinity included. -/
theorem f32Key_fadd_le {a b y : F32} (ha : f32IsFinite a = true) (hb : f32IsFinite b = true) (hy : f32IsNaN y = false)
    (h : f32Scaled a + f32Scaled b ≤ f32Scaled y) : f32Key (fadd a b) ≤ f32Key y := by
  rw [fadd_of_finite ha hb]
  have hym : f32Mag y ≤ 0x7F800000 := by simpa [f32IsNaN] using hy
  generalize f32Scaled a + f32Scaled b = z at *
  by_cases hz : z = 0
  · rw [if_pos hz, f32Key_le_iff, f32Scaled_pack _ (by decide)]
    have : magUnits 0 = 0 := by decide
    rw [this]; simp; omega
  · rw [if_neg hz]
    simp only [f32Key, f32Mag_pack _ (roundUnits_lt _ _), f32Neg_pack _ (roundUnits_lt _ _)]
    by_cases hneg : z < 0
    · simp only [hneg, decide_true, if_true]
      by_cases hyn : f32Neg y = true
      · simp only [hyn, if_true, neg_le_neg_iff, Int.ofNat_le]
        have hu : magUnits (f32Mag y) ≤ z.natAbs := by
          rw [f32Scaled, if_pos hyn, f32Units_eq] at h; omega
        have := roundUnits_mono (n := magUnits (f32Mag y)) (d := 1) (d' := 1) one_pos one_pos (by simpa using hu)
        rwa [roundUnits_magUnits hym] at this
      · simp only [hyn]; simp
    · simp only [hneg, decide_false]
      have hyn : f32Neg y = false := by
        by_contra hc
        rw [f32Scaled, if_pos (by simpa using hc)] at h
        omega
      rw [f32Scaled, hyn, f32Units_eq] at h
      simp only [hyn, Bool.false_eq_true, if_false, Int.ofNat_le] at h ⊢
      have := roundUnits_mono (n := z.natAbs) (n' := magUnits (f32Mag y)) (d := 1) (d' := 1) one_pos one_pos
        (by simp; omega)
      rwa [roundUnits_magUnits hym] at this

theorem f32Key_fadd_fneg {a b : F32} (ha : f32IsFinite a = true) (hb : f32IsFinite b = true) :
    f32Key (fadd (fneg a) (fneg b)) = -f32Key (fadd a b) := by
  rw [fadd_of_finite ha hb, fadd_of_finite (by simpa using ha) (by simpa using hb), f32Scaled_fneg, f32Scaled_fneg,
    show -f32Scaled a + -f32Scaled b = -(f32Scaled a + f32Scaled b) by ring]
  generalize f32Scaled a + f32Scaled b = z
  by_cases hz : z = 0
  · subst hz
    simp [f32Key]
  · rw [if_neg hz, if_neg (by omega), Int.natAbs_neg]
    simp only [f32Key, f32Mag_pack _ (roundUnits_lt _ _), f32Neg_pack _ (roundUnits_lt _ _), decide_eq_true_eq]
    by_cases hn : z < 0
    · rw [if_neg (by omega), if_pos hn]; simp
    · rw [if_pos (by omega), if_neg hn]

/-- The key of a finite sum is at least that of any value at or below the exact sum, infinity included. -/
theorem f32Key_le_fadd {a b y : F32} (ha : f32IsFinite a = true) (hb : f32IsFinite b = true) (hy : f32IsNaN y = false)
    (h : f32Scaled y ≤ f32Scaled a + f32Scaled b) : f32Key y ≤ f32Key (fadd a b) := by
  have h1 := f32Key_fadd_le (a := fneg a) (b := fneg b) (y := fneg y) (by simpa using ha) (by simpa using hb)
    (by simpa using hy) (by simp only [f32Scaled_fneg]; omega)
  rw [f32Key_fadd_fneg ha hb, f32Key_fneg] at h1
  omega

/-! ## The limiter's two ends -/

/-- Every comparison with a NaN is false (`00_scope.md` R9). -/
theorem flt_nan {a b : F32} (h : f32IsNaN a = true ∨ f32IsNaN b = true) : flt a b = false := by
  rcases h with h | h <;> simp [flt, h]

theorem flt_iff {a b : F32} : flt a b = true ↔ f32IsNaN a = false ∧ f32IsNaN b = false ∧ f32Key a < f32Key b := by
  simp [flt, and_assoc]

/-- One step (`45_slew.md` R190): every way it can end. -/
theorem slewBy_cases (target current m : F32) :
    (fgt (fsub target current) m = true ∧ slewBy target current m = fadd current m) ∨
      (fgt (fsub target current) m = false ∧ flt (fsub target current) (fneg m) = true ∧
        slewBy target current m = fsub current m) ∨
      (fgt (fsub target current) m = false ∧ flt (fsub target current) (fneg m) = false ∧
        slewBy target current m = target) := by
  unfold slewBy
  cases fgt (fsub target current) m <;> cases flt (fsub target current) (fneg m) <;> simp

end Sys2Proof.Machine
end

