-- ==== Sys2Proof/Laws/Live.lean ====
section
/-! SUPPORT. LIVE (`43_liveness_arbitration.md`): when a source is live, what arbitration selects, what a take gives. -/

namespace Sys2Proof.Machine

/-- Network liveness (R154): a command has arrived, and less than the timeout ago. -/
theorem netLive_iff (timeout now last : U32) :
    netLive timeout now last = true ↔ last ≠ 0 ∧ (now - last).toNat < timeout.toNat := by
  rw [netLive, Bool.and_eq_true]
  exact and_congr decide_eq_true_iff decide_eq_true_iff

theorem netLive_zero (timeout now : U32) : netLive timeout now 0 = false := rfl

/-- Arbitration (R155): every way it can end. -/
theorem arbitrate_cases (timeout now : U32) (r : LiveRegs) :
    (r.radioLive = true ∧ arbitrate timeout now r = some (r.radioThr, r.radioSteer)) ∨
      (r.radioLive = false ∧ netLive timeout now r.netLastCmdMs = true ∧
        arbitrate timeout now r = some (r.netThr, r.netSteer)) ∨
      (r.radioLive = false ∧ netLive timeout now r.netLastCmdMs = false ∧ arbitrate timeout now r = none) := by
  unfold arbitrate liveness
  cases r.radioLive <;> cases netLive timeout now r.netLastCmdMs <;> simp

theorem slotTaken_full {r : LiveRegs} (h : r.slotFull = true) : (slotTaken r).2 = some (r.slotThr, r.slotSteer) := by
  simp [slotTaken, h]

theorem slotTaken_empty {r : LiveRegs} (h : r.slotFull = false) : (slotTaken r).2 = none := by
  simp [slotTaken, h]

@[simp] theorem slotTaken_slotFull (r : LiveRegs) : (slotTaken r).1.slotFull = false := rfl
@[simp] theorem slotTaken_slotThr (r : LiveRegs) : (slotTaken r).1.slotThr = r.slotThr := rfl
@[simp] theorem slotTaken_slotSteer (r : LiveRegs) : (slotTaken r).1.slotSteer = r.slotSteer := rfl
@[simp] theorem slotTaken_radioLive (r : LiveRegs) : (slotTaken r).1.radioLive = r.radioLive := rfl
@[simp] theorem slotTaken_radioThr (r : LiveRegs) : (slotTaken r).1.radioThr = r.radioThr := rfl
@[simp] theorem slotTaken_radioSteer (r : LiveRegs) : (slotTaken r).1.radioSteer = r.radioSteer := rfl
@[simp] theorem slotTaken_netLastCmdMs (r : LiveRegs) : (slotTaken r).1.netLastCmdMs = r.netLastCmdMs := rfl
@[simp] theorem slotTaken_netThr (r : LiveRegs) : (slotTaken r).1.netThr = r.netThr := rfl
@[simp] theorem slotTaken_netSteer (r : LiveRegs) : (slotTaken r).1.netSteer = r.netSteer := rfl

@[simp] theorem radioSampled_slotFull (a : Option Axes) (r : LiveRegs) : (radioSampled a r).slotFull = r.slotFull := by
  cases a <;> rfl
@[simp] theorem radioSampled_slotThr (a : Option Axes) (r : LiveRegs) : (radioSampled a r).slotThr = r.slotThr := by
  cases a <;> rfl
@[simp] theorem radioSampled_slotSteer (a : Option Axes) (r : LiveRegs) : (radioSampled a r).slotSteer = r.slotSteer := by
  cases a <;> rfl
@[simp] theorem radioSampled_netLastCmdMs (a : Option Axes) (r : LiveRegs) :
    (radioSampled a r).netLastCmdMs = r.netLastCmdMs := by cases a <;> rfl
@[simp] theorem radioSampled_netThr (a : Option Axes) (r : LiveRegs) : (radioSampled a r).netThr = r.netThr := by
  cases a <;> rfl
@[simp] theorem radioSampled_netSteer (a : Option Axes) (r : LiveRegs) : (radioSampled a r).netSteer = r.netSteer := by
  cases a <;> rfl
@[simp] theorem radioSampled_radioLive (a : Option Axes) (r : LiveRegs) : (radioSampled a r).radioLive = a.isSome := by
  cases a <;> rfl

end Sys2Proof.Machine
end

