-- ==== Sys2Proof/Laws/State.lean ====
section
/-! SUPPORT. One lemma per field per update of the state, each true by `rfl`. -/

namespace Sys2Proof.Machine

variable (s : State)

@[simp] theorem setRx_params (v : RxBuf) : (s.setRx v).params = s.params := rfl
@[simp] theorem setRx_rx (v : RxBuf) : (s.setRx v).rx = v := rfl
@[simp] theorem setRx_crcAcc (v : RxBuf) : (s.setRx v).crcAcc = s.crcAcc := rfl
@[simp] theorem setRx_live (v : RxBuf) : (s.setRx v).live = s.live := rfl
@[simp] theorem setRx_fs (v : RxBuf) : (s.setRx v).fs = s.fs := rfl
@[simp] theorem setRx_sched (v : RxBuf) : (s.setRx v).sched = s.sched := rfl
@[simp] theorem setRx_ports (v : RxBuf) : (s.setRx v).ports = s.ports := rfl
@[simp] theorem setRx_result (v : RxBuf) : (s.setRx v).result = s.result := rfl
@[simp] theorem setRx_requests (v : RxBuf) : (s.setRx v).requests = s.requests := rfl
@[simp] theorem setRx_freeCount (v : RxBuf) : (s.setRx v).freeCount = s.freeCount := rfl
@[simp] theorem setRx_setRx (v w : RxBuf) : (s.setRx v).setRx w = s.setRx w := rfl
@[simp] theorem setRx_same : s.setRx s.rx = s := rfl

@[simp] theorem setCrcAcc_params (v : U16) : (s.setCrcAcc v).params = s.params := rfl
@[simp] theorem setCrcAcc_rx (v : U16) : (s.setCrcAcc v).rx = s.rx := rfl
@[simp] theorem setCrcAcc_crcAcc (v : U16) : (s.setCrcAcc v).crcAcc = v := rfl
@[simp] theorem setCrcAcc_live (v : U16) : (s.setCrcAcc v).live = s.live := rfl
@[simp] theorem setCrcAcc_fs (v : U16) : (s.setCrcAcc v).fs = s.fs := rfl
@[simp] theorem setCrcAcc_sched (v : U16) : (s.setCrcAcc v).sched = s.sched := rfl
@[simp] theorem setCrcAcc_ports (v : U16) : (s.setCrcAcc v).ports = s.ports := rfl
@[simp] theorem setCrcAcc_result (v : U16) : (s.setCrcAcc v).result = s.result := rfl
@[simp] theorem setCrcAcc_requests (v : U16) : (s.setCrcAcc v).requests = s.requests := rfl
@[simp] theorem setCrcAcc_freeCount (v : U16) : (s.setCrcAcc v).freeCount = s.freeCount := rfl
@[simp] theorem setCrcAcc_setCrcAcc (v w : U16) : (s.setCrcAcc v).setCrcAcc w = s.setCrcAcc w := rfl
@[simp] theorem setCrcAcc_same : s.setCrcAcc s.crcAcc = s := rfl

@[simp] theorem setLive_params (v : LiveRegs) : (s.setLive v).params = s.params := rfl
@[simp] theorem setLive_rx (v : LiveRegs) : (s.setLive v).rx = s.rx := rfl
@[simp] theorem setLive_crcAcc (v : LiveRegs) : (s.setLive v).crcAcc = s.crcAcc := rfl
@[simp] theorem setLive_live (v : LiveRegs) : (s.setLive v).live = v := rfl
@[simp] theorem setLive_fs (v : LiveRegs) : (s.setLive v).fs = s.fs := rfl
@[simp] theorem setLive_sched (v : LiveRegs) : (s.setLive v).sched = s.sched := rfl
@[simp] theorem setLive_ports (v : LiveRegs) : (s.setLive v).ports = s.ports := rfl
@[simp] theorem setLive_result (v : LiveRegs) : (s.setLive v).result = s.result := rfl
@[simp] theorem setLive_requests (v : LiveRegs) : (s.setLive v).requests = s.requests := rfl
@[simp] theorem setLive_freeCount (v : LiveRegs) : (s.setLive v).freeCount = s.freeCount := rfl
@[simp] theorem setLive_setLive (v w : LiveRegs) : (s.setLive v).setLive w = s.setLive w := rfl
@[simp] theorem setLive_same : s.setLive s.live = s := rfl

@[simp] theorem setFs_params (v : FsRegs) : (s.setFs v).params = s.params := rfl
@[simp] theorem setFs_rx (v : FsRegs) : (s.setFs v).rx = s.rx := rfl
@[simp] theorem setFs_crcAcc (v : FsRegs) : (s.setFs v).crcAcc = s.crcAcc := rfl
@[simp] theorem setFs_live (v : FsRegs) : (s.setFs v).live = s.live := rfl
@[simp] theorem setFs_fs (v : FsRegs) : (s.setFs v).fs = v := rfl
@[simp] theorem setFs_sched (v : FsRegs) : (s.setFs v).sched = s.sched := rfl
@[simp] theorem setFs_ports (v : FsRegs) : (s.setFs v).ports = s.ports := rfl
@[simp] theorem setFs_result (v : FsRegs) : (s.setFs v).result = s.result := rfl
@[simp] theorem setFs_requests (v : FsRegs) : (s.setFs v).requests = s.requests := rfl
@[simp] theorem setFs_freeCount (v : FsRegs) : (s.setFs v).freeCount = s.freeCount := rfl
@[simp] theorem setFs_setFs (v w : FsRegs) : (s.setFs v).setFs w = s.setFs w := rfl
@[simp] theorem setFs_same : s.setFs s.fs = s := rfl

@[simp] theorem setSched_params (v : SchedRegs) : (s.setSched v).params = s.params := rfl
@[simp] theorem setSched_rx (v : SchedRegs) : (s.setSched v).rx = s.rx := rfl
@[simp] theorem setSched_crcAcc (v : SchedRegs) : (s.setSched v).crcAcc = s.crcAcc := rfl
@[simp] theorem setSched_live (v : SchedRegs) : (s.setSched v).live = s.live := rfl
@[simp] theorem setSched_fs (v : SchedRegs) : (s.setSched v).fs = s.fs := rfl
@[simp] theorem setSched_sched (v : SchedRegs) : (s.setSched v).sched = v := rfl
@[simp] theorem setSched_ports (v : SchedRegs) : (s.setSched v).ports = s.ports := rfl
@[simp] theorem setSched_result (v : SchedRegs) : (s.setSched v).result = s.result := rfl
@[simp] theorem setSched_requests (v : SchedRegs) : (s.setSched v).requests = s.requests := rfl
@[simp] theorem setSched_freeCount (v : SchedRegs) : (s.setSched v).freeCount = s.freeCount := rfl
@[simp] theorem setSched_setSched (v w : SchedRegs) : (s.setSched v).setSched w = s.setSched w := rfl
@[simp] theorem setSched_same : s.setSched s.sched = s := rfl

@[simp] theorem setPorts_params (v : Ports) : (s.setPorts v).params = s.params := rfl
@[simp] theorem setPorts_rx (v : Ports) : (s.setPorts v).rx = s.rx := rfl
@[simp] theorem setPorts_crcAcc (v : Ports) : (s.setPorts v).crcAcc = s.crcAcc := rfl
@[simp] theorem setPorts_live (v : Ports) : (s.setPorts v).live = s.live := rfl
@[simp] theorem setPorts_fs (v : Ports) : (s.setPorts v).fs = s.fs := rfl
@[simp] theorem setPorts_sched (v : Ports) : (s.setPorts v).sched = s.sched := rfl
@[simp] theorem setPorts_ports (v : Ports) : (s.setPorts v).ports = v := rfl
@[simp] theorem setPorts_result (v : Ports) : (s.setPorts v).result = s.result := rfl
@[simp] theorem setPorts_requests (v : Ports) : (s.setPorts v).requests = s.requests := rfl
@[simp] theorem setPorts_freeCount (v : Ports) : (s.setPorts v).freeCount = s.freeCount := rfl
@[simp] theorem setPorts_setPorts (v w : Ports) : (s.setPorts v).setPorts w = s.setPorts w := rfl
@[simp] theorem setPorts_same : s.setPorts s.ports = s := rfl

@[simp] theorem setResult_params (v : OpResult) : (s.setResult v).params = s.params := rfl
@[simp] theorem setResult_rx (v : OpResult) : (s.setResult v).rx = s.rx := rfl
@[simp] theorem setResult_crcAcc (v : OpResult) : (s.setResult v).crcAcc = s.crcAcc := rfl
@[simp] theorem setResult_live (v : OpResult) : (s.setResult v).live = s.live := rfl
@[simp] theorem setResult_fs (v : OpResult) : (s.setResult v).fs = s.fs := rfl
@[simp] theorem setResult_sched (v : OpResult) : (s.setResult v).sched = s.sched := rfl
@[simp] theorem setResult_ports (v : OpResult) : (s.setResult v).ports = s.ports := rfl
@[simp] theorem setResult_result (v : OpResult) : (s.setResult v).result = v := rfl
@[simp] theorem setResult_requests (v : OpResult) : (s.setResult v).requests = s.requests := rfl
@[simp] theorem setResult_freeCount (v : OpResult) : (s.setResult v).freeCount = s.freeCount := rfl
@[simp] theorem setResult_setResult (v w : OpResult) : (s.setResult v).setResult w = s.setResult w := rfl
@[simp] theorem setResult_same : s.setResult s.result = s := rfl

@[simp] theorem setRequests_params (v : List (List Byte)) : (s.setRequests v).params = s.params := rfl
@[simp] theorem setRequests_rx (v : List (List Byte)) : (s.setRequests v).rx = s.rx := rfl
@[simp] theorem setRequests_crcAcc (v : List (List Byte)) : (s.setRequests v).crcAcc = s.crcAcc := rfl
@[simp] theorem setRequests_live (v : List (List Byte)) : (s.setRequests v).live = s.live := rfl
@[simp] theorem setRequests_fs (v : List (List Byte)) : (s.setRequests v).fs = s.fs := rfl
@[simp] theorem setRequests_sched (v : List (List Byte)) : (s.setRequests v).sched = s.sched := rfl
@[simp] theorem setRequests_ports (v : List (List Byte)) : (s.setRequests v).ports = s.ports := rfl
@[simp] theorem setRequests_result (v : List (List Byte)) : (s.setRequests v).result = s.result := rfl
@[simp] theorem setRequests_requests (v : List (List Byte)) : (s.setRequests v).requests = v := rfl
@[simp] theorem setRequests_freeCount (v : List (List Byte)) : (s.setRequests v).freeCount = s.freeCount := rfl
@[simp] theorem setRequests_setRequests (v w : List (List Byte)) : (s.setRequests v).setRequests w = s.setRequests w := rfl
@[simp] theorem setRequests_same : s.setRequests s.requests = s := rfl

@[simp] theorem useFree_params : s.useFree.params = s.params := rfl
@[simp] theorem useFree_rx : s.useFree.rx = s.rx := rfl
@[simp] theorem useFree_crcAcc : s.useFree.crcAcc = s.crcAcc := rfl
@[simp] theorem useFree_live : s.useFree.live = s.live := rfl
@[simp] theorem useFree_fs : s.useFree.fs = s.fs := rfl
@[simp] theorem useFree_sched : s.useFree.sched = s.sched := rfl
@[simp] theorem useFree_ports : s.useFree.ports = s.ports := rfl
@[simp] theorem useFree_result : s.useFree.result = s.result := rfl
@[simp] theorem useFree_requests : s.useFree.requests = s.requests := rfl
@[simp] theorem useFree_freeCount : s.useFree.freeCount = s.freeCount + 1 := rfl

theorem State.ext_units {s t : State} (h0 : s.params = t.params) (h1 : s.rx = t.rx) (h2 : s.crcAcc = t.crcAcc)
    (h3 : s.live = t.live) (h4 : s.fs = t.fs) (h5 : s.sched = t.sched) (h6 : s.ports = t.ports)
    (h7 : s.result = t.result) (h8 : s.requests = t.requests) (h9 : s.freeCount = t.freeCount) : s = t := by
  cases s; cases t; simp_all

/-! The shared operations, field by field. -/

@[simp] theorem forceNeutral_params (now : U32) : (forceNeutral now s).params = s.params := rfl
@[simp] theorem forceNeutral_rx (now : U32) : (forceNeutral now s).rx = s.rx := rfl
@[simp] theorem forceNeutral_crcAcc (now : U32) : (forceNeutral now s).crcAcc = s.crcAcc := rfl
@[simp] theorem forceNeutral_live (now : U32) : (forceNeutral now s).live = s.live := rfl
@[simp] theorem forceNeutral_fs (now : U32) : (forceNeutral now s).fs = s.fs := rfl
@[simp] theorem forceNeutral_result (now : U32) : (forceNeutral now s).result = s.result := rfl
@[simp] theorem forceNeutral_requests (now : U32) : (forceNeutral now s).requests = s.requests := rfl
@[simp] theorem forceNeutral_freeCount (now : U32) : (forceNeutral now s).freeCount = s.freeCount := rfl
@[simp] theorem forceNeutral_sched (now : U32) : (forceNeutral now s).sched =
    { s.sched with cmdThr := f32Zero, cmdSteer := f32Zero, appliedThr := f32Zero, appliedSteer := f32Zero, actLastMs := now } := rfl
@[simp] theorem forceNeutral_ports (now : U32) : (forceNeutral now s).ports = { s.ports with actNeutral := true } := rfl

/-- `answer` gives a next state that differs in the result port alone. -/
theorem answer_eq (r : OpResult) : answer s r = .next (s.setResult r) := rfl

theorem answer_next {r : OpResult} {t : State} (h : answer s r = .next t) : t = s.setResult r := by
  cases h; rfl

@[simp] theorem offerRequest_params (r : List Byte) : (offerRequest r s).params = s.params := rfl
@[simp] theorem offerRequest_rx (r : List Byte) : (offerRequest r s).rx = s.rx := rfl
@[simp] theorem offerRequest_crcAcc (r : List Byte) : (offerRequest r s).crcAcc = s.crcAcc := rfl
@[simp] theorem offerRequest_live (r : List Byte) : (offerRequest r s).live = s.live := rfl
@[simp] theorem offerRequest_fs (r : List Byte) : (offerRequest r s).fs = s.fs := rfl
@[simp] theorem offerRequest_sched (r : List Byte) : (offerRequest r s).sched = s.sched := rfl
@[simp] theorem offerRequest_ports (r : List Byte) : (offerRequest r s).ports = s.ports := rfl
@[simp] theorem offerRequest_result (r : List Byte) : (offerRequest r s).result = s.result := rfl
@[simp] theorem offerRequest_requests (r : List Byte) : (offerRequest r s).requests = r :: s.requests := rfl
@[simp] theorem offerRequest_freeCount (r : List Byte) : (offerRequest r s).freeCount = s.freeCount := rfl

end Sys2Proof.Machine
end

