-- ==== Sys2Proof/Laws/Memory.lean ====
section
/-! SUPPORT. The receive buffer's store: reading after writing, the canonical form, and what the shift and the append do to
the content. Later proofs cite these and unfold no store operation. -/

namespace Sys2Proof.Machine

/-! ## Canonical form -/

theorem wfFrom_mono {m : Memory} {lo lo' : Nat} (h : memoryWfFrom lo m = true) (hl : lo' ≤ lo) :
    memoryWfFrom lo' m = true := by
  cases m with
  | nil => rfl
  | cons c rest =>
    simp only [memoryWfFrom, Bool.and_eq_true, decide_eq_true_eq] at h ⊢
    exact ⟨⟨by omega, h.1.2⟩, h.2⟩

theorem readCell_below {m : Memory} {lo o : Nat} (h : memoryWfFrom lo m = true) (ho : o < lo) :
    readCell m o = unlistedByte := by
  induction m generalizing lo with
  | nil => rfl
  | cons c rest ih =>
    simp only [memoryWfFrom, Bool.and_eq_true, decide_eq_true_eq] at h
    rw [readCell, if_neg (by omega)]
    exact ih h.2 (by omega)

theorem writeCell_wfFrom {m : Memory} {lo o : Nat} (b : Byte) (h : memoryWfFrom lo m = true) (ho : lo ≤ o) :
    memoryWfFrom lo (writeCell m o b) = true := by
  induction m generalizing lo with
  | nil =>
    by_cases hb : b = unlistedByte
    · simp [writeCell, hb, memoryWfFrom]
    · simp only [writeCell, hb, if_false, memoryWfFrom, Bool.and_eq_true, decide_eq_true_eq]
      exact ⟨⟨ho, hb⟩, trivial⟩
  | cons c rest ih =>
    simp only [memoryWfFrom, Bool.and_eq_true, decide_eq_true_eq] at h
    obtain ⟨⟨h1, h2⟩, h3⟩ := h
    unfold writeCell
    split
    · rename_i hlt
      simp only [memoryWfFrom, Bool.and_eq_true, decide_eq_true_eq]
      exact ⟨⟨h1, h2⟩, ih h3 (by omega)⟩
    · split
      · rename_i heq
        split
        · exact wfFrom_mono h3 (by omega)
        · rename_i hb
          simp only [memoryWfFrom, Bool.and_eq_true, decide_eq_true_eq]
          exact ⟨⟨ho, hb⟩, heq ▸ h3⟩
      · split
        · simp only [memoryWfFrom, Bool.and_eq_true, decide_eq_true_eq]
          exact ⟨⟨h1, h2⟩, h3⟩
        · rename_i hb
          simp only [memoryWfFrom, Bool.and_eq_true, decide_eq_true_eq]
          exact ⟨⟨ho, hb⟩, ⟨by omega, h2⟩, h3⟩

/-- A read after a write gives the written byte at its offset and the old byte at every other. -/
theorem readCell_writeCell_from {m : Memory} {lo : Nat} (o a : Nat) (b : Byte) (h : memoryWfFrom lo m = true) :
    readCell (writeCell m o b) a = if a = o then b else readCell m a := by
  induction m generalizing lo with
  | nil =>
    by_cases hb : b = unlistedByte
    · by_cases ha : a = o <;> simp [writeCell, hb, readCell, ha]
    · by_cases ha : a = o
      · simp [writeCell, hb, readCell, ha]
      · simp [writeCell, hb, readCell, ha, Ne.symm ha]
  | cons c rest ih =>
    simp only [memoryWfFrom, Bool.and_eq_true, decide_eq_true_eq] at h
    obtain ⟨⟨h1, h2⟩, h3⟩ := h
    unfold writeCell
    split
    · rename_i hlt
      by_cases hca : c.1 = a
      · simp [readCell, hca, show a ≠ o by omega]
      · simp [readCell, hca, ih h3]
    · split
      · rename_i heq
        split
        · rename_i hb
          by_cases ha : a = o
          · subst ha
            rw [if_pos rfl, readCell_below h3 (by omega), hb]
          · rw [if_neg ha, readCell, if_neg (by omega)]
        · by_cases ha : a = o
          · simp [readCell, ha]
          · simp [readCell, ha, Ne.symm ha, show c.1 ≠ a by omega]
      · split
        · rename_i hb
          by_cases ha : a = o
          · subst ha
            rw [if_pos rfl, readCell, if_neg (by omega), readCell_below h3 (by omega), hb]
          · rw [if_neg ha]
        · by_cases ha : a = o
          · simp [readCell, ha]
          · simp [readCell, ha, Ne.symm ha]

theorem readCell_writeCell {m : Memory} (o a : Nat) (b : Byte) (h : m.wf = true) :
    readCell (writeCell m o b) a = if a = o then b else readCell m a :=
  readCell_writeCell_from o a b h

theorem writeCell_wf {m : Memory} (o : Nat) (b : Byte) (h : m.wf = true) : (writeCell m o b).wf = true :=
  writeCell_wfFrom b h (Nat.zero_le o)

theorem writeRun_wf {m : Memory} (o : Nat) (bs : List Byte) (h : m.wf = true) : (writeRun m o bs).wf = true := by
  induction bs generalizing m o with
  | nil => exact h
  | cons b bs ih => exact ih (o + 1) (writeCell_wf o b h)

/-- A read after a run of writes. -/
theorem readCell_writeRun {m : Memory} (o a : Nat) (bs : List Byte) (h : m.wf = true) :
    readCell (writeRun m o bs) a = if o ≤ a ∧ a < o + bs.length then bs.getD (a - o) 0 else readCell m a := by
  induction bs generalizing m o with
  | nil => simp [writeRun]
  | cons b bs ih =>
    rw [writeRun, ih (o + 1) (writeCell_wf o b h), readCell_writeCell o a b h]
    by_cases ha : a = o
    · subst ha; simp
    · by_cases hr : o + 1 ≤ a ∧ a < o + 1 + bs.length
      · rw [if_pos hr, if_pos ⟨by omega, by simp only [List.length_cons]; omega⟩]
        obtain ⟨d, hd⟩ : ∃ d, a - o = d + 1 := ⟨a - o - 1, by omega⟩
        rw [hd, show a - (o + 1) = d by omega]; rfl
      · rw [if_neg hr, if_neg ha, if_neg (by simp only [List.length_cons]; omega)]

/-- Two stores in canonical form that read the same everywhere are the same data. -/
theorem memory_ext_from {m n : Memory} {lo : Nat} (hm : memoryWfFrom lo m = true) (hn : memoryWfFrom lo n = true)
    (h : ∀ a, readCell m a = readCell n a) : m = n := by
  induction m generalizing n lo with
  | nil =>
    cases n with
    | nil => rfl
    | cons d _ =>
      simp only [memoryWfFrom, Bool.and_eq_true, decide_eq_true_eq] at hn
      have := h d.1
      simp only [readCell, if_true] at this
      exact absurd this.symm hn.1.2
  | cons c rest ih =>
    simp only [memoryWfFrom, Bool.and_eq_true, decide_eq_true_eq] at hm
    cases n with
    | nil =>
      have := h c.1
      simp only [readCell, if_true] at this
      exact absurd this hm.1.2
    | cons d rest' =>
      simp only [memoryWfFrom, Bool.and_eq_true, decide_eq_true_eq] at hn
      have hc := h c.1
      have hd := h d.1
      simp only [readCell, if_true] at hc hd
      have e1 : c.1 = d.1 := by
        rcases Nat.lt_trichotomy c.1 d.1 with hlt | heq | hgt
        · rw [if_neg (by omega), readCell_below hn.2 (by omega)] at hc
          exact absurd hc hm.1.2
        · exact heq
        · rw [if_neg (by omega), readCell_below hm.2 (by omega)] at hd
          exact absurd hd.symm hn.1.2
      have e2 : c.2 = d.2 := by rw [if_pos e1.symm] at hc; exact hc
      have e : c = d := Prod.ext e1 e2
      subst e
      congr 1
      refine ih hm.2 hn.2 fun a => ?_
      by_cases ha : a < c.1 + 1
      · rw [readCell_below hm.2 ha, readCell_below hn.2 ha]
      · have := h a
        rwa [readCell, if_neg (by omega), readCell, if_neg (by omega)] at this

theorem memory_ext {m n : Memory} (hm : m.wf = true) (hn : n.wf = true) (h : ∀ a, readCell m a = readCell n a) : m = n :=
  memory_ext_from hm hn h

/-! ## Nothing listed at or above a bound -/

theorem writeCell_below {m : Memory} {n o : Nat} (b : Byte) (h : ∀ c ∈ m, c.1 < n) (ho : o < n) :
    ∀ c ∈ writeCell m o b, c.1 < n := by
  induction m with
  | nil =>
    intro c hc
    unfold writeCell at hc
    split at hc
    · simp at hc
    · simp only [List.mem_singleton] at hc; subst hc; exact ho
  | cons d rest ih =>
    have hr : ∀ c ∈ rest, c.1 < n := fun c hc => h c (List.mem_cons_of_mem _ hc)
    have hd : d.1 < n := h d (List.mem_cons_self ..)
    intro c hc
    unfold writeCell at hc
    split at hc
    · rcases List.mem_cons.1 hc with rfl | hc
      · exact hd
      · exact ih hr c hc
    · split at hc
      · split at hc
        · exact hr c hc
        · rcases List.mem_cons.1 hc with rfl | hc
          · exact ho
          · exact hr c hc
      · split at hc
        · exact h c hc
        · rcases List.mem_cons.1 hc with rfl | hc
          · exact ho
          · exact h c hc

theorem writeRun_below {m : Memory} {n o : Nat} (bs : List Byte) (h : ∀ c ∈ m, c.1 < n) (ho : o + bs.length ≤ n) :
    ∀ c ∈ writeRun m o bs, c.1 < n := by
  induction bs generalizing m o with
  | nil => exact h
  | cons b bs ih =>
    simp only [List.length_cons] at ho
    exact ih (writeCell_below b h (by omega)) (by omega)

/-! ## The content -/

@[simp] theorem content_length (rx : RxBuf) : rx.content.length = rx.cur := by simp [RxBuf.content]

theorem content_getD (rx : RxBuf) {o : Nat} (h : o < rx.cur) : rx.content.getD o 0 = readCell rx.mem o := by
  simp [RxBuf.content, h]

theorem getD_ext {a b : List Byte} (hl : a.length = b.length) (h : ∀ i, i < a.length → a.getD i 0 = b.getD i 0) :
    a = b := by
  refine List.ext_getElem hl fun i h1 h2 => ?_
  have := h i h1
  simpa [h1, h2] using this

/-- `RxShift(k)` drops the front `k` bytes of the content. -/
theorem rxShift_content (k : Nat) (rx : RxBuf) : (rxShift k rx).content = rx.content.drop k := by
  apply getD_ext
  · simp [rxShift]
  · intro i hi
    rw [content_length] at hi
    rw [content_getD _ hi]
    simp only [rxShift] at hi ⊢
    rw [readCell_writeRun 0 i _ rfl, if_pos ⟨by omega, by simp only [List.length_drop, content_length]; omega⟩]
    rfl

@[simp] theorem rxShift_cur (k : Nat) (rx : RxBuf) : (rxShift k rx).cur = rx.cur - k := rfl

theorem rxAppend_taken (cap : Nat) (bytes : List Byte) (rx : RxBuf) :
    (rxAppend cap bytes rx).2 = min bytes.length (cap - rx.cur) := rfl

@[simp] theorem rxAppend_cur (cap : Nat) (bytes : List Byte) (rx : RxBuf) :
    (rxAppend cap bytes rx).1.cur = rx.cur + min bytes.length (cap - rx.cur) := rfl

/-- `RX.PUSH` appends the bytes that fit to the content. -/
theorem rxAppend_content (cap : Nat) (bytes : List Byte) {rx : RxBuf} (h : rx.mem.wf = true) :
    (rxAppend cap bytes rx).1.content = rx.content ++ bytes.take (min bytes.length (cap - rx.cur)) := by
  apply getD_ext
  · simp
  · intro i hi
    rw [content_length] at hi
    rw [content_getD _ hi]
    simp only [rxAppend] at hi ⊢
    have hlen : (bytes.take (min bytes.length (cap - rx.cur))).length = min bytes.length (cap - rx.cur) := by
      simp
    rw [readCell_writeRun _ _ _ h, hlen]
    by_cases hi' : i < rx.cur
    · rw [if_neg (by omega), ← content_getD _ hi', List.getD_append _ _ _ _ (by simpa using hi')]
    · rw [if_pos ⟨by omega, by omega⟩, List.getD_append_right _ _ _ _ (by simp; omega), content_length]

/-- Below the old cursor `RX.PUSH` leaves every byte. -/
theorem rxAppend_read_old (cap : Nat) (bytes : List Byte) {rx : RxBuf} {o : Nat} (h : rx.mem.wf = true) (ho : o < rx.cur) :
    readCell (rxAppend cap bytes rx).1.mem o = readCell rx.mem o := by
  simp only [rxAppend]
  rw [readCell_writeRun _ _ _ h, if_neg (by omega)]

/-! ## The invariant -/

theorem RxBuf.inv_iff (cap : Nat) (rx : RxBuf) :
    rx.inv cap = true ↔ rx.mem.wf = true ∧ (∀ c ∈ rx.mem, c.1 < rx.cur) ∧ rx.cur ≤ cap := by
  simp [RxBuf.inv, and_assoc]

theorem rxShift_inv {cap : Nat} (k : Nat) {rx : RxBuf} (h : rx.inv cap = true) : (rxShift k rx).inv cap = true := by
  rw [RxBuf.inv_iff] at h ⊢
  refine ⟨writeRun_wf 0 _ rfl, ?_, by simp only [rxShift_cur]; omega⟩
  refine writeRun_below (m := []) _ (fun c hc => absurd hc (List.not_mem_nil)) ?_
  simp

theorem rxAppend_inv {cap : Nat} (bytes : List Byte) {rx : RxBuf} (h : rx.inv cap = true) :
    (rxAppend cap bytes rx).1.inv cap = true := by
  rw [RxBuf.inv_iff] at h ⊢
  obtain ⟨h1, h2, h3⟩ := h
  refine ⟨writeRun_wf _ _ h1, ?_, by simp only [rxAppend_cur]; omega⟩
  refine writeRun_below _ (fun c hc => ?_) ?_
  · have := h2 c hc; simp only [rxAppend]; omega
  · simp [rxAppend]

/-- Two buffers that keep the invariant and hold the same content are the same data. -/
theorem rxBuf_ext {cap : Nat} {a b : RxBuf} (ha : a.inv cap = true) (hb : b.inv cap = true)
    (h : a.content = b.content) : a = b := by
  have hc : a.cur = b.cur := by rw [← content_length a, h, content_length]
  rw [RxBuf.inv_iff] at ha hb
  have hm : a.mem = b.mem := by
    refine memory_ext ha.1 hb.1 fun o => ?_
    have above : ∀ {r : RxBuf}, (∀ c ∈ r.mem, c.1 < r.cur) → ¬ o < r.cur → readCell r.mem o = unlistedByte := by
      intro r hr ho
      generalize r.mem = m at hr
      induction m with
      | nil => rfl
      | cons c rest ih =>
        have := hr c (List.mem_cons_self ..)
        rw [readCell, if_neg (by omega)]
        exact ih fun d hd => hr d (List.mem_cons_of_mem _ hd)
    by_cases ho : o < a.cur
    · rw [← content_getD a ho, h, content_getD b (hc ▸ ho)]
    · rw [above ha.2.1 ho, above hb.2.1 (hc ▸ ho)]
  cases a; cases b; simp_all

end Sys2Proof.Machine
end

