-- ==== Sys2Proof/Laws/PerInstr.lean ====
section
/-! SUPPORT. The family `FrontBytes`, stated and proved constructor by constructor: an instruction's encoding begins with
the bytes its row of `spec/opcode_table.json` fixes. -/

namespace Sys2Proof.Laws

/-- The fixed bytes of each row: a wire row's header as far as its mask is 1 (`30_encoding.md` R79), an operation row's
select code (R77). -/
def tableFront : Instr → List Byte
  | .frameCommand _ _ _ _ _ => [0xAA, 0x55, 0x01, 0x01, 0x07, 0x00]
  | .frameTelemetry _ _ _ _ => [0xAA, 0x55, 0x01, 0x02, 0x0F, 0x00]
  | .framePing _ => [0xAA, 0x55, 0x01, 0x03, 0x00, 0x00]
  | .framePong _ => [0xAA, 0x55, 0x01, 0x04, 0x00, 0x00]
  | .frameLog _ _ => [0xAA, 0x55, 0x01, 0x05]
  | .crcInit => [0x00]
  | .crcByte _ => [0x01]
  | .crcRange _ => [0x02]
  | .codecBuild _ _ _ => [0x10]
  | .codecHdr _ => [0x11]
  | .codecLen _ => [0x12]
  | .codecCrcok _ => [0x13]
  | .codecParseCmd _ => [0x14]
  | .codecParseTlm _ => [0x15]
  | .codecParsePing _ => [0x16]
  | .codecParsePong _ => [0x17]
  | .codecParseLog _ => [0x18]
  | .codecEncCmd _ _ _ => [0x19]
  | .codecEncTlm _ _ _ => [0x1A]
  | .codecEncLog _ => [0x1B]
  | .rxPush _ => [0x20]
  | .rxExtract _ => [0x21]
  | .radioPoll _ => [0x30]
  | .netSubmit _ _ => [0x31]
  | .netTake => [0x32]
  | .netCmd _ _ _ => [0x33]
  | .liveEval _ => [0x34]
  | .arbSelect _ => [0x35]
  | .fsUpdate _ _ => [0x40]
  | .fsReset => [0x41]
  | .slewStep _ _ _ _ => [0x50]
  | .tick _ _ _ _ _ => [0x60]

def FrontBytes.Statement (i : Instr) : Prop := (encode i).take (tableFront i).length = tableFront i

namespace FrontBytes

theorem frameCommand (seq : U16) (thr steer : I16) (r : Byte) (crc : U16) :
    Statement (.frameCommand seq thr steer r crc) := by
  simp only [Statement, encode, frameBytes, commandPayload_length, tableFront]
  exact List.take_left' (l₁ := headerBytes .command 7) rfl
theorem frameTelemetry (seq : U16) (st : Byte) (w : Sensors) (crc : U16) :
    Statement (.frameTelemetry seq st w crc) := by
  simp only [Statement, encode, frameBytes, telemetryPayload_length, tableFront]
  exact List.take_left' (l₁ := headerBytes .telemetry 15) rfl
theorem framePing (crc : U16) : Statement (.framePing crc) := rfl
theorem framePong (crc : U16) : Statement (.framePong crc) := rfl
theorem frameLog (text : List Byte) (crc : U16) : Statement (.frameLog text crc) := rfl
theorem crcInit : Statement .crcInit := rfl
theorem crcByte (b : Byte) : Statement (.crcByte b) := rfl
theorem crcRange (bs : List Byte) : Statement (.crcRange bs) := rfl
theorem codecBuild (t : MessageType) (p : List Byte) (d : Nat) : Statement (.codecBuild t p d) := rfl
theorem codecHdr (bs : List Byte) : Statement (.codecHdr bs) := rfl
theorem codecLen (bs : List Byte) : Statement (.codecLen bs) := rfl
theorem codecCrcok (bs : List Byte) : Statement (.codecCrcok bs) := rfl
theorem codecParseCmd (bs : List Byte) : Statement (.codecParseCmd bs) := rfl
theorem codecParseTlm (bs : List Byte) : Statement (.codecParseTlm bs) := rfl
theorem codecParsePing (bs : List Byte) : Statement (.codecParsePing bs) := rfl
theorem codecParsePong (bs : List Byte) : Statement (.codecParsePong bs) := rfl
theorem codecParseLog (bs : List Byte) : Statement (.codecParseLog bs) := rfl
theorem codecEncCmd (seq : U16) (a b : F32) : Statement (.codecEncCmd seq a b) := rfl
theorem codecEncTlm (seq : U16) (st : Byte) (w : Sensors) : Statement (.codecEncTlm seq st w) := rfl
theorem codecEncLog (bs : List Byte) : Statement (.codecEncLog bs) := rfl
theorem rxPush (bs : List Byte) : Statement (.rxPush bs) := rfl
theorem rxExtract (t : MessageType) : Statement (.rxExtract t) := rfl
theorem radioPoll (a : Option Axes) : Statement (.radioPoll a) := rfl
theorem netSubmit (a b : F32) : Statement (.netSubmit a b) := rfl
theorem netTake : Statement .netTake := rfl
theorem netCmd (a b : F32) (now : U32) : Statement (.netCmd a b now) := rfl
theorem liveEval (now : U32) : Statement (.liveEval now) := rfl
theorem arbSelect (now : U32) : Statement (.arbSelect now) := rfl
theorem fsUpdate (now : U32) (a : Bool) : Statement (.fsUpdate now a) := rfl
theorem fsReset : Statement .fsReset := rfl
theorem slewStep (a b c : F32) (d : U32) : Statement (.slewStep a b c d) := rfl
theorem tick (now : U32) (bs : List Byte) (a : Option Axes) (w : Sensors) (e : Bool) : Statement (.tick now bs a w e) := rfl

end FrontBytes

end Sys2Proof.Laws
end

