-- ==== Sys2Proof/Laws/Rx.lean ====
section
/-! SUPPORT. RXBUF (`42_receive_buffer.md` R131 to R139): what the scan finds, every way an extraction can end, and that it
keeps the buffer's invariant. -/

namespace Sys2Proof.Machine

/-- `AA 55` stands at an offset of a byte string. -/
def PrefixAt (S : List Byte) (i : Nat) : Prop := i + 1 < S.length ∧ byteAt S i = 0xAA ∧ byteAt S (i + 1) = 0x55

theorem prefixAt_cons (b : Byte) (S : List Byte) (i : Nat) : PrefixAt (b :: S) (i + 1) ↔ PrefixAt S i := by
  simp [PrefixAt, byteAt]

/-- The scan (R132) fails exactly where there is no prefix, and otherwise finds the lowest one. -/
theorem findPrefix_cases (S : List Byte) :
    (findPrefix S = none ∧ ∀ i, ¬ PrefixAt S i) ∨
      ∃ i, findPrefix S = some i ∧ PrefixAt S i ∧ ∀ j, j < i → ¬ PrefixAt S j := by
  induction S with
  | nil => exact .inl ⟨rfl, fun i h => by simp [PrefixAt] at h⟩
  | cons b0 S ih =>
    cases S with
    | nil => exact .inl ⟨rfl, fun i h => by simp [PrefixAt] at h⟩
    | cons b1 rest =>
      by_cases h : b0 = 0xAA ∧ b1 = 0x55
      · refine .inr ⟨0, by rw [findPrefix, if_pos h], ⟨by simp, h.1, h.2⟩, fun j hj => by omega⟩
      · have h0 : ¬ PrefixAt (b0 :: b1 :: rest) 0 := fun hp => h ⟨hp.2.1, hp.2.2⟩
        rcases ih with ⟨hn, ha⟩ | ⟨i, hs, hp, hl⟩
        · refine .inl ⟨by rw [findPrefix, if_neg h, hn]; rfl, fun i => ?_⟩
          cases i with
          | zero => exact h0
          | succ i => rw [prefixAt_cons]; exact ha i
        · refine .inr ⟨i + 1, by rw [findPrefix, if_neg h, hs]; rfl, (prefixAt_cons ..).2 hp, fun j hj => ?_⟩
          cases j with
          | zero => exact h0
          | succ j => rw [prefixAt_cons]; exact hl j (by omega)

theorem findPrefix_none {S : List Byte} (h : findPrefix S = none) : ∀ i, ¬ PrefixAt S i := by
  rcases findPrefix_cases S with ⟨_, ha⟩ | ⟨i, hs, _⟩
  · exact ha
  · rw [h] at hs; cases hs

theorem findPrefix_some {S : List Byte} {i : Nat} (h : findPrefix S = some i) :
    PrefixAt S i ∧ ∀ j, j < i → ¬ PrefixAt S j := by
  rcases findPrefix_cases S with ⟨hn, _⟩ | ⟨i', hs, hp, hl⟩
  · rw [h] at hn; cases hn
  · rw [h] at hs; cases hs; exact ⟨hp, hl⟩

/-- The prefix in front is what the scan finds. -/
theorem findPrefix_front {S : List Byte} (h : PrefixAt S 0) : findPrefix S = some 0 := by
  rcases findPrefix_cases S with ⟨_, ha⟩ | ⟨i, hs, _, hl⟩
  · exact absurd h (ha 0)
  · cases i with
    | zero => exact hs
    | succ i => exact absurd h (hl 0 (by omega))

theorem byteAt_content (rx : RxBuf) {o : Nat} (h : o < rx.cur) : byteAt rx.content o = readCell rx.mem o :=
  content_getD rx h

theorem byteAt_drop (S : List Byte) (k o : Nat) : byteAt (S.drop k) o = byteAt S (k + o) := by
  simp [byteAt, List.getElem?_drop]

/-- States 2 to 4 (R133 to R137): every way the attempt can end and the buffer it leaves. -/
theorem rxAttempt_cases (p : Params) (t : MessageType) (rx : RxBuf) :
    (rx.cur < 4 ∧ rxAttempt p t rx = (rx, .noFrame .headerPending)) ∨
      (4 ≤ rx.cur ∧ byteAt rx.content 3 ≠ typeCode t ∧ rxAttempt p t rx = (rx, .noFrame .typeMismatch)) ∨
      (∃ v n, 4 ≤ rx.cur ∧ byteAt rx.content 3 = typeCode t ∧ parseFrame t rx.content = .ok (v, n) ∧
        rxAttempt p t rx = (rxShift n rx, .frame v)) ∨
      (4 ≤ rx.cur ∧ byteAt rx.content 3 = typeCode t ∧ parseFrame t rx.content = .err .insufficientData ∧
        p.skipOnInsufficient = false ∧ rxAttempt p t rx = (rx, .noFrame .partialFrame)) ∨
      (∃ e, 4 ≤ rx.cur ∧ byteAt rx.content 3 = typeCode t ∧ parseFrame t rx.content = .err e ∧
        (e ≠ .insufficientData ∨ p.skipOnInsufficient = true) ∧
        rxAttempt p t rx = (rxShift 1 rx, .noFrame (.rejected e))) := by
  unfold rxAttempt
  by_cases h4 : rx.cur < 4
  · exact .inl ⟨h4, by rw [if_pos h4]⟩
  have h4' : 4 ≤ rx.cur := by omega
  rw [← byteAt_content rx (by omega : 3 < rx.cur)]
  by_cases ht : byteAt rx.content 3 ≠ typeCode t
  · exact .inr (.inl ⟨h4', ht, by rw [if_neg h4, if_pos ht]⟩)
  have ht' : byteAt rx.content 3 = typeCode t := by by_contra h; exact ht h
  rw [if_neg h4, if_neg ht]
  cases hp : parseFrame t rx.content with
  | ok r => exact .inr (.inr (.inl ⟨r.1, r.2, h4', ht', rfl, rfl⟩))
  | err e =>
    by_cases hc : e = .insufficientData ∧ p.skipOnInsufficient = false
    · exact .inr (.inr (.inr (.inl ⟨h4', ht', by rw [hc.1], hc.2, if_pos hc⟩)))
    · refine .inr (.inr (.inr (.inr ⟨e, h4', ht', rfl, ?_, if_neg hc⟩)))
      cases hs : p.skipOnInsufficient
      · exact .inl fun he => hc ⟨he, hs⟩
      · exact .inr rfl

/-- `RX.EXTRACT` (R131): a failed scan, or an attempt on the content from the lowest prefix on. -/
theorem rxTryExtract_cases (p : Params) (t : MessageType) (rx : RxBuf) :
    ((∀ i, ¬ PrefixAt rx.content i) ∧
        (rx.cur = p.cap ∧ rxTryExtract p t rx = (rxShift rx.cur rx, .noFrame .reset) ∨
          rx.cur ≠ p.cap ∧ rxTryExtract p t rx = (rx, .noFrame .noPrefix))) ∨
      ∃ i rx', PrefixAt rx.content i ∧ (∀ j, j < i → ¬ PrefixAt rx.content j) ∧ (i = 0 → rx' = rx) ∧
        (i ≠ 0 → rx' = rxShift i rx) ∧ rx'.content = rx.content.drop i ∧ rx'.cur = rx.cur - i ∧
        rxTryExtract p t rx = rxAttempt p t rx' := by
  unfold rxTryExtract
  rcases findPrefix_cases rx.content with ⟨hn, ha⟩ | ⟨i, hs, hp, hl⟩
  · refine .inl ⟨ha, ?_⟩
    rw [hn]
    by_cases hc : rx.cur = p.cap
    · exact .inl ⟨hc, if_pos hc⟩
    · exact .inr ⟨hc, if_neg hc⟩
  · rw [hs]
    by_cases hi : i = 0
    · subst hi
      exact .inr ⟨0, rx, hp, hl, fun _ => rfl, fun h => absurd rfl h, by simp, by simp, by simp⟩
    · exact .inr ⟨i, rxShift i rx, hp, hl, fun h => absurd h hi, fun _ => rfl, rxShift_content i rx, rfl,
        by simp only [gt_iff_lt, Nat.pos_of_ne_zero hi, if_true]⟩

theorem rxAttempt_inv {cap : Nat} (p : Params) (t : MessageType) {rx : RxBuf} (h : rx.inv cap = true) :
    (rxAttempt p t rx).1.inv cap = true := by
  rcases rxAttempt_cases p t rx with ⟨_, e⟩ | ⟨_, _, e⟩ | ⟨_, _, _, _, _, e⟩ | ⟨_, _, _, _, e⟩ | ⟨_, _, _, _, _, e⟩
  all_goals rw [e]
  all_goals first | exact h | exact rxShift_inv _ h

theorem rxTryExtract_inv {cap : Nat} (p : Params) (t : MessageType) {rx : RxBuf} (h : rx.inv cap = true) :
    (rxTryExtract p t rx).1.inv cap = true := by
  rcases rxTryExtract_cases p t rx with ⟨_, ⟨_, e⟩ | ⟨_, e⟩⟩ | ⟨i, rx', _, _, h0, h1, _, _, e⟩
  · rw [e]; exact rxShift_inv _ h
  · rw [e]; exact h
  · rw [e]
    by_cases hi : i = 0
    · rw [h0 hi]; exact rxAttempt_inv p t h
    · rw [h1 hi]; exact rxAttempt_inv p t (rxShift_inv _ h)

/-! ## Only the content is read (`20_memory.md` R54) -/

/-- An attempt depends on the content alone. -/
theorem rxAttempt_of_content (p : Params) (t : MessageType) {a b : RxBuf} (h : a.content = b.content) :
    (rxAttempt p t a).2 = (rxAttempt p t b).2 ∧ (rxAttempt p t a).1.content = (rxAttempt p t b).1.content := by
  have hc : a.cur = b.cur := by rw [← content_length a, h, content_length]
  unfold rxAttempt
  by_cases h4 : a.cur < 4
  · rw [if_pos h4, if_pos (show b.cur < 4 by omega)]
    exact ⟨rfl, h⟩
  have h3 : readCell a.mem 3 = readCell b.mem 3 := by
    rw [← byteAt_content a (by omega), ← byteAt_content b (by omega), h]
  rw [if_neg h4, if_neg (show ¬ b.cur < 4 by omega), h3, h]
  split
  · exact ⟨rfl, h⟩
  · split
    · exact ⟨rfl, by simp only [rxShift_content, h]⟩
    · split
      · exact ⟨rfl, h⟩
      · exact ⟨rfl, by simp only [rxShift_content, h]⟩

/-- `RX.EXTRACT` depends on the content alone: two buffers that differ only at or above the cursor give the same result and
are left with the same content. -/
theorem rxTryExtract_of_content (p : Params) (t : MessageType) {a b : RxBuf} (h : a.content = b.content) :
    (rxTryExtract p t a).2 = (rxTryExtract p t b).2 ∧
      (rxTryExtract p t a).1.content = (rxTryExtract p t b).1.content := by
  have hc : a.cur = b.cur := by rw [← content_length a, h, content_length]
  unfold rxTryExtract
  rw [h, hc]
  split
  · split
    · exact ⟨rfl, by simp only [rxShift_content, h]⟩
    · exact ⟨rfl, h⟩
  · split
    · exact rxAttempt_of_content p t (by simp only [rxShift_content, h])
    · exact rxAttempt_of_content p t h

/-- Where another type's frame stands in front, `RX.EXTRACT` changes nothing (R134). -/
theorem rxTryExtract_mismatch (p : Params) (t : MessageType) {rx : RxBuf} (h4 : 4 ≤ rx.cur)
    (h0 : byteAt rx.content 0 = 0xAA) (h1 : byteAt rx.content 1 = 0x55) (h3 : byteAt rx.content 3 ≠ typeCode t) :
    rxTryExtract p t rx = (rx, .noFrame .typeMismatch) := by
  unfold rxTryExtract
  rw [findPrefix_front ⟨by simp only [content_length]; omega, h0, h1⟩]
  simp only [gt_iff_lt, lt_irrefl, if_false]
  rw [rxAttempt, if_neg (by omega), if_pos (by rwa [← byteAt_content rx (by omega)])]

end Sys2Proof.Machine
end

