-- ==== Sys2Proof/Laws/Sched.lean ====
section
/-! SUPPORT. SCHED (`46_scheduler.md`): which fields each phase of `TICK` leaves, what it writes into the others, and where
each field of the state after a tick comes from. -/

namespace Sys2Proof.Machine

variable (s : State)

/-! ## What each phase leaves -/

@[simp] theorem tickPump_params (bytes : List Byte) : (tickPump bytes s).params = s.params := rfl
@[simp] theorem tickPump_crcAcc (bytes : List Byte) : (tickPump bytes s).crcAcc = s.crcAcc := rfl
@[simp] theorem tickPump_live (bytes : List Byte) : (tickPump bytes s).live = s.live := rfl
@[simp] theorem tickPump_fs (bytes : List Byte) : (tickPump bytes s).fs = s.fs := rfl
@[simp] theorem tickPump_sched (bytes : List Byte) : (tickPump bytes s).sched = s.sched := rfl
@[simp] theorem tickPump_result (bytes : List Byte) : (tickPump bytes s).result = s.result := rfl
@[simp] theorem tickPump_requests (bytes : List Byte) : (tickPump bytes s).requests = s.requests := rfl
@[simp] theorem tickPump_freeCount (bytes : List Byte) : (tickPump bytes s).freeCount = s.freeCount := rfl

@[simp] theorem tickParse_params : (tickParse s).params = s.params := rfl
@[simp] theorem tickParse_crcAcc : (tickParse s).crcAcc = s.crcAcc := rfl
@[simp] theorem tickParse_live : (tickParse s).live = s.live := rfl
@[simp] theorem tickParse_fs : (tickParse s).fs = s.fs := rfl
@[simp] theorem tickParse_sched : (tickParse s).sched = s.sched := rfl
@[simp] theorem tickParse_result : (tickParse s).result = s.result := rfl
@[simp] theorem tickParse_requests : (tickParse s).requests = s.requests := rfl
@[simp] theorem tickParse_freeCount : (tickParse s).freeCount = s.freeCount := rfl

@[simp] theorem tickRadio_params (first : Bool) (now : U32) (a : Option Axes) : (tickRadio first now a s).params = s.params := by
  unfold tickRadio; repeat' split
  all_goals rfl
@[simp] theorem tickRadio_rx (first : Bool) (now : U32) (a : Option Axes) : (tickRadio first now a s).rx = s.rx := by
  unfold tickRadio; repeat' split
  all_goals rfl
@[simp] theorem tickRadio_crcAcc (first : Bool) (now : U32) (a : Option Axes) : (tickRadio first now a s).crcAcc = s.crcAcc := by
  unfold tickRadio; repeat' split
  all_goals rfl
@[simp] theorem tickRadio_fs (first : Bool) (now : U32) (a : Option Axes) : (tickRadio first now a s).fs = s.fs := by
  unfold tickRadio; repeat' split
  all_goals rfl
@[simp] theorem tickRadio_result (first : Bool) (now : U32) (a : Option Axes) : (tickRadio first now a s).result = s.result := by
  unfold tickRadio; repeat' split
  all_goals rfl
@[simp] theorem tickRadio_requests (first : Bool) (now : U32) (a : Option Axes) : (tickRadio first now a s).requests = s.requests := by
  unfold tickRadio; repeat' split
  all_goals rfl
@[simp] theorem tickRadio_freeCount (first : Bool) (now : U32) (a : Option Axes) : (tickRadio first now a s).freeCount = s.freeCount := by
  unfold tickRadio; repeat' split
  all_goals rfl

@[simp] theorem tickNetwork_params (now : U32) : (tickNetwork now s).params = s.params := rfl
@[simp] theorem tickNetwork_rx (now : U32) : (tickNetwork now s).rx = s.rx := rfl
@[simp] theorem tickNetwork_crcAcc (now : U32) : (tickNetwork now s).crcAcc = s.crcAcc := rfl
@[simp] theorem tickNetwork_fs (now : U32) : (tickNetwork now s).fs = s.fs := rfl
@[simp] theorem tickNetwork_sched (now : U32) : (tickNetwork now s).sched = s.sched := rfl
@[simp] theorem tickNetwork_ports (now : U32) : (tickNetwork now s).ports = s.ports := rfl
@[simp] theorem tickNetwork_result (now : U32) : (tickNetwork now s).result = s.result := rfl
@[simp] theorem tickNetwork_requests (now : U32) : (tickNetwork now s).requests = s.requests := rfl
@[simp] theorem tickNetwork_freeCount (now : U32) : (tickNetwork now s).freeCount = s.freeCount := rfl

@[simp] theorem tickArbitrate_params (now : U32) : (tickArbitrate now s).params = s.params := by
  unfold tickArbitrate; repeat' split
  all_goals rfl
@[simp] theorem tickArbitrate_rx (now : U32) : (tickArbitrate now s).rx = s.rx := by
  unfold tickArbitrate; repeat' split
  all_goals rfl
@[simp] theorem tickArbitrate_crcAcc (now : U32) : (tickArbitrate now s).crcAcc = s.crcAcc := by
  unfold tickArbitrate; repeat' split
  all_goals rfl
@[simp] theorem tickArbitrate_live (now : U32) : (tickArbitrate now s).live = s.live := by
  unfold tickArbitrate; repeat' split
  all_goals rfl
@[simp] theorem tickArbitrate_fs (now : U32) : (tickArbitrate now s).fs = s.fs := by
  unfold tickArbitrate; repeat' split
  all_goals rfl
@[simp] theorem tickArbitrate_ports (now : U32) : (tickArbitrate now s).ports = s.ports := by
  unfold tickArbitrate; repeat' split
  all_goals rfl
@[simp] theorem tickArbitrate_result (now : U32) : (tickArbitrate now s).result = s.result := by
  unfold tickArbitrate; repeat' split
  all_goals rfl
@[simp] theorem tickArbitrate_requests (now : U32) : (tickArbitrate now s).requests = s.requests := by
  unfold tickArbitrate; repeat' split
  all_goals rfl
@[simp] theorem tickArbitrate_freeCount (now : U32) : (tickArbitrate now s).freeCount = s.freeCount := by
  unfold tickArbitrate; repeat' split
  all_goals rfl

@[simp] theorem tickFailsafe_params (now : U32) : (tickFailsafe now s).params = s.params := rfl
@[simp] theorem tickFailsafe_rx (now : U32) : (tickFailsafe now s).rx = s.rx := rfl
@[simp] theorem tickFailsafe_crcAcc (now : U32) : (tickFailsafe now s).crcAcc = s.crcAcc := rfl
@[simp] theorem tickFailsafe_live (now : U32) : (tickFailsafe now s).live = s.live := rfl
@[simp] theorem tickFailsafe_sched (now : U32) : (tickFailsafe now s).sched = s.sched := rfl
@[simp] theorem tickFailsafe_ports (now : U32) : (tickFailsafe now s).ports = s.ports := rfl
@[simp] theorem tickFailsafe_result (now : U32) : (tickFailsafe now s).result = s.result := rfl
@[simp] theorem tickFailsafe_requests (now : U32) : (tickFailsafe now s).requests = s.requests := rfl
@[simp] theorem tickFailsafe_freeCount (now : U32) : (tickFailsafe now s).freeCount = s.freeCount := rfl

@[simp] theorem actuate_params (first : Bool) (now : U32) : (actuate first now s).params = s.params := by simp [actuate]
@[simp] theorem actuate_rx (first : Bool) (now : U32) : (actuate first now s).rx = s.rx := by simp [actuate]
@[simp] theorem actuate_crcAcc (first : Bool) (now : U32) : (actuate first now s).crcAcc = s.crcAcc := by simp [actuate]
@[simp] theorem actuate_live (first : Bool) (now : U32) : (actuate first now s).live = s.live := by simp [actuate]
@[simp] theorem actuate_fs (first : Bool) (now : U32) : (actuate first now s).fs = s.fs := by simp [actuate]
@[simp] theorem actuate_result (first : Bool) (now : U32) : (actuate first now s).result = s.result := by simp [actuate]
@[simp] theorem actuate_requests (first : Bool) (now : U32) : (actuate first now s).requests = s.requests := by simp [actuate]
@[simp] theorem actuate_freeCount (first : Bool) (now : U32) : (actuate first now s).freeCount = s.freeCount := by simp [actuate]

@[simp] theorem tickActuate_params (first : Bool) (now : U32) : (tickActuate first now s).params = s.params := by
  unfold tickActuate; repeat' split
  all_goals rfl
@[simp] theorem tickActuate_rx (first : Bool) (now : U32) : (tickActuate first now s).rx = s.rx := by
  unfold tickActuate; repeat' split
  all_goals rfl
@[simp] theorem tickActuate_crcAcc (first : Bool) (now : U32) : (tickActuate first now s).crcAcc = s.crcAcc := by
  unfold tickActuate; repeat' split
  all_goals rfl
@[simp] theorem tickActuate_live (first : Bool) (now : U32) : (tickActuate first now s).live = s.live := by
  unfold tickActuate; repeat' split
  all_goals rfl
@[simp] theorem tickActuate_fs (first : Bool) (now : U32) : (tickActuate first now s).fs = s.fs := by
  unfold tickActuate; repeat' split
  all_goals rfl
@[simp] theorem tickActuate_result (first : Bool) (now : U32) : (tickActuate first now s).result = s.result := by
  unfold tickActuate; repeat' split
  all_goals rfl
@[simp] theorem tickActuate_requests (first : Bool) (now : U32) : (tickActuate first now s).requests = s.requests := by
  unfold tickActuate; repeat' split
  all_goals rfl
@[simp] theorem tickActuate_freeCount (first : Bool) (now : U32) : (tickActuate first now s).freeCount = s.freeCount := by
  unfold tickActuate; repeat' split
  all_goals rfl

@[simp] theorem tickTelemetry_params (first : Bool) (now : U32) (w : Sensors) : (tickTelemetry first now w s).params = s.params := by
  unfold tickTelemetry; repeat' split
  all_goals rfl
@[simp] theorem tickTelemetry_rx (first : Bool) (now : U32) (w : Sensors) : (tickTelemetry first now w s).rx = s.rx := by
  unfold tickTelemetry; repeat' split
  all_goals rfl
@[simp] theorem tickTelemetry_crcAcc (first : Bool) (now : U32) (w : Sensors) : (tickTelemetry first now w s).crcAcc = s.crcAcc := by
  unfold tickTelemetry; repeat' split
  all_goals rfl
@[simp] theorem tickTelemetry_live (first : Bool) (now : U32) (w : Sensors) : (tickTelemetry first now w s).live = s.live := by
  unfold tickTelemetry; repeat' split
  all_goals rfl
@[simp] theorem tickTelemetry_fs (first : Bool) (now : U32) (w : Sensors) : (tickTelemetry first now w s).fs = s.fs := by
  unfold tickTelemetry; repeat' split
  all_goals rfl
@[simp] theorem tickTelemetry_result (first : Bool) (now : U32) (w : Sensors) : (tickTelemetry first now w s).result = s.result := by
  unfold tickTelemetry; repeat' split
  all_goals rfl
@[simp] theorem tickTelemetry_requests (first : Bool) (now : U32) (w : Sensors) : (tickTelemetry first now w s).requests = s.requests := by
  unfold tickTelemetry; repeat' split
  all_goals rfl
@[simp] theorem tickTelemetry_freeCount (first : Bool) (now : U32) (w : Sensors) : (tickTelemetry first now w s).freeCount = s.freeCount := by
  unfold tickTelemetry; repeat' split
  all_goals rfl

/-! ## What each phase writes -/

theorem tickPump_rx (bytes : List Byte) : (tickPump bytes s).rx = (rxAppend s.params.cap bytes s.rx).1 := rfl

theorem tickPump_ports (bytes : List Byte) : (tickPump bytes s).ports =
    { s.ports with rxTaken := (rxAppend s.params.cap bytes s.rx).2 } := rfl

theorem tickParse_rx : (tickParse s).rx = (extractTypes s.params s.params.expectedTypes s.rx).1 := rfl

theorem tickParse_ports : (tickParse s).ports =
    { s.ports with frameOut := (extractTypes s.params s.params.expectedTypes s.rx).2 } := rfl

theorem extractTypes_inv {cap : Nat} (p : Params) (ts : List MessageType) {rx : RxBuf} (h : rx.inv cap = true) :
    (extractTypes p ts rx).1.inv cap = true := by
  induction ts generalizing rx with
  | nil => exact h
  | cons t ts ih =>
    have := ih (rxTryExtract_inv p t h)
    simp only [extractTypes]
    split <;> exact this

/-- Phase 2 depends on the content alone. -/
theorem extractTypes_of_content (p : Params) (ts : List MessageType) {x y : RxBuf} (h : x.content = y.content) :
    (extractTypes p ts x).2 = (extractTypes p ts y).2 ∧ (extractTypes p ts x).1.content = (extractTypes p ts y).1.content := by
  induction ts generalizing x y with
  | nil => exact ⟨rfl, h⟩
  | cons t ts ih =>
    obtain ⟨hr, hc⟩ := rxTryExtract_of_content p t h
    obtain ⟨i1, i2⟩ := ih hc
    simp only [extractTypes]
    rw [hr]
    split
    · exact ⟨congrArg (_ :: ·) i1, i2⟩
    · exact ⟨i1, i2⟩

/-- A gate is open on the first tick, and afterwards once the interval has elapsed (R208). -/
theorem gateOpen_iff (first : Bool) (now last interval : U32) :
    gateOpen first now last interval = true ↔ first = true ∨ interval.toNat ≤ (now - last).toNat := by
  rw [gateOpen, Bool.or_eq_true]
  exact or_congr Iff.rfl decide_eq_true_iff

/-- The radio poll of phase 3 (R203): behind an open gate it samples and stamps, behind a closed one it does nothing. -/
theorem tickRadio_cases (first : Bool) (now : U32) (a : Option Axes) :
    (gateOpen first now s.sched.rcLastMs s.params.rcPollIntervalMs = true ∧
        (tickRadio first now a s).live = radioSampled a s.live ∧
        (tickRadio first now a s).sched = { s.sched with rcLastMs := now } ∧
        (tickRadio first now a s).ports = { s.ports with radioPoll := true }) ∨
      (gateOpen first now s.sched.rcLastMs s.params.rcPollIntervalMs = false ∧ tickRadio first now a s = s) := by
  unfold tickRadio
  by_cases h : gateOpen first now s.sched.rcLastMs s.params.rcPollIntervalMs = true
  · exact .inl ⟨h, by rw [if_pos h]; rfl, by rw [if_pos h]; rfl, by rw [if_pos h]; rfl⟩
  · exact .inr ⟨by simpa using h, if_neg h⟩

theorem tickNetwork_live (now : U32) : (tickNetwork now s).live =
    netMerged s.params.netMerge (frameCommandOf s.ports.frameOut) (slotTaken s.live).2 now (slotTaken s.live).1 := rfl

/-- The two network paths (R203): the command that is applied last, if any, is the one stored. -/
theorem netMerged_eq (m : NetMerge) (fromFrame fromSlot : Option Axes) (now : U32) (r : LiveRegs) :
    netMerged m fromFrame fromSlot now r =
      netArrivedIf (match m with
        | .slotWins => fromSlot.or fromFrame
        | .frameWins => fromFrame.or fromSlot) now r := by
  cases m <;> cases fromFrame <;> cases fromSlot <;> rfl

theorem tickArbitrate_sched (now : U32) : (tickArbitrate now s).sched =
    match arbitrate s.params.netTimeoutMs now s.live with
    | some a => { s.sched with cmdThr := a.1, cmdSteer := a.2 }
    | none => s.sched := by
  unfold tickArbitrate; cases arbitrate s.params.netTimeoutMs now s.live <;> rfl

theorem tickFailsafe_fs (now : U32) : (tickFailsafe now s).fs =
    fsStep s.params now (radioOk s || networkOk now s) s.fs := rfl

theorem actuate_sched (first : Bool) (now : U32) : (actuate first now s).sched =
    { s.sched with
        appliedThr := slewStep s.sched.cmdThr s.sched.appliedThr s.params.slewRateThr
          (if first then 0 else elapsed now s.sched.actLastMs)
        appliedSteer := slewStep s.sched.cmdSteer s.sched.appliedSteer s.params.slewRateSteer
          (if first then 0 else elapsed now s.sched.actLastMs)
        actLastMs := now } := by simp [actuate]

theorem actuate_ports (first : Bool) (now : U32) : (actuate first now s).ports =
    { s.ports with actSet := some ((actuate first now s).sched.appliedThr, (actuate first now s).sched.appliedSteer) } := by simp [actuate]

/-- Phase 6 (R206): forced neutral, one limited step, or nothing. -/
theorem tickActuate_cases (first : Bool) (now : U32) :
    (failsafeActive s = true ∧ tickActuate first now s = forceNeutral now s) ∨
      (failsafeActive s = false ∧ gateOpen first now s.sched.actLastMs s.params.actIntervalMs = true ∧
        tickActuate first now s = actuate first now s) ∨
      (failsafeActive s = false ∧ gateOpen first now s.sched.actLastMs s.params.actIntervalMs = false ∧
        tickActuate first now s = s) := by
  unfold tickActuate
  by_cases h : failsafeActive s = true
  · exact .inl ⟨h, if_pos h⟩
  · by_cases g : gateOpen first now s.sched.actLastMs s.params.actIntervalMs = true
    · exact .inr (.inl ⟨by simpa using h, g, by rw [if_neg h, if_pos g]⟩)
    · exact .inr (.inr ⟨by simpa using h, by simpa using g, by rw [if_neg h, if_neg g]⟩)

/-- Phase 7 (R207): a closed gate, a send, or a skipped send. -/
theorem tickTelemetry_cases (first : Bool) (now : U32) (w : Sensors) :
    (gateOpen first now s.sched.tlmLastMs s.params.tlmIntervalMs = false ∧ tickTelemetry first now w s = s) ∨
      (gateOpen first now s.sched.tlmLastMs s.params.tlmIntervalMs = true ∧ s.params.txbufSize < 23 ∧
        tickTelemetry first now w s = s.setSched { s.sched with tlmLastMs := now }) ∨
      ∃ D, gateOpen first now s.sched.tlmLastMs s.params.tlmIntervalMs = true ∧ 23 ≤ s.params.txbufSize ∧
        buildFrame .telemetry (encodeTelemetry s.sched.tlmSeq (statusByte now s) w) s.params.txbufSize = .ok D ∧
        tickTelemetry first now w s =
          (s.setSched { s.sched with tlmLastMs := now, tlmSeq := s.sched.tlmSeq + 1 }).setPorts
            { s.ports with txBytes := D } := by
  unfold tickTelemetry
  by_cases g : gateOpen first now s.sched.tlmLastMs s.params.tlmIntervalMs = true
  · have hl : (encodeTelemetry s.sched.tlmSeq (statusByte now s) w).length = 15 := rfl
    rcases buildFrame_cases .telemetry (encodeTelemetry s.sched.tlmSeq (statusByte now s) w) s.params.txbufSize
      with ⟨h, e⟩ | ⟨h, e⟩
    · exact .inr (.inl ⟨g, by omega, by rw [if_pos g, e]⟩)
    · exact .inr (.inr ⟨_, g, by omega, e, by rw [if_pos g, e]⟩)
  · exact .inl ⟨by simpa using g, if_neg g⟩

/-! ## The flags read few fields -/

theorem radioOk_of_live {s t : State} (h : s.live = t.live) : radioOk s = radioOk t := by simp [radioOk, h]

theorem networkOk_of_live {s t : State} (now : U32) (hp : s.params = t.params) (h : s.live = t.live) :
    networkOk now s = networkOk now t := by simp [networkOk, hp, h]

theorem failsafeActive_of_fs {s t : State} (hp : s.params = t.params) (h : s.fs = t.fs) :
    failsafeActive s = failsafeActive t := by simp [failsafeActive, hp, h]

theorem statusBits_of {s t : State} (now : U32) (hp : s.params = t.params) (hl : s.live = t.live) (hf : s.fs = t.fs) :
    statusBits now s = statusBits now t := by
  simp [statusBits, radioOk_of_live hl, networkOk_of_live now hp hl, failsafeActive_of_fs hp hf]

/-! ## The state after a tick, field by field -/

section
variable (now : U32) (bytes : List Byte) (a : Option Axes) (w : Sensors)

@[simp] theorem tickPhases_params : (tickPhases now bytes a w s).params = s.params := by simp [tickPhases]
@[simp] theorem tickPhases_crcAcc : (tickPhases now bytes a w s).crcAcc = s.crcAcc := by simp [tickPhases]
@[simp] theorem tickPhases_result : (tickPhases now bytes a w s).result = s.result := by simp [tickPhases]
@[simp] theorem tickPhases_requests : (tickPhases now bytes a w s).requests = s.requests := by simp [tickPhases]
@[simp] theorem tickPhases_freeCount : (tickPhases now bytes a w s).freeCount = s.freeCount := by simp [tickPhases]

/-- The buffer after a tick is that after phases 1 and 2. -/
theorem tickPhases_rx : (tickPhases now bytes a w s).rx =
    (extractTypes s.params s.params.expectedTypes (rxAppend s.params.cap bytes s.rx).1).1 := by
  simp [tickPhases, tickParse_rx, tickPump_rx]

/-- LIVE after a tick is that after phase 3. -/
theorem tickPhases_live : (tickPhases now bytes a w s).live =
    (tickNetwork now (tickRadio (!s.sched.seeded) now a (tickParse (tickPump bytes (s.setPorts quietPorts))))).live := by
  simp [tickPhases]

/-- FSAFE after a tick is one update with the liveness after phase 3. -/
theorem tickPhases_fs : (tickPhases now bytes a w s).fs =
    fsStep s.params now
      (radioOk (tickPhases now bytes a w s) || networkOk now (tickPhases now bytes a w s)) s.fs := by
  have hl := tickPhases_live s now bytes a w
  rw [show radioOk (tickPhases now bytes a w s) = _ from radioOk_of_live hl,
    show networkOk now (tickPhases now bytes a w s) = _ from networkOk_of_live now (by simp) hl]
  simp [tickPhases, tickFailsafe_fs, radioOk, networkOk]

/-- `TICK`: every way it can end. -/
theorem execTick_cases (e : Bool) :
    (s.params.linkEnd = .gateway ∧ execTick now bytes a w e s = .refused .noGatewayTick) ∨
      (s.params.linkEnd = .actuator ∧ slewRatesAllowed s.params = false ∧
        execTick now bytes a w e s = .refused .slewRateOutsideDomain) ∨
      (s.params.linkEnd = .actuator ∧ slewRatesAllowed s.params = true ∧
        execTick now bytes a w e s = .next (tickPhases now bytes a w s)) := by
  unfold execTick
  cases hl : s.params.linkEnd with
  | gateway => exact .inl ⟨rfl, rfl⟩
  | actuator =>
    cases hr : slewRatesAllowed s.params with
    | false => exact .inr (.inl ⟨rfl, rfl, rfl⟩)
    | true => exact .inr (.inr ⟨rfl, rfl, rfl⟩)

theorem tickPhases_rx_inv {cap : Nat} (hc : cap = s.params.cap) (h : s.rx.inv cap = true) :
    (tickPhases now bytes a w s).rx.inv cap = true := by
  subst hc
  rw [tickPhases_rx]
  exact extractTypes_inv _ _ (rxAppend_inv _ h)

end

end Sys2Proof.Machine
end

