-- ==== Sys2Proof/Laws/Step.lean ====
section
/-! SUPPORT. The step: every way it can end. -/

namespace Sys2Proof.Machine

theorem step_cases (s : State) :
    (s.requests = [] ∧ step s = .next s) ∨
      (∃ r waiting e, s.requests = r :: waiting ∧ decode r = .bad e ∧ step s = .refused (.unreadableRequest e)) ∨
      ∃ r waiting i rest, s.requests = r :: waiting ∧ decode r = .ok i rest ∧
        step s = exec i (s.setRequests waiting) := by
  unfold step takeRequest
  cases hr : s.requests with
  | nil => exact .inl ⟨rfl, rfl⟩
  | cons r waiting =>
    cases hd : decode r with
    | ok i rest => exact .inr (.inr ⟨r, waiting, i, rest, rfl, hd, by simp only [hd]⟩)
    | bad e => exact .inr (.inl ⟨r, waiting, e, rfl, hd, by simp only [hd]⟩)

/-- A next state comes from waiting, or from the meaning of a decoded request. -/
theorem step_next {s t : State} (h : step s = .next t) :
    t = s ∨ ∃ i s', exec i s' = .next t ∧ s'.params = s.params ∧ s'.rx = s.rx ∧ s'.fs = s.fs := by
  rcases step_cases s with ⟨_, e⟩ | ⟨_, _, _, _, _, e⟩ | ⟨_, waiting, i, _, _, _, e⟩
  · rw [e] at h; cases h; exact .inl rfl
  · rw [e] at h; cases h
  · rw [e] at h; exact .inr ⟨i, s.setRequests waiting, h, rfl, rfl, rfl⟩

end Sys2Proof.Machine
end

