-- ==== Sys2Proof/Tests/Slice0.lean ====
section
/-! SUPPORT. The model's own tests. Expected values are those of `spec/95_test_vectors.md` (V, S and P numbers) or worked
out by hand from the rule named; then one state and operands that meet the hypotheses of each statement. -/

namespace Sys2Proof.Tests

open Sys2Proof Sys2Proof.Machine

-- One theorem after another: a kernel evaluation waits for every declaration before it, and each waiting one holds a thread.
set_option Elab.async false

/-! ## Helpers -/

/-- What a test reads of the next state, if there is one. -/
def see {α : Type} (f : State → α) : Answer → Option α
  | .next s => some (f s)
  | _ => none

/-- The block after reset with the timeouts and intervals of the vectors. -/
def params : Params := { Params.default with fsTimeoutMs := 100, actIntervalMs := 10, slewRateThr := 0x427A0000 }

def small : State := State.resetWith params

/-- A state whose receive buffer holds given bytes. -/
def holding (bytes : List Byte) : State :=
  { small with rx := { mem := writeRun [] 0 bytes, cur := bytes.length } }

def fsAt (st : FsState) (last : U32) : State := { small with fs := { state := st, lastActiveMs := last, seeded := true } }

/-- A running block: the actuator last moved at 1000, the failsafe has control. -/
def running : State :=
  { small with
    fs := { state := .inactive, lastActiveMs := 1000, seeded := true }
    sched := { small.sched with seeded := true, actLastMs := 1000, rcLastMs := 1000, tlmLastMs := 1000 } }

def words : Sensors := { ax := 1000, ay := -500, az := 9800, gx := 100, gy := -200, gz := 50 }

/-- V20 to V22, V25. -/
def ping : List Byte := [0xAA, 0x55, 0x01, 0x03, 0x00, 0x00, 0xF1, 0xD8]
def pong : List Byte := [0xAA, 0x55, 0x01, 0x04, 0x00, 0x00, 0x40, 0x19]
def command : List Byte := [0xAA, 0x55, 0x01, 0x01, 0x07, 0x00, 0x01, 0x00, 0x00, 0x40, 0x00, 0xC0, 0x00, 0x20, 0xED]
/-- P6 step 3. -/
def wedge : List Byte := [0xAA, 0x55, 0x00, 0x40, 0x00, 0xC0, 0x80, 0x36, 0x22]

/-! ## Decoding: one word for every constructor, written out from R60 to R70, R77 and log 2 -/

theorem test_decode_frameCommand : decode command = .ok (.frameCommand 1 0x4000 0xC000 0 0xED20) [] := by decide
theorem test_decode_frameTelemetry :
    decode [0xAA, 0x55, 0x01, 0x02, 0x0F, 0x00, 0x2A, 0x00, 0x07, 0xE8, 0x03, 0x0C, 0xFE, 0x48, 0x26, 0x64, 0x00, 0x38,
      0xFF, 0x32, 0x00, 0xAA, 0xB5] = .ok (.frameTelemetry 42 0x07 words 0xB5AA) [] := by decide
theorem test_decode_framePing : decode ping = .ok (.framePing 0xD8F1) [] := by decide
theorem test_decode_framePong : decode pong = .ok (.framePong 0x1940) [] := by decide
theorem test_decode_frameLog :
    decode [0xAA, 0x55, 0x01, 0x05, 0x02, 0x00, 0x68, 0x69, 0x23, 0x9C] = .ok (.frameLog [0x68, 0x69] 0x9C23) [] := by
  decide
theorem test_decode_crcInit : decode [0x00] = .ok .crcInit [] := by decide
theorem test_decode_crcByte : decode [0x01, 0x5A, 0x77] = .ok (.crcByte 0x5A) [0x77] := by decide
theorem test_decode_crcRange : decode [0x02, 2, 0, 0, 0, 0x31, 0x32] = .ok (.crcRange [0x31, 0x32]) [] := by decide
theorem test_decode_codecBuild :
    decode [0x10, 0x04, 2, 0, 0x68, 0x69, 0x0A, 0x01, 0, 0] = .ok (.codecBuild .log [0x68, 0x69] 266) [] := by decide
theorem test_decode_codecHdr : decode [0x11, 1, 0, 0, 0, 0xAA] = .ok (.codecHdr [0xAA]) [] := by decide
theorem test_decode_codecLen : decode [0x12, 1, 0, 0, 0, 0xAA] = .ok (.codecLen [0xAA]) [] := by decide
theorem test_decode_codecCrcok : decode [0x13, 1, 0, 0, 0, 0xAA] = .ok (.codecCrcok [0xAA]) [] := by decide
theorem test_decode_codecParseCmd : decode [0x14, 1, 0, 0, 0, 0xAA] = .ok (.codecParseCmd [0xAA]) [] := by decide
theorem test_decode_codecParseTlm : decode [0x15, 1, 0, 0, 0, 0xAA] = .ok (.codecParseTlm [0xAA]) [] := by decide
theorem test_decode_codecParsePing : decode [0x16, 1, 0, 0, 0, 0xAA] = .ok (.codecParsePing [0xAA]) [] := by decide
theorem test_decode_codecParsePong : decode [0x17, 1, 0, 0, 0, 0xAA] = .ok (.codecParsePong [0xAA]) [] := by decide
theorem test_decode_codecParseLog : decode [0x18, 1, 0, 0, 0, 0xAA] = .ok (.codecParseLog [0xAA]) [] := by decide
theorem test_decode_codecEncCmd :
    decode [0x19, 0x34, 0x12, 0x00, 0x00, 0x00, 0x3F, 0x00, 0x00, 0x00, 0xBF] =
      .ok (.codecEncCmd 0x1234 0x3F000000 0xBF000000) [] := by decide
theorem test_decode_codecEncTlm :
    decode [0x1A, 0x2A, 0x00, 0x07, 0xE8, 0x03, 0x0C, 0xFE, 0x48, 0x26, 0x64, 0x00, 0x38, 0xFF, 0x32, 0x00] =
      .ok (.codecEncTlm 42 7 words) [] := by decide
theorem test_decode_codecEncLog : decode [0x1B, 0, 0, 0, 0] = .ok (.codecEncLog []) [] := by decide
theorem test_decode_rxPush : decode [0x20, 2, 0, 0, 0, 0xAA, 0x55] = .ok (.rxPush [0xAA, 0x55]) [] := by decide
theorem test_decode_rxExtract : decode [0x21, 0x02] = .ok (.rxExtract .ping) [] := by decide
theorem test_decode_radioPoll :
    decode [0x30, 1, 0, 0, 0x80, 0x3E, 0, 0, 0x80, 0xBF] = .ok (.radioPoll (some (0x3E800000, 0xBF800000))) [] := by
  decide
theorem test_decode_netSubmit :
    decode [0x31, 0, 0, 0x80, 0xBF, 0, 0, 0x80, 0x3F] = .ok (.netSubmit 0xBF800000 0x3F800000) [] := by decide
theorem test_decode_netTake : decode [0x32] = .ok .netTake [] := by decide
theorem test_decode_netCmd :
    decode [0x33, 0, 0, 0, 0x3F, 0, 0, 0, 0, 0xE8, 0x03, 0, 0] = .ok (.netCmd 0x3F000000 0 1000) [] := by decide
theorem test_decode_liveEval : decode [0x34, 0x39, 0x30, 0, 0] = .ok (.liveEval 12345) [] := by decide
theorem test_decode_arbSelect : decode [0x35, 0x10, 0, 0, 0xFF] = .ok (.arbSelect 0xFF000010) [] := by decide
theorem test_decode_fsUpdate : decode [0x40, 0xE8, 0x03, 0, 0, 1] = .ok (.fsUpdate 1000 true) [] := by decide
theorem test_decode_fsReset : decode [0x41] = .ok .fsReset [] := by decide
theorem test_decode_slewStep :
    decode [0x50, 0, 0, 0x80, 0x3F, 0, 0, 0, 0, 0, 0, 0x7A, 0x43, 2, 0, 0, 0] =
      .ok (.slewStep 0x3F800000 0 0x437A0000 2) [] := by decide
theorem test_decode_tick :
    decode [0x60, 0xE8, 0x03, 0, 0, 1, 0, 0, 0, 0xAA, 0, 1, 0, 2, 0, 3, 0, 4, 0, 5, 0, 6, 0, 1] =
      .ok (.tick 1000 [0xAA] none { ax := 1, ay := 2, az := 3, gx := 4, gy := 5, gz := 6 } true) [] := by decide

theorem test_decode_unassigned_op : decode [0x03] = .bad (.unassignedOp 0x03) := by decide
theorem test_decode_reserved_lengths : decode [0xAA, 0x55, 0x01, 0x05, 0xC9, 0x00] = .bad .frameLength := by decide

/-- R79: a wire row's number has frame offset 0 most significant; the bytes above it are zeros. -/
theorem test_tableWord_ping : decodeTableWord 48 0xAA5501030000 = some (.framePing 0) := by decide +kernel
theorem test_tableWord_tick :
    decodeTableWord 8 0x60 = some (.tick 0 [] none { ax := 0, ay := 0, az := 0, gx := 0, gy := 0, gz := 0 } false) := by
  decide +kernel

/-! ## Ill-formed terms, refused by each check of `Instr.wf` -/

theorem test_wf_log_text : (Instr.frameLog (List.replicate 201 0x41) 0).wf = false := by
  simp [Instr.wf, -List.reduceReplicate]
theorem test_wf_build_payload (t : MessageType) : (Instr.codecBuild t (List.replicate 65536 0) 0).wf = false := by
  simp [Instr.wf, -List.reduceReplicate]
theorem test_wf_build_dest (t : MessageType) : (Instr.codecBuild t [] (2 ^ 32)).wf = false := by
  simp [Instr.wf]
theorem test_wf_bytes (bs : List Byte) (h : bs.length = 2 ^ 32) : (Instr.rxPush bs).wf = false := by
  simp [Instr.wf, bytesFit, h]

/-! ## One step of each instruction -/

/-- V51j. -/
theorem test_frameCommand : see State.result (exec (.frameCommand 1 0x4000 0xC000 0 0xED20) small) =
    some (.parsed (.ok (.command { seq := 1, throttle := 0x3F000100, steering := 0xBF000100 }, 15))) := by decide +kernel
/-- V51h. -/
theorem test_frameCommand_crc : see State.result (exec (.frameCommand 1 0x4000 0xC000 0 0xEC20) small) =
    some (.parsed (.err .crcMismatch)) := by decide +kernel
/-- S1. -/
theorem test_frameTelemetry : see State.result (exec (.frameTelemetry 42 7 words 0xB5AA) small) =
    some (.parsed (.ok (.telemetry { seq := 42, status := 7, sensors := words }, 23))) := by decide +kernel
/-- V20 and V14. -/
theorem test_framePing : see State.result (exec (.framePing 0xD8F1) small) = some (.parsed (.ok (.ping, 8))) := by
  decide +kernel
theorem test_framePing_crc : see State.result (exec (.framePing 0xD9F1) small) =
    some (.parsed (.err .crcMismatch)) := by decide +kernel
theorem test_framePong : see State.result (exec (.framePong 0x1940) small) = some (.parsed (.ok (.pong, 8))) := by
  decide +kernel
/-- V27. -/
theorem test_frameLog : see State.result (exec (.frameLog [0x68, 0x69] 0x9C23) small) =
    some (.parsed (.ok (.log [0x68, 0x69], 10))) := by decide +kernel
theorem test_crcInit : see State.crcAcc (exec .crcInit { small with crcAcc := 7 }) = some 0xFFFF := by decide
/-- P5 steps 2 and 7. -/
theorem test_crcByte_first : see State.crcAcc (exec (.crcByte 0x01) small) = some 0x807E := by decide +kernel
theorem test_crcByte_last : see State.result (exec (.crcByte 0xD8) { small with crcAcc := 0x00D8 }) = some (.crc 0) := by
  decide +kernel
/-- V7, S6. -/
theorem test_crcRange : see State.result (exec (.crcRange [0x31, 0x32, 0x33, 0x34, 0x35, 0x36, 0x37, 0x38, 0x39]) small) =
    some (.crc 0x4B37) := by decide +kernel
theorem test_crcRange_empty : see State.result (exec (.crcRange []) small) = some (.crc 0xFFFF) := by decide +kernel
/-- V20, V30. -/
theorem test_codecBuild : see State.result (exec (.codecBuild .ping [] 8) small) = some (.built (.ok ping)) := by
  decide +kernel
theorem test_codecBuild_small :
    see State.result (exec (.codecBuild .telemetry (List.replicate 15 0) 22) small) =
      some (.built (.err .bufferTooSmall)) := by decide +kernel
/-- V50b, V50d. -/
theorem test_codecHdr_order : see State.result (exec (.codecHdr [0xAB, 0x55, 0x02, 0x09]) small) =
    some (.header (.err .invalidPrefix)) := by decide
theorem test_codecHdr_type : see State.result (exec (.codecHdr [0xAA, 0x55, 0x01, 0x06]) small) =
    some (.header (.err .invalidType)) := by decide
/-- V50h. -/
theorem test_codecLen : see State.result (exec (.codecLen [0, 0, 0, 0, 0x34, 0x12]) small) =
    some (.length (.ok 0x1234)) := by decide
/-- V50l, V50k. -/
theorem test_codecCrcok : see State.result (exec (.codecCrcok [0, 0, 1, 3, 0, 0, 0xF1, 0xD8]) small) =
    some (.crcOk true) := by decide +kernel
theorem test_codecCrcok_short : see State.result (exec (.codecCrcok [0xAA, 0x55, 1, 3, 0, 0, 0xF1]) small) =
    some (.crcOk false) := by decide +kernel
/-- V51i: the first failing check wins over the bad CRC. -/
theorem test_codecParseCmd_version :
    see State.result (exec (.codecParseCmd
      [0xAA, 0x55, 0x02, 0x01, 0x07, 0x00, 0x01, 0x00, 0x00, 0x40, 0x00, 0xC0, 0x00, 0x20, 0xEC]) small) =
      some (.parsed (.err .invalidVersion)) := by decide +kernel
/-- V51l: raw -32768. -/
theorem test_codecParseCmd_most_negative :
    see State.result (exec (.codecParseCmd
      [0xAA, 0x55, 0x01, 0x01, 0x07, 0x00, 0x07, 0x00, 0x00, 0x80, 0x00, 0x00, 0x00, 0x2A, 0xED]) small) =
      some (.parsed (.ok (.command { seq := 7, throttle := 0xBF800100, steering := 0 }, 15))) := by decide +kernel
/-- V51o. -/
theorem test_codecParseTlm :
    see State.result (exec (.codecParseTlm
      [0xAA, 0x55, 0x01, 0x02, 0x0F, 0x00, 0xFF, 0xFF, 0xFF, 0x00, 0x80, 0xFF, 0x7F, 0x00, 0x00, 0xFF, 0xFF, 0x01, 0x00,
        0x00, 0x01, 0xE1, 0xF6]) small) =
      some (.parsed (.ok (.telemetry { seq := 0xFFFF, status := 0xFF, sensors :=
        { ax := 0x8000, ay := 0x7FFF, az := 0, gx := 0xFFFF, gy := 1, gz := 0x100 } }, 23))) := by decide +kernel
/-- V51n, V51d. -/
theorem test_codecParsePing : see State.result (exec (.codecParsePing (ping ++ [0xAA, 0x55])) small) =
    some (.parsed (.ok (.ping, 8))) := by decide +kernel
theorem test_codecParsePing_length :
    see State.result (exec (.codecParsePing [0xAA, 0x55, 1, 3, 1, 0, 0, 0, 0]) small) =
      some (.parsed (.err .invalidPayloadLength)) := by decide +kernel
/-- V51a, for Pong. -/
theorem test_codecParsePong_type : see State.result (exec (.codecParsePong ping) small) =
    some (.parsed (.err .invalidType)) := by decide +kernel
theorem test_codecParsePong : see State.result (exec (.codecParsePong pong) small) = some (.parsed (.ok (.pong, 8))) := by
  decide +kernel
/-- V51e, V51f. -/
theorem test_codecParseLog_over : see State.result (exec (.codecParseLog [0xAA, 0x55, 1, 5, 0xC9, 0]) small) =
    some (.parsed (.err .invalidPayloadLength)) := by decide +kernel
theorem test_codecParseLog_short :
    see State.result (exec (.codecParseLog [0xAA, 0x55, 1, 5, 0xC8, 0, 0x41, 0x41, 0x41]) small) =
      some (.parsed (.err .insufficientData)) := by decide +kernel
/-- V22: the tie goes away from zero. -/
theorem test_codecEncCmd : see State.result (exec (.codecEncCmd 1 0x3F000000 0xBF000000) small) =
    some (.payload [0x01, 0x00, 0x00, 0x40, 0x00, 0xC0, 0x00]) := by decide +kernel
/-- V24. -/
theorem test_codecEncCmd_ends : see State.result (exec (.codecEncCmd 0xFFFF 0x3F800000 0xBF800000) small) =
    some (.payload [0xFF, 0xFF, 0xFF, 0x7F, 0x01, 0x80, 0x00]) := by decide +kernel
/-- S1. -/
theorem test_codecEncTlm : see State.result (exec (.codecEncTlm 42 7 words) small) =
    some (.payload [0x2A, 0x00, 0x07, 0xE8, 0x03, 0x0C, 0xFE, 0x48, 0x26, 0x64, 0x00, 0x38, 0xFF, 0x32, 0x00]) := by
  decide
/-- V29: the 201st byte is dropped. -/
theorem test_codecEncLog : see State.result (exec (.codecEncLog (List.replicate 200 0x41 ++ [0x42])) small) =
    some (.payload (List.replicate 200 0x41)) := by decide +kernel
/-- V69d, on a buffer of 4 free bytes. -/
theorem test_rxPush_full :
    see (fun t => (t.result, t.rx.cur)) (exec (.rxPush (List.replicate 8 1)) { small with rx := { mem := [], cur := 1020 } }) =
      some (.taken 4, 1024) := by decide +kernel
/-- V67: exactly one byte is skipped. -/
theorem test_rxExtract_rejected :
    see (fun t => (t.result, t.rx.content)) (exec (.rxExtract .ping) (holding [0xAA, 0x55, 1, 3, 0, 0, 0xF1, 0xD9])) =
      some (.extracted (.noFrame (.rejected .crcMismatch)), [0x55, 1, 3, 0, 0, 0xF1, 0xD9]) := by decide +kernel
/-- V66. -/
theorem test_rxExtract_frame :
    see (fun t => (t.result, t.rx.content)) (exec (.rxExtract .ping) (holding (ping ++ [0xAA, 0x55]))) =
      some (.extracted (.frame .ping), [0xAA, 0x55]) := by decide +kernel
/-- V96. -/
theorem test_radioPoll_none :
    see (fun t => (t.live.radioLive, t.live.radioThr))
      (exec (.radioPoll none) { small with live := { small.live with radioLive := true, radioThr := 5 } }) =
      some (false, 5) := by decide
theorem test_radioPoll_some :
    see (fun t => (t.live.radioLive, t.live.radioThr, t.live.radioSteer))
      (exec (.radioPoll (some (0x3E800000, 0xBF800000))) small) = some (true, 0x3E800000, 0xBF800000) := by decide
/-- V97, each half. -/
theorem test_netSubmit :
    see (fun t => (t.live.slotFull, t.live.slotThr, t.live.slotSteer))
      (exec (.netSubmit 3 4) { small with live := { small.live with slotFull := true, slotThr := 1, slotSteer := 2 } }) =
      some (true, 3, 4) := by decide
theorem test_netTake :
    see (fun t => (t.result, t.live.slotFull))
      (exec .netTake { small with live := { small.live with slotFull := true, slotThr := 3, slotSteer := 4 } }) =
      some (.slot (some (3, 4)), false) := by decide
theorem test_netTake_empty : see State.result (exec .netTake small) = some (.slot none) := by decide
theorem test_netCmd :
    see (fun t => (t.live.netThr, t.live.netSteer, t.live.netLastCmdMs)) (exec (.netCmd 5 6 7) small) = some (5, 6, 7) := by
  decide
/-- V91 at 1500, V93. -/
theorem test_liveEval_strict :
    see State.result (exec (.liveEval 1500) { small with live := { small.live with netLastCmdMs := 1000 } }) =
      some (.liveness false false) := by decide
theorem test_liveEval_wraps :
    see State.result (exec (.liveEval 0x10) { small with live := { small.live with netLastCmdMs := 0xFFFFFF00 } }) =
      some (.liveness false true) := by decide
/-- V53, V54. -/
theorem test_arbSelect_network :
    see State.result (exec (.arbSelect 1001)
      { small with live := { small.live with netLastCmdMs := 1000, netThr := 8, netSteer := 9 } }) =
      some (.selected (some (8, 9))) := by decide
theorem test_arbSelect_none : see State.result (exec (.arbSelect 1001) small) = some (.selected none) := by decide
/-- V106, and P4 step 4. -/
theorem test_fsUpdate_trips :
    see (fun t => t.fs.state) (exec (.fsUpdate 0x54 false) (fsAt .inactive 0xFFFFFFF0)) = some .active := by decide
theorem test_fsUpdate_recovers :
    see State.fs (exec (.fsUpdate 150 true) (fsAt .active 0)) =
      some { state := .recovering, lastActiveMs := 150, seeded := true } := by decide
/-- V109. -/
theorem test_fsReset : see (fun t => (t.fs.state, t.fs.seeded)) (exec .fsReset (fsAt .active 3)) =
    some (.inactive, false) := rfl
/-- V76, V82. -/
theorem test_slewStep : see State.result (exec (.slewStep 0x3F800000 0 0x40000000 2) small) =
    some (.slew 0x3B83126F) := by decide +kernel
theorem test_slewStep_negative_rate : see State.result (exec (.slewStep 0 0x3F800000 0xC37A0000 2) small) =
    some (.slew 0x3FC00000) := by decide +kernel
/-- P3 tick 1000: neutral, the frame T0. -/
theorem test_tick_boot :
    see (fun t => (t.fs.state, t.ports.actNeutral, t.ports.txBytes, t.sched.tlmSeq)) (exec (.tick 1000 [] none words false) small) =
      some (.active, true, [0xAA, 0x55, 0x01, 0x02, 0x0F, 0x00, 0x00, 0x00, 0x04, 0xE8, 0x03, 0x0C, 0xFE, 0x48, 0x26, 0x64,
        0x00, 0x38, 0xFF, 0x32, 0x00, 0x05, 0x69], 1) := by decide +kernel
/-- A radio command of 1.0 at the limited rate 62.5/s over 10 ms (R206; V122's gate): 0.625. -/
theorem test_tick_moves :
    see (fun t => (t.ports.actSet, t.sched.actLastMs)) (exec (.tick 1010 [] (some (0x3F800000, 0)) words false) running) =
      some (some (0x3F200000, 0), 1010) := by decide +kernel

/-! ## Witnesses: a state and operands that meet the hypotheses of each statement -/

/-- The state and operands of a request that a step performs. -/
theorem test_witness_StepRunsTheDecodedRequest :
    (small.setRequests [[0x00], [0x32]]).requests = [0x00] :: [[0x32]] ∧ decode [0x00] = .ok .crcInit [] ∧
      small.requests = [] := by decide

theorem test_witness_DecodeOfEncode :
    (Instr.frameLog (List.replicate 200 0x41) 0).wf = true ∧ (Instr.crcInit).wf = true ∧
      (Instr.codecBuild .log (List.replicate 65535 0x41) (2 ^ 32 - 1)).wf = true := by
  refine ⟨by decide +kernel, rfl, ?_⟩
  simp [Instr.wf, -List.reduceReplicate]

theorem test_witness_UnassignedSelectCodes :
    (0x03 : Byte).toNat < 0x80 ∧ (0x03 : Byte).toNat ∉ [0x00, 0x01, 0x02, 0x10] ∧ (0x7F : Byte).toNat < 0x80 ∧
      (small.setRequests [[0x7F]]).requests = [0x7F] :: [] ∧ decode [0x7F] = .bad (.unassignedOp 0x7F) := by decide

theorem test_witness_EveryStepKeepsTheInvariant :
    ((holding ping).setRequests [[0x00]]).inv = true ∧
      step ((holding ping).setRequests [[0x00]]) = .next (((holding ping).setRequests []).setCrcAcc 0xFFFF) :=
  ⟨by decide +kernel, rfl⟩

theorem test_witness_OperationsKeepToTheirUnit :
    (∃ t, exec .crcInit small = .next t) ∧ (∃ t, exec (.codecLen []) small = .next t) ∧
      (∃ t, exec (.rxPush [1]) small = .next t) ∧ (∃ t, exec .netTake small = .next t) ∧
      (∃ t, exec .fsReset small = .next t) ∧ (∃ t, exec (.slewStep 0 0 0 0) small = .next t) ∧
      (∃ t, exec (.tick 0 [] none words false) small = .next t) :=
  ⟨⟨_, rfl⟩, ⟨_, rfl⟩, ⟨_, rfl⟩, ⟨_, rfl⟩, ⟨_, rfl⟩, ⟨_, rfl⟩, ⟨_, rfl⟩⟩

theorem test_witness_StreamedCrc :
    (small.setRequests [[0x00], [0x01, 0x03], [0x01, 0xFF]]).requests =
      encode .crcInit :: [0x03, 0xFF].map (fun b => encode (.crcByte b)) := by decide

theorem test_witness_CrcResidue : 8 + (wordAt ping 4).toNat ≤ ping.length := by decide

theorem test_witness_CrcDetects : (0x00 : Byte) ≠ 0x80 := by decide

/-- Both clauses, one byte apart, and the longest payload. -/
theorem test_witness_Build :
    ([0x41] : List Byte).length ≤ 65535 ∧ 8 < 6 + ([0x41] : List Byte).length + 2 ∧
      6 + ([0x41] : List Byte).length + 2 ≤ 9 ∧ (List.replicate 65535 (0 : Byte)).length ≤ 65535 := by
  refine ⟨by decide, by decide, by decide, by simp [-List.reduceReplicate]⟩

/-- Lengths 3 and 4, and the type bytes 0, 1, 5, 6. -/
theorem test_witness_Header :
    [0xAA, 0x55, (0x01 : Byte)].length < 4 ∧ 4 ≤ [0xAA, 0x55, 0x01, (0x00 : Byte)].length ∧
      (byteAt [0xAA, 0x55, 0x01, 0x00] 3).toNat < 1 ∧ 5 < (byteAt [0xAA, 0x55, 0x01, 0x06] 3).toNat ∧
      byteAt [0xAA, 0x55, 0x01, 0x01] 3 = typeCode .command ∧ byteAt [0xAA, 0x55, 0x01, 0x05] 3 = typeCode .log ∧
      ¬ (byteAt [0xAA, 0x54, 0x01, 0x05] 0 = 0xAA ∧ byteAt [0xAA, 0x54, 0x01, 0x05] 1 = 0x55) ∧
      byteAt [0xAA, 0x55, 0x02, 0x05] 2 ≠ 0x01 := by decide

/-- Lengths 5 and 6, one byte short of the frame and all of it. -/
theorem test_witness_LengthAndCrc :
    (ping.take 5).length < 6 ∧ 6 ≤ (ping.take 6).length ∧
      (ping.take 7).length < 8 + (wordAt (ping.take 7) 4).toNat ∧ 8 + (wordAt ping 4).toNat ≤ ping.length := by decide

/-- Each branch of the sequence on a Log frame: the length field 200 fits and 201 does not; the stored CRC right and wrong. -/
theorem test_witness_Parse :
    (wordAt [0xAA, 0x55, 1, 5, 0xC8, 0] 4).toNat = 200 ∧ (wordAt [0xAA, 0x55, 1, 5, 0xC9, 0] 4).toNat = 201 ∧
      byteAt command 3 = typeCode .command ∧ byteAt ping 3 ≠ typeCode .command ∧ (wordAt command 4).toNat = 7 ∧
      8 + 7 ≤ command.length ∧ (command.take 14).length < 8 + 7 ∧
      crc16 (slice command 2 13) = wordAt command 13 ∧
      crc16 (slice (command.take 14 ++ [0xEC]) 2 13) ≠ wordAt (command.take 14 ++ [0xEC]) 13 := by decide +kernel

theorem test_witness_WireRows : (List.replicate 200 (0x41 : Byte)).length ≤ 200 ∧ ([] : List Byte).length ≤ 200 := by
  simp [-List.reduceReplicate]

/-- 1.0 and -1.0 are in the domain; the next value above 1.0, infinity and NaN are not. -/
theorem test_witness_Encoders :
    axisInDomain 0x3F800000 = true ∧ axisInDomain 0xBF800000 = true ∧ axisInDomain 0x80000000 = true ∧
      axisInDomain 0x3F800001 = false ∧ axisInDomain 0x7F800000 = false ∧ axisInDomain 0x7FC00000 = false := by
  decide

theorem test_witness_CodecIsStateless :
    unitOf (.codecEncTlm 1 2 words) = .codec ∧ unitOf (.framePing 0) = .codec ∧
      (∃ t, exec (.codecEncTlm 1 2 words) small = .next t) ∧ ∃ t, exec (.framePing 0) small = .next t :=
  ⟨rfl, rfl, ⟨_, rfl⟩, ⟨_, rfl⟩⟩

theorem test_witness_Refusals :
    65535 < (List.replicate 65536 (0 : Byte)).length ∧
      { small with params := { params with linkEnd := .gateway } }.params.linkEnd = .gateway := by
  simp [-List.reduceReplicate]

/-- A steering rate of infinity, of NaN, of the largest value below zero; the rate -0.0 is not below zero. -/
theorem test_witness_RefusedRates :
    small.params.linkEnd = .actuator ∧ f32IsInf 0x7F800000 = true ∧ f32IsNaN 0x7FC00000 = true ∧
      flt 0x80000001 f32Zero = true ∧ flt 0x80000000 f32Zero = false ∧
      exec (.tick 1000 [] none words false) { small with params := { params with slewRateSteer := 0x80000001 } } =
        .refused .slewRateOutsideDomain :=
  ⟨rfl, by decide, by decide, by decide, by decide, rfl⟩

/-- An empty buffer and a full one. -/
theorem test_witness_Push :
    small.rx.inv small.params.cap = true ∧
      (({ mem := [(0, 1)], cur := 1024 } : RxBuf).inv small.params.cap = true) ∧
      (0 < min [(7 : Byte)].length (small.params.cap - small.rx.cur)) := by decide

/-- No prefix with room left, with none left, and each way on after a prefix (V60 to V69). -/
theorem test_witness_Extract :
    (holding []).rx.cur ≠ (holding []).params.cap ∧
      ({ holding [] with params := { params with cap := 0 } }).rx.cur = 0 ∧
      byteAt (holding ping).rx.content 0 = 0xAA ∧ byteAt (holding ping).rx.content 1 = 0x55 ∧
      1 < (holding ping).rx.cur ∧ (holding [0xAA, 0x55, 1]).rx.content.length < 4 ∧
      parseFrame .ping (holding ping).rx.content = .ok (.ping, 8) ∧
      parseFrame .ping (holding (ping.take 7)).rx.content = .err .insufficientData ∧
      byteAt (holding pong).rx.content 3 ≠ typeCode .ping := by decide +kernel

theorem test_witness_Rejection :
    (holding [0xAA, 0x55, 2, 3]).params.skipOnInsufficient = false ∧
      see State.result (exec (.rxExtract .ping) (holding [0xAA, 0x55, 2, 3])) =
        some (.extracted (.noFrame (.rejected .invalidVersion))) := by decide +kernel

/-- A buffer of the smallest capacity, full, with the prefix in front. -/
def fullOfLog : State :=
  { small with params := { params with cap := 208 }, rx := { mem := [(0, 0xAA), (1, 0x55), (2, 1), (3, 5), (4, 200)], cur := 208 } }

theorem test_witness_FullBuffer :
    Config.maxFrame ≤ fullOfLog.params.cap ∧ fullOfLog.rx.cur = fullOfLog.params.cap ∧
      byteAt fullOfLog.rx.content 0 = 0xAA ∧ byteAt fullOfLog.rx.content 1 = 0x55 := by decide +kernel

theorem test_witness_Garbage :
    small.rx.inv small.params.cap = true ∧ small.rx.cur = 0 ∧
      (List.replicate 1024 (0x13 : Byte)).length = small.params.cap ∧
      ∀ i, byteAt (List.replicate 1024 0x13) i = 0xAA → byteAt (List.replicate 1024 0x13) (i + 1) ≠ 0x55 := by
  refine ⟨by decide, rfl, List.length_replicate, fun i h => absurd h ?_⟩
  by_cases hi : i < 1024 <;> simp [byteAt, hi, -List.reduceReplicate]

theorem test_witness_AcceptedFrame :
    small.rx.inv small.params.cap = true ∧ small.rx.cur = 0 ∧ (ping ++ [0xAA]).length ≤ small.params.cap ∧
      parseFrame .ping (ping ++ [0xAA]) = .ok (.ping, 8) := by decide +kernel

theorem test_witness_Wedge :
    (holding wedge).rx.inv (holding wedge).params.cap = true ∧ wedged (holding wedge).params (holding wedge).rx = true ∧
      .command ∈ (holding wedge).params.expectedTypes ∧ (holding wedge).params.linkEnd = .actuator ∧
      slewRatesAllowed (holding wedge).params = true ∧ decode [0x21, 0x00] = .ok (.rxExtract .command) [] ∧
      see (fun t => t.requests) (step ((holding wedge).setRequests [[0x21, 0x00]])) = some [] := by decide +kernel

/-- Elapsed 499 and 500 against `NET_TIMEOUT_MS` 500, and the stamp 0. -/
theorem test_witness_Arbitration :
    small.live.radioLive = false ∧ small.live.netLastCmdMs = 0 ∧ small.params.netTimeoutMs.toNat = 500 ∧
      ((1499 : U32) - 1000).toNat < 500 ∧ 500 ≤ ((1500 : U32) - 1000).toNat ∧ (1000 : U32) ≠ 0 := by decide

theorem test_witness_SubmitCommutes :
    unitOf .fsReset ≠ .sched ∧ Party.networkAgent ∉ performers .fsReset ∧ (∃ t, exec .fsReset small = .next t) ∧
      Party.networkAgent ∉ performers (.codecEncCmd 0 0x7FC00000 0) ∧
      exec (.codecEncCmd 0 0x7FC00000 0) small = .refused .axisOutsideDomain :=
  ⟨by decide, by decide, ⟨_, rfl⟩, by decide, rfl⟩

theorem test_witness_OnlyTheNetworkAgent :
    Party.networkAgent ∈ performers (.netSubmit 1 2) ∧ (∃ t, exec (.netSubmit 1 2) small = .next t) ∧
      Party.networkAgent ∉ performers .netTake ∧ ∃ t, exec .netTake small = .next t :=
  ⟨by decide, ⟨_, rfl⟩, by decide, ⟨_, rfl⟩⟩

/-- Each state of the table, the timeout 100 at elapsed 99 and 100. -/
theorem test_witness_FailsafeTable :
    (fsAt .inactive 0).fs.seeded = true ∧ (fsAt .inactive 0).fs.state = .inactive ∧
      ((99 : U32) - 0).toNat < (fsAt .inactive 0).params.fsTimeoutMs.toNat ∧
      (fsAt .inactive 0).params.fsTimeoutMs.toNat ≤ ((100 : U32) - 0).toNat ∧
      (fsAt .active 0).fs.state = .active ∧ (fsAt .recovering 0).fs.state = .recovering := by decide

theorem test_witness_FirstUpdate :
    small.fs.seeded = false ∧ small.fs.state = .inactive ∧ small.params.tripOnBoot = true ∧
      { small with params := { params with tripOnBoot := false } }.params.tripOnBoot = false := by decide

theorem test_witness_ZeroTimeout : State.reset.params.fsTimeoutMs = 0 := rfl

theorem test_witness_Recovery :
    (fsAt .active 0).fs.seeded = true ∧ (fsAt .active 0).fs.state = .active ∧
      (fsAt .recovering 0).fs.seeded = true ∧ (fsAt .recovering 0).fs.state = .recovering := by decide

theorem test_witness_UnwrittenLastActive : small.fs.seeded = false ∧ (fsAt .active 0).fs.state ≠ .inactive := by decide

/-- `max_change` 0 (V77), 0.004 (V76) and infinity (V89), and finite ends. -/
theorem test_witness_Slew :
    f32IsFinite 0x3F800000 = true ∧ f32IsFinite 0 = true ∧
      f32IsNaN (fdiv (fmul 0x40000000 (f32OfU32 0)) f32Thousand) = false ∧
      f32Key (fdiv (fmul 0x40000000 (f32OfU32 0)) f32Thousand) = 0 ∧
      0 ≤ f32Key (fdiv (fmul 0x40000000 (f32OfU32 2)) f32Thousand) ∧
      fdiv (fmul 0x7F7FFFFF (f32OfU32 4000000000)) f32Thousand = 0x7F800000 := by decide +kernel

theorem test_witness_SlewStays :
    f32IsNaN (fdiv (fmul 0x7FC00000 (f32OfU32 2)) f32Thousand) = true ∧
      0 ≤ f32Key (fdiv (fmul 0 (f32OfU32 2)) f32Thousand) := by decide +kernel

theorem test_witness_SlewHeals :
    f32IsNaN 0x7FC00000 = true ∧ f32IsNaN (fdiv (fmul 0x7FC00000 (f32OfU32 2)) f32Thousand) = true := by decide +kernel

/-- The first tick, and the gates at elapsed 9 and 10 of the interval 10. -/
theorem test_witness_Tick :
    small.params.linkEnd = .actuator ∧ small.sched.seeded = false ∧ running.params.linkEnd = .actuator ∧
      slewRatesAllowed small.params = true ∧ slewRatesAllowed running.params = true ∧
      running.sched.seeded = true ∧ running.params.actIntervalMs.toNat = 10 ∧
      ((1009 : U32) - running.sched.actLastMs).toNat < 10 ∧ 10 ≤ ((1010 : U32) - running.sched.actLastMs).toNat := by
  decide

/-- Each end of phase 6: forced, moved, and nothing sent. -/
theorem test_witness_TickDrives :
    see (fun t => t.fs.state) (exec (.tick 1009 [] none words false) (fsAt .active 0)) = some .active ∧
      see (fun t => (t.fs.state, t.ports.actSet)) (exec (.tick 1009 [] none words false) running) =
        some (.inactive, none) ∧
      see (fun t => t.fs.state) (exec (.tick 1010 [] none words false) running) = some .inactive := by decide +kernel

/-- A destination of 23 bytes and one of 22. -/
theorem test_witness_TickSends :
    23 ≤ { small with params := { params with txbufSize := 23 } }.params.txbufSize ∧
      { small with params := { params with txbufSize := 22 } }.params.txbufSize < 23 ∧
      { running with params := { params with tlmIntervalMs := 6 } }.params.linkEnd = .actuator := by decide

theorem test_witness_TicksAndSubmits :
    (small.setRequests ([Instr.netSubmit 1 2, .tick 1 [] none words false].map encode)).requests =
        [Instr.netSubmit 1 2, .tick 1 [] none words false].map encode ∧
      small.params.linkEnd = .actuator ∧ slewRatesAllowed small.params = true ∧
      ∀ i ∈ [Instr.netSubmit 1 2, .tick 1 [] none words false],
        i.wf = true ∧ (unitOf i = .sched ∨ .networkAgent ∈ performers i) := by decide

/-- A store that differs above the cursor. -/
theorem test_witness_FirstTick :
    small.params.linkEnd = .actuator ∧ slewRatesAllowed small.params = true ∧ small.rx.mem.wf = true ∧
      Memory.wf [(5, 0xAA)] = true ∧ (∀ o, o < small.rx.cur → readCell [(5, 0xAA)] o = small.readRx o) ∧ small.sched.seeded = false ∧ small.fs.seeded = false ∧
      small.live.slotFull = false ∧ small.live.radioLive = false ∧ small.live.netLastCmdMs = 0 :=
  ⟨rfl, by decide, rfl, by decide, fun o h => absurd h (Nat.not_lt_zero o), rfl, rfl, rfl, rfl, rfl⟩

/-- The smallest capacity, and rates of zero and of the largest finite value. -/
theorem test_witness_FirstActuator :
    paramsAllowed { params with cap := 208, slewRateThr := 0x7F7FFFFF } = true ∧
      { params with cap := 208, slewRateThr := 0x7F7FFFFF }.linkEnd = .actuator := by decide

end Sys2Proof.Tests
end

section
/-! SUPPORT. CRC16 (`40_crc16.md` R90 to R95). The 16-bit shift register never loses information: each iteration of R90 is
one-to-one, so two bytes fed one after another, being sixteen iterations over their exclusive or with the register, reach
0 only where the register held exactly those two bytes. That is R95. -/

namespace Sys2Proof.Machine

/-! ## The three operations -/

theorem exec_crcInit (s : State) : exec .crcInit s = .next (s.setCrcAcc 0xFFFF) := rfl

theorem exec_crcByte (b : Byte) (s : State) :
    exec (.crcByte b) s = .next ((s.setCrcAcc (crc16Byte s.crcAcc b)).setResult (.crc (crc16Byte s.crcAcc b))) := rfl

theorem exec_crcRange (bytes : List Byte) (s : State) :
    exec (.crcRange bytes) s = .next (s.setResult (.crc (crc16 bytes))) := rfl

/-! ## The iteration -/

/-- One iteration of R90 with the low bit tested by a mask in place of a bit access. -/
theorem crcShift_eq_maskedLowBit (c : U16) :
    crcShift c = if c &&& 1 = 1 then (c >>> 1) ^^^ 0xA001 else c >>> 1 := by
  have hmask : c.getLsbD 0 = true ↔ c &&& 1 = 1 := by
    rw [show (1 : U16) = 1#16 from rfl, BitVec.and_one_eq_setWidth_ofBool_getLsbD]
    cases c.getLsbD 0 <;> decide
  simp only [crcShift, hmask]

theorem crcShifts_eq_iterate (n : Nat) : crcShifts n = crcShift^[n] := by
  induction n with
  | zero => rfl
  | succ n ih => rw [Function.iterate_succ, ← ih]; rfl

theorem crcShifts_add (m n : Nat) (c : U16) : crcShifts (m + n) c = crcShifts m (crcShifts n c) := by
  simp only [crcShifts_eq_iterate, Function.iterate_add_apply]

@[simp] theorem crcShifts_zero (n : Nat) : crcShifts n 0 = 0 := by
  rw [crcShifts_eq_iterate]
  exact Function.iterate_fixed (by decide) n

/-- The shifted value has bit 15 clear and `0xA001` has it set, so a 0 can only come from shifting. -/
theorem eq_zero_of_crcShift_eq_zero {c : U16} (h : crcShift c = 0) : c = 0 := by
  have hshift : (c >>> 1).toNat = c.toNat / 2 := by
    rw [BitVec.toNat_ushiftRight, Nat.shiftRight_eq_div_pow]
  have hlt := c.isLt
  unfold crcShift at h
  split at h
  case isTrue =>
    rw [BitVec.xor_eq_zero_iff.mp h] at hshift
    change 0xA001 = c.toNat / 2 at hshift
    omega
  case isFalse hlow =>
    rw [h] at hshift
    change 0 = c.toNat / 2 at hshift
    have heven : c.toNat % 2 ≠ 1 := by
      simpa [BitVec.getLsbD, Nat.testBit_zero] using hlow
    exact BitVec.eq_of_toNat_eq (show c.toNat = 0 by omega)

theorem crcShift_injective : Function.Injective crcShift := fun a b h =>
  BitVec.xor_eq_zero_iff.mp <| eq_zero_of_crcShift_eq_zero <| by
    rw [crcShift_xor, h]; exact BitVec.xor_self

theorem crcShifts_bijective (n : Nat) : Function.Bijective (crcShifts n) := by
  rw [crcShifts_eq_iterate]
  exact Finite.injective_iff_bijective.mp (crcShift_injective.iterate n)

/-! ## A word's two bytes -/

theorem le16_eq_xor (lo hi : Byte) : le16 lo hi = lo.zeroExtend 16 ^^^ (hi ++ (0 : Byte)) := by
  refine BitVec.eq_of_getLsbD_eq fun i hi16 => ?_
  have happ (x : Byte) : (hi ++ x).getLsbD i = if i < 8 then x.getLsbD i else hi.getLsbD (i - 8) :=
    BitVec.getLsbD_append
  rw [le16, BitVec.getLsbD_xor, happ, happ]
  by_cases hlow : i < 8
  · simp [hlow, hi16]
  · simp [hlow, BitVec.getLsbD_of_ge lo i (by omega)]

theorem word_xor_lowByte (c : U16) : c ^^^ (lowByte c).zeroExtend 16 = highByte c ++ (0 : Byte) := by
  conv_lhs => arg 1; rw [← le16_bytes c, le16_eq_xor, BitVec.xor_comm]
  rw [BitVec.xor_assoc, BitVec.xor_self, BitVec.xor_zero]

theorem zeroExtend_highByte (c : U16) : (highByte c).zeroExtend 16 = c >>> 8 := by
  have hlt := c.isLt
  refine BitVec.eq_of_toNat_eq ?_
  simp only [highByte, BitVec.truncate_eq_setWidth, BitVec.toNat_setWidth, BitVec.extractLsb'_toNat,
    BitVec.toNat_ushiftRight, Nat.shiftRight_eq_div_pow]
  omega

theorem le16_bijective : Function.Bijective fun p : Byte × Byte => le16 p.1 p.2 :=
  Function.bijective_iff_has_inverse.mpr
    ⟨fun v => (lowByte v, highByte v), fun p => by simp, fun v => by simp⟩

theorem xor_bijective (c : U16) : Function.Bijective (c ^^^ ·) :=
  Function.Involutive.bijective fun x => by
    rw [← BitVec.xor_assoc, BitVec.xor_self, BitVec.zero_xor]

/-! ## Two bytes in a row -/

theorem crc16Byte_lowByte (c : U16) : crc16Byte c (lowByte c) = c >>> 8 := by
  rw [crc16Byte, word_xor_lowByte, crcShifts_of_low_zero, zeroExtend_highByte]

theorem crc16Byte_highByte (c : U16) : crc16Byte (c >>> 8) (highByte c) = 0 := by
  rw [crc16Byte, zeroExtend_highByte, BitVec.xor_self]
  exact crcShifts_zero 8

/-- The second byte can be taken in eight iterations early, above the first: two bytes are one word. -/
theorem crc16Byte_pair (c : U16) (lo hi : Byte) :
    crc16Byte (crc16Byte c lo) hi = crcShifts 16 (c ^^^ le16 lo hi) :=
  calc crc16Byte (crc16Byte c lo) hi
      = crcShifts 8 (crcShifts 8 (c ^^^ lo.zeroExtend 16) ^^^ crcShifts 8 (hi ++ (0 : Byte))) := by
        rw [crcShifts_of_low_zero]; rfl
    _ = crcShifts 16 (c ^^^ lo.zeroExtend 16 ^^^ (hi ++ (0 : Byte))) := by
        rw [← crcShifts_xor, ← crcShifts_add]
    _ = crcShifts 16 (c ^^^ le16 lo hi) := by
        rw [BitVec.xor_assoc, ← le16_eq_xor]

theorem crc16Byte_pair_bijective (c : U16) :
    Function.Bijective fun p : Byte × Byte => crc16Byte (crc16Byte c p.1) p.2 := by
  simp only [crc16Byte_pair]
  exact (crcShifts_bijective 16).comp ((xor_bijective c).comp le16_bijective)

theorem crc16Byte_pair_eq_zero_iff (c : U16) (lo hi : Byte) :
    crc16Byte (crc16Byte c lo) hi = 0 ↔ le16 lo hi = c := by
  rw [crc16Byte_pair, ← crcShifts_zero 16, (crcShifts_bijective 16).injective.eq_iff]
  exact BitVec.xor_eq_zero_iff.trans eq_comm

/-! ## The residue over a byte string -/

theorem slice_succ {S : List Byte} {a b : Nat} (hab : a ≤ b) (hb : b < S.length) :
    slice S a (b + 1) = slice S a b ++ [byteAt S b] := by
  have hlen : a ≤ (S.take b).length := by rw [List.length_take]; omega
  rw [slice, slice, byteAt, List.getD_eq_getElem _ _ hb, ← List.take_concat_get' S b hb, List.drop_append_of_le_length hlen]

/-- R95 for any range followed by two bytes: the residue is 0 exactly where those bytes are the range's CRC. -/
theorem crc16_slice_add_two_eq_zero_iff {S : List Byte} {a b : Nat} (hab : a ≤ b) (hb : b + 2 ≤ S.length) :
    crc16 (slice S a (b + 2)) = 0 ↔ wordAt S b = crc16 (slice S a b) := by
  rw [slice_succ (b := b + 1) (by omega) (by omega), slice_succ hab (by omega), List.append_assoc, crc16_append]
  exact crc16Byte_pair_eq_zero_iff _ _ _

/-! ## The statements -/

/-- Settles O13: the pair of CRC bytes is one word fed to a register of one-to-one iterations. -/
theorem crcResidueFormAcceptsTheSameFrames : Obligations.CrcResidueFormAcceptsTheSameFrames := by
  refine ⟨crc16Byte_lowByte, crc16Byte_highByte, crc16Byte_pair_bijective, fun S hS => ?_⟩
  have hres := crc16_slice_add_two_eq_zero_iff (S := S) (a := 2) (b := 6 + (wordAt S 4).toNat) (by omega) (by omega)
  rw [show 6 + (wordAt S 4).toNat + 2 = 8 + (wordAt S 4).toNat by omega] at hres
  exact hres.symm

/-- Settles O11: the statement's byte step is the model's, with the low bit tested by a mask and the loop an iterate. -/
theorem crcByteAndRangeFollowTheBitwiseRule : Obligations.CrcByteAndRangeFollowTheBitwiseRule := by
  unfold Obligations.CrcByteAndRangeFollowTheBitwiseRule
  intro byteStep
  have hstep : byteStep = crc16Byte := by
    funext c b
    rw [crc16Byte, crcShifts_eq_iterate, funext crcShift_eq_maskedLowBit]
  rw [hstep]
  exact ⟨fun s b => exec_crcByte b s, fun s bytes => exec_crcRange bytes s⟩

/-- Settles O10: the one-register update is the whole operation. -/
theorem crcInitSetsTheAccumulator : Obligations.CrcInitSetsTheAccumulator := exec_crcInit

end Sys2Proof.Machine
end

section
/-! SUPPORT. CODEC (`41_frame_codec.md` R100 to R112). Each operation is its function on the result port; each function is
said branch by branch, in the order of the spec's checks, and the five parses are one sequence whose payload offset `o` is
the frame offset `6 + o`. -/

namespace Sys2Proof.Machine

/-! ## The operations -/

theorem exec_codecBuild {P : List Byte} (hP : P.length ≤ 65535) (T : MessageType) (d : Nat) (s : State) :
    exec (.codecBuild T P d) s = .next (s.setResult (.built (buildFrame T P d))) := if_pos hP

theorem exec_codecHdr (S : List Byte) (s : State) :
    exec (.codecHdr S) s = .next (s.setResult (.header (checkHeader S))) := rfl

theorem exec_codecLen (S : List Byte) (s : State) :
    exec (.codecLen S) s = .next (s.setResult (.length (checkLength S))) := rfl

theorem exec_codecCrcok (S : List Byte) (s : State) :
    exec (.codecCrcok S) s = .next (s.setResult (.crcOk (crcOk S))) := rfl

/-- The parse operation of each type. -/
def codecParse (S : List Byte) : MessageType → Instr
  | .command => .codecParseCmd S
  | .telemetry => .codecParseTlm S
  | .ping => .codecParsePing S
  | .pong => .codecParsePong S
  | .log => .codecParseLog S

theorem exec_codecParse (S : List Byte) (T : MessageType) (s : State) :
    exec (codecParse S T) s = .next (s.setResult (.parsed (parseFrame T S))) := by
  cases T <;> rfl

theorem exec_codecEncCmd_of_inDomain {a b : F32} (ha : axisInDomain a = true) (hb : axisInDomain b = true)
    (seq : U16) (s : State) :
    exec (.codecEncCmd seq a b) s = .next (s.setResult (.payload (encodeCommand seq a b))) :=
  if_pos (Bool.and_eq_true_iff.mpr ⟨ha, hb⟩)

theorem exec_codecEncCmd_of_outside {a b : F32} (h : axisInDomain a = false ∨ axisInDomain b = false)
    (seq : U16) (s : State) : exec (.codecEncCmd seq a b) s = .refused .axisOutsideDomain :=
  if_neg (ne_true_of_eq_false (Bool.and_eq_false_iff.mpr h))

theorem exec_codecEncTlm (seq : U16) (status : Byte) (w : Sensors) (s : State) :
    exec (.codecEncTlm seq status w) s = .next (s.setResult (.payload (encodeTelemetry seq status w))) := rfl

theorem exec_codecEncLog (text : List Byte) (s : State) :
    exec (.codecEncLog text) s = .next (s.setResult (.payload (encodeLog text))) := rfl

/-! ## The fields of a range -/

theorem byteAt_slice {a b i : Nat} (h : a + i < b) (S : List Byte) : byteAt (slice S a b) i = byteAt S (a + i) := by
  simp only [byteAt, slice, List.getD_eq_getElem?_getD, List.getElem?_drop, List.getElem?_take_of_lt h]

theorem wordAt_slice {a b i : Nat} (h : a + i + 1 < b) (S : List Byte) : wordAt (slice S a b) i = wordAt S (a + i) := by
  rw [wordAt, byteAt_slice (by omega), byteAt_slice (i := i + 1) (by omega)]; rfl

/-- R105 at frame offsets. -/
theorem decodePayload_command_slice {L : Nat} (hL : L = 7) (S : List Byte) :
    decodePayload .command (slice S 6 (6 + L)) =
      .command { seq := wordAt S 6, throttle := rawToAxis (wordAt S 8), steering := rawToAxis (wordAt S 10) } := by
  simp [decodePayload, decodeCommand, wordAt_slice, hL]

/-- R106 at frame offsets. -/
theorem decodePayload_telemetry_slice {L : Nat} (hL : L = 15) (S : List Byte) :
    decodePayload .telemetry (slice S 6 (6 + L)) =
      .telemetry
        { seq := wordAt S 6, status := byteAt S 8
          sensors :=
            { ax := wordAt S 9, ay := wordAt S 11, az := wordAt S 13
              gx := wordAt S 15, gy := wordAt S 17, gz := wordAt S 19 } } := by
  simp [decodePayload, decodeTelemetry, wordAt_slice, byteAt_slice, hL]

/-! ## The checks, branch by branch -/

section
variable {S : List Byte}

theorem checkHeader_of_short (h : S.length < 4) : checkHeader S = .err .insufficientData := if_pos h

theorem checkHeader_of_wrongPrefix (h4 : 4 ≤ S.length) (hp : ¬ (byteAt S 0 = 0xAA ∧ byteAt S 1 = 0x55)) :
    checkHeader S = .err .invalidPrefix := by
  rw [checkHeader, if_neg h4.not_gt, if_pos (not_and_or.mp hp)]

theorem checkHeader_of_wrongVersion (h4 : 4 ≤ S.length) (hp : byteAt S 0 = 0xAA ∧ byteAt S 1 = 0x55)
    (hv : byteAt S 2 ≠ 0x01) : checkHeader S = .err .invalidVersion := by
  rw [checkHeader, if_neg h4.not_gt, if_neg (not_or.mpr ⟨not_not.mpr hp.1, not_not.mpr hp.2⟩), if_pos hv]

theorem checkHeader_of_unassignedType (h4 : 4 ≤ S.length) (hp : byteAt S 0 = 0xAA ∧ byteAt S 1 = 0x55)
    (hv : byteAt S 2 = 0x01) (ht : typeOfCode (byteAt S 3) = none) : checkHeader S = .err .invalidType := by
  rw [checkHeader, if_neg h4.not_gt, if_neg (not_or.mpr ⟨not_not.mpr hp.1, not_not.mpr hp.2⟩),
    if_neg (not_not.mpr hv), ht]

theorem checkLength_of_short (h : S.length < 6) : checkLength S = .err .insufficientData := if_pos h

theorem checkLength_of_present (h : 6 ≤ S.length) : checkLength S = .ok (wordAt S 4) := if_neg h.not_gt

theorem crcOk_of_short (h : S.length < 6) : crcOk S = false := if_pos h

theorem crcOk_of_incomplete (h : S.length < 8 + (wordAt S 4).toNat) : crcOk S = false := by
  simp [crcOk, h]

/-! ## The parse sequence -/

variable {T : MessageType}

theorem parseFrame_of_header_err {e : ParseError} (h : checkHeader S = .err e) : parseFrame T S = .err e := by
  rw [parseFrame, h]

/-- Steps 1 and 2 of R104 give one error for a type byte that is not the expected one, assigned or not. -/
theorem parseFrame_of_wrongType (h4 : 4 ≤ S.length) (hp : byteAt S 0 = 0xAA ∧ byteAt S 1 = 0x55)
    (hv : byteAt S 2 = 0x01) (ht : byteAt S 3 ≠ typeCode T) : parseFrame T S = .err .invalidType := by
  cases hfound : typeOfCode (byteAt S 3) with
  | none => exact parseFrame_of_header_err (checkHeader_of_unassignedType h4 hp hv hfound)
  | some found =>
    have hcode := typeOfCode_some hfound
    have hne : found ≠ T := fun h => ht (h ▸ hcode)
    rw [parseFrame, checkHeader_of h4 hp.1 hp.2 hv hcode]
    exact if_pos hne

/-- Steps 3 to 6 of R104, once the header is that of the expected type. -/
theorem parseFrame_of_header_ok (h : checkHeader S = .ok T) :
    parseFrame T S =
      if S.length < 6 then .err .insufficientData
      else if ¬ lengthAllowed T (wordAt S 4).toNat then .err .invalidPayloadLength
      else if S.length < 8 + (wordAt S 4).toNat then .err .insufficientData
      else if crc16 (slice S 2 (6 + (wordAt S 4).toNat)) ≠ wordAt S (6 + (wordAt S 4).toNat) then .err .crcMismatch
      else .ok (decodePayload T (slice S 6 (6 + (wordAt S 4).toNat)), 8 + (wordAt S 4).toNat) := by
  rw [parseFrame, h]
  by_cases h6 : S.length < 6
  · simp [checkLength_of_short h6, h6]
  by_cases h8 : S.length < 8 + (wordAt S 4).toNat
  · simp [checkLength_of_present (not_lt.mp h6), h6, h8]
  · simp [checkLength_of_present (not_lt.mp h6), crcOk_of_present (not_lt.mp h8), h6, h8]

end

/-! ## The statements -/

/-- Settles O15: the two ways a build can end, and the fields of a frame that is written out. -/
theorem buildWritesEveryFieldOrReportsTooSmall : Obligations.BuildWritesEveryFieldOrReportsTooSmall := by
  intro s T P d hP
  rw [exec_codecBuild hP]
  rcases buildFrame_cases T P d with ⟨hsmall, hbuild⟩ | ⟨hfits, hbuild⟩
  · exact ⟨fun _ => by rw [hbuild]; rfl, fun hd => absurd hsmall hd.not_gt⟩
  · generalize hcrc : crc16 ((headerBytes T (BitVec.ofNat 16 P.length) ++ P).drop 2) = c at hbuild
    have hlength := frame_length_field T P c []
    have hpayload := frame_payload T P c []
    have hcovered := frame_covered T P c []
    have hstored := frame_crc T P c []
    rw [List.append_nil] at hlength hpayload hcovered hstored
    refine ⟨fun hd => absurd hd hfits.not_gt, fun _ => ⟨frameBytes T P c, ?_, ?_, rfl, hlength, hpayload, ?_⟩⟩
    · rw [hbuild]; rfl
    · rw [frameBytes_length]; omega
    · rw [hstored, hcovered, hcrc]

/-- Settles O16: the checks of R101 in order; a code outside 1 to 5 is one that no type has. -/
theorem headerCheckReportsTheFirstFailure : Obligations.HeaderCheckReportsTheFirstFailure := by
  intro s S
  refine ⟨checkHeader S, exec_codecHdr S s, checkHeader_of_short, fun h4 => ?_⟩
  refine ⟨checkHeader_of_wrongPrefix h4, fun hp => ?_⟩
  refine ⟨checkHeader_of_wrongVersion h4 hp, fun hv => ⟨fun ht => ?_, fun T ht => ?_⟩⟩
  · exact checkHeader_of_unassignedType h4 hp hv (typeOfCode_none.mpr ht)
  · exact checkHeader_of h4 hp.1 hp.2 hv ht

/-- Settles O17: each branch of the two checks. -/
theorem lengthAndCrcChecks : Obligations.LengthAndCrcChecks := by
  intro s S
  rw [exec_codecLen, exec_codecCrcok]
  refine ⟨fun hshort => ?_, fun h6 => ⟨?_, fun hcut => ?_, fun h8 => ?_⟩⟩
  · rw [checkLength_of_short hshort, crcOk_of_short hshort]
    exact ⟨rfl, rfl⟩
  · rw [checkLength_of_present h6]; rfl
  · rw [crcOk_of_incomplete hcut]; rfl
  · rw [crcOk_of_present h8]

/-- Settles O18: one sequence for the five types; only what length fits and how the payload reads differ by type. -/
theorem parseFollowsTheSequence : Obligations.ParseFollowsTheSequence := by
  intro s S T i hmem
  obtain rfl : i = codecParse S T := by
    simp only [List.mem_cons, Prod.mk.injEq, List.not_mem_nil, or_false] at hmem
    rcases hmem with ⟨rfl, rfl⟩ | ⟨rfl, rfl⟩ | ⟨rfl, rfl⟩ | ⟨rfl, rfl⟩ | ⟨rfl, rfl⟩ <;> rfl
  refine ⟨parseFrame T S, exec_codecParse S T s, ?_⟩
  intro L lengthFits value
  have hfits : lengthAllowed T L = true ↔ lengthFits := by
    cases T <;> exact decide_eq_true_iff
  have hvalue (h : lengthFits) : decodePayload T (slice S 6 (6 + L)) = value := by
    cases T with
    | command => exact decodePayload_command_slice h S
    | telemetry => exact decodePayload_telemetry_slice h S
    | ping | pong | log => rfl
  refine ⟨fun h => parseFrame_of_header_err (checkHeader_of_short h), fun h4 => ?_⟩
  refine ⟨fun h => parseFrame_of_header_err (checkHeader_of_wrongPrefix h4 h), fun hp => ?_⟩
  refine ⟨fun h => parseFrame_of_header_err (checkHeader_of_wrongVersion h4 hp h), fun hv => ?_⟩
  refine ⟨parseFrame_of_wrongType h4 hp hv, fun ht => ?_⟩
  rw [parseFrame_of_header_ok (checkHeader_of h4 hp.1 hp.2 hv ht)]
  refine ⟨fun h => if_pos h, fun h6 => ?_⟩
  rw [if_neg h6.not_gt]
  refine ⟨fun h => if_pos (mt hfits.mp h), fun hfit => ?_⟩
  rw [if_neg (not_not.mpr (hfits.mpr hfit))]
  refine ⟨fun h => if_pos h, fun h8 => ?_⟩
  rw [if_neg h8.not_gt]
  refine ⟨fun h => if_pos h, fun hcrc => ?_⟩
  rw [if_neg (not_not.mpr hcrc), hvalue hfit]

/-- Settles O20: the layouts are the model's payloads byte by byte, and the operand condition is the one branch. -/
theorem encodersWriteTheirLayout : Obligations.EncodersWriteTheirLayout := by
  intro s
  refine ⟨fun seq a b => ⟨fun ha hb => ?_, fun h => ?_⟩, fun seq status w => ?_, fun text => ?_⟩
  · exact exec_codecEncCmd_of_inDomain ha hb seq s
  · exact exec_codecEncCmd_of_outside h seq s
  · exact exec_codecEncTlm seq status w s
  · refine ⟨encodeLog text, exec_codecEncLog text s, ?_, List.take_prefix _ _⟩
    exact (List.length_take ..).trans (Nat.min_comm ..)

end Sys2Proof.Machine
end

section
/-! SUPPORT. RXBUF (`42_receive_buffer.md` R130 to R137). `RX.PUSH` is a write of the bytes that fit; `RX.EXTRACT` is said
branch by branch, in the order of the four states, on the content from the lowest `AA 55` on; a rejection is the one branch
that skips a byte. -/

namespace Sys2Proof.Machine

/-! ## The operations -/

theorem exec_rxPush (bytes : List Byte) (s : State) :
    exec (.rxPush bytes) s =
      .next ((s.setRx (rxAppend s.params.cap bytes s.rx).1).setResult
        (.taken (min bytes.length (s.params.cap - s.rx.cur)))) := rfl

theorem exec_rxExtract (T : MessageType) (s : State) :
    exec (.rxExtract T) s =
      .next ((s.setRx (rxTryExtract s.params T s.rx).1).setResult
        (.extracted (rxTryExtract s.params T s.rx).2)) := rfl

/-! ## The appended bytes -/

section
variable {rx : RxBuf} (hwf : rx.mem.wf = true) (cap : Nat) (bytes : List Byte)
include hwf

theorem rxAppend_read_new {j : Nat} (hj : j < min bytes.length (cap - rx.cur)) :
    readCell (rxAppend cap bytes rx).1.mem (rx.cur + j) = bytes.getD j 0 := by
  have hin : rx.cur ≤ rx.cur + j ∧
      rx.cur + j < rx.cur + (bytes.take (min bytes.length (cap - rx.cur))).length := by
    rw [List.length_take]; omega
  simp only [rxAppend, readCell_writeRun _ _ _ hwf, if_pos hin, Nat.add_sub_cancel_left,
    List.getD_eq_getElem?_getD, List.getElem?_take_of_lt hj]

theorem rxAppend_read_outside {o : Nat} (ho : o < rx.cur ∨ rx.cur + min bytes.length (cap - rx.cur) ≤ o) :
    readCell (rxAppend cap bytes rx).1.mem o = readCell rx.mem o := by
  have hout : ¬ (rx.cur ≤ o ∧ o < rx.cur + (bytes.take (min bytes.length (cap - rx.cur))).length) := by
    rw [List.length_take]; omega
  simp only [rxAppend, readCell_writeRun _ _ _ hwf, if_neg hout]

end

/-! ## Prefixes -/

/-- The `55` of an `AA 55` is not what a byte string reads beyond its end. -/
theorem prefixAt_iff_bytes (S : List Byte) (i : Nat) :
    PrefixAt S i ↔ byteAt S i = 0xAA ∧ byteAt S (i + 1) = 0x55 := by
  refine ⟨fun h => h.2, fun h => ⟨?_, h⟩⟩
  by_contra hend
  have hzero : byteAt S (i + 1) = 0 := List.getD_eq_default _ _ (by omega)
  rw [h.2] at hzero
  exact absurd hzero (by decide)

theorem prefixAt_content (rx : RxBuf) (i : Nat) :
    PrefixAt rx.content i ↔ i + 1 < rx.cur ∧ byteAt rx.content i = 0xAA ∧ byteAt rx.content (i + 1) = 0x55 := by
  rw [PrefixAt, content_length]

/-! ## State 1, branch by branch -/

section
variable {p : Params} {T : MessageType} {rx : RxBuf}

theorem rxTryExtract_of_noPrefix (h : ∀ i, ¬ PrefixAt rx.content i) :
    rxTryExtract p T rx =
      if rx.cur = p.cap then (rxShift rx.cur rx, .noFrame .reset) else (rx, .noFrame .noPrefix) := by
  rcases rxTryExtract_cases p T rx with ⟨_, ⟨hfull, e⟩ | ⟨hroom, e⟩⟩ | ⟨i, _, hi, _⟩
  · rw [e, if_pos hfull]
  · rw [e, if_neg hroom]
  · exact absurd hi (h i)

/-- The attempt is made on a buffer that holds the content from the lowest `AA 55` on. -/
theorem rxTryExtract_of_firstPrefix {i : Nat} (hi : PrefixAt rx.content i)
    (hfirst : ∀ j, j < i → ¬ PrefixAt rx.content j) :
    ∃ rx' : RxBuf, rx'.content = rx.content.drop i ∧ rxTryExtract p T rx = rxAttempt p T rx' := by
  rcases rxTryExtract_cases p T rx with ⟨hnone, _⟩ | ⟨i', rx', hi', hfirst', _, _, hcontent, _, e⟩
  · exact absurd hi (hnone i)
  · obtain rfl : i' = i := by
      rcases Nat.lt_trichotomy i' i with hlt | heq | hgt
      · exact absurd hi' (hfirst i' hlt)
      · exact heq
      · exact absurd hi (hfirst' i hgt)
    exact ⟨rx', hcontent, e⟩

/-! ## States 2 to 4, branch by branch -/

theorem rxAttempt_of_short (h : rx.content.length < 4) : rxAttempt p T rx = (rx, .noFrame .headerPending) := by
  rw [content_length] at h
  exact if_pos h

/-- The peek of R134 reads the content. -/
theorem readCell_three_of_header (h4 : 4 ≤ rx.content.length) :
    ¬ rx.cur < 4 ∧ readCell rx.mem 3 = byteAt rx.content 3 := by
  rw [content_length] at h4
  exact ⟨h4.not_gt, (byteAt_content rx h4).symm⟩

theorem rxAttempt_of_otherType (h4 : 4 ≤ rx.content.length) (ht : byteAt rx.content 3 ≠ typeCode T) :
    rxAttempt p T rx = (rx, .noFrame .typeMismatch) := by
  obtain ⟨hlong, hpeek⟩ := readCell_three_of_header h4
  rw [rxAttempt, if_neg hlong, hpeek, if_pos ht]

theorem rxAttempt_of_parse_ok {v : FrameValue} {n : Nat} (h4 : 4 ≤ rx.content.length)
    (ht : byteAt rx.content 3 = typeCode T) (hparse : parseFrame T rx.content = .ok (v, n)) :
    rxAttempt p T rx = (rxShift n rx, .frame v) := by
  obtain ⟨hlong, hpeek⟩ := readCell_three_of_header h4
  rw [rxAttempt, if_neg hlong, hpeek, if_neg (not_not.mpr ht), hparse]

theorem rxAttempt_of_parse_err {e : ParseError} (h4 : 4 ≤ rx.content.length)
    (ht : byteAt rx.content 3 = typeCode T) (hparse : parseFrame T rx.content = .err e) :
    rxAttempt p T rx =
      if e = .insufficientData ∧ p.skipOnInsufficient = false then (rx, .noFrame .partialFrame)
      else (rxShift 1 rx, .noFrame (.rejected e)) := by
  obtain ⟨hlong, hpeek⟩ := readCell_three_of_header h4
  rw [rxAttempt, if_neg hlong, hpeek, if_neg (not_not.mpr ht), hparse]

/-! ## Rejections -/

/-- What a rejected attempt has found (R136), and the byte it skips. -/
theorem rxAttempt_rejected {e : ParseError} (h : (rxAttempt p T rx).2 = .noFrame (.rejected e)) :
    byteAt rx.content 3 = typeCode T ∧ parseFrame T rx.content = .err e ∧
      (e ≠ .insufficientData ∨ p.skipOnInsufficient = true) ∧ (rxAttempt p T rx).1 = rxShift 1 rx := by
  rcases rxAttempt_cases p T rx with
    ⟨_, e'⟩ | ⟨_, _, e'⟩ | ⟨_, _, _, _, _, e'⟩ | ⟨_, _, _, _, e'⟩ | ⟨_, _, ht, hparse, hskip, e'⟩
  all_goals rw [e'] at h ⊢
  all_goals cases h
  exact ⟨ht, hparse, hskip, rfl⟩

/-- A rejected extraction is a rejected attempt at the lowest `AA 55`: that `AA` is lost and all before it. -/
theorem rxTryExtract_rejected {e : ParseError} (h : (rxTryExtract p T rx).2 = .noFrame (.rejected e)) :
    ∃ i, PrefixAt rx.content i ∧ (∀ j, j < i → ¬ PrefixAt rx.content j) ∧
      byteAt (rx.content.drop i) 3 = typeCode T ∧ parseFrame T (rx.content.drop i) = .err e ∧
      (e ≠ .insufficientData ∨ p.skipOnInsufficient = true) ∧
      (rxTryExtract p T rx).1.content = rx.content.drop (i + 1) := by
  rcases rxTryExtract_cases p T rx with ⟨_, ⟨_, e'⟩ | ⟨_, e'⟩⟩ | ⟨i, rx', hi, hfirst, _, _, hcontent, _, e'⟩
  · rw [e'] at h; cases h
  · rw [e'] at h; cases h
  · rw [e'] at h ⊢
    obtain ⟨ht, hparse, hskip, hbuf⟩ := rxAttempt_rejected h
    rw [hcontent] at ht hparse
    refine ⟨i, hi, hfirst, ht, hparse, hskip, ?_⟩
    rw [hbuf, rxShift_content, hcontent, List.drop_drop]

/-- The errors R136 names: with `AA 55` in front and the expected type behind it, no check of either fails. -/
theorem parseFrame_err_of_candidate {S : List Byte} {e : ParseError} (hparse : parseFrame T S = .err e)
    (hp : byteAt S 0 = 0xAA ∧ byteAt S 1 = 0x55) (ht : byteAt S 3 = typeCode T) (hne : e ≠ .insufficientData) :
    e = .invalidVersion ∨ e = .invalidPayloadLength ∨ e = .crcMismatch := by
  rcases parseFrame_err hparse hp ht with ⟨he, _⟩ | ⟨he, _⟩ | ⟨he, _⟩ | ⟨he, _, _⟩
  · exact absurd he hne
  · exact .inl he
  · exact .inr (.inl he)
  · exact .inr (.inr he)

end

/-! ## The statements -/

/-- Settles O25: the push is one run of writes from the cursor on, and the invariant makes the store one that reads back
what was written. -/
theorem pushAppendsWhatFits : Obligations.PushAppendsWhatFits := by
  intro s bytes hinv k
  obtain ⟨hwf, _, _⟩ := (RxBuf.inv_iff _ _).mp hinv
  refine ⟨_, exec_rxPush bytes s, rfl, rfl, fun j hj => ?_, fun o ho => ?_, ?_⟩
  · exact rxAppend_read_new hwf s.params.cap bytes hj
  · exact rxAppend_read_outside hwf s.params.cap bytes ho
  · exact rxAppend_content s.params.cap bytes hwf

/-- Settles O26: the branches of the scan, then those of the attempt on what stands from the lowest `AA 55` on. -/
theorem extractFollowsTheFourStates : Obligations.ExtractFollowsTheFourStates := by
  intro s T
  refine ⟨_, _, exec_rxExtract T s, ?_⟩
  intro C prefixAt
  have hprefix (i : Nat) : prefixAt i ↔ PrefixAt s.rx.content i := (prefixAt_content s.rx i).symm
  simp only [hprefix]
  refine ⟨fun hnone => ?_, fun i hi hfirst => ?_⟩
  · rw [rxTryExtract_of_noPrefix hnone]
    refine ⟨fun hfull => ?_, fun hroom => ?_⟩
    · rw [if_pos hfull]
      exact ⟨rfl, Nat.sub_self _⟩
    · rw [if_neg hroom]
      exact ⟨rfl, rfl⟩
  · obtain ⟨rx', hcontent, hattempt⟩ := rxTryExtract_of_firstPrefix (p := s.params) (T := T) hi hfirst
    rw [hattempt, ← hcontent]
    refine ⟨fun hshort => ?_, fun h4 => ⟨fun hother => ?_, fun ht => ⟨fun v n hok => ?_, fun e herr => ?_⟩⟩⟩
    · rw [rxAttempt_of_short hshort]
      exact ⟨rfl, rfl⟩
    · rw [rxAttempt_of_otherType h4 hother]
      exact ⟨rfl, rfl⟩
    · rw [rxAttempt_of_parse_ok h4 ht hok]
      exact ⟨rfl, rxShift_content n rx'⟩
    · rw [rxAttempt_of_parse_err h4 ht herr]
      refine ⟨fun he hskip => ?_, fun hreject => ?_⟩
      · rw [if_pos ⟨he, hskip⟩]
        exact ⟨rfl, rfl⟩
      · rw [if_neg fun h => hreject.elim (· h.1) (by simp [h.2])]
        exact ⟨rfl, rxShift_content 1 rx'⟩

/-- Settles O27: a rejection comes from the attempt at the lowest `AA 55`, where that pair and the type cannot be what failed. -/
theorem rejectionSkipsExactlyOneByte : Obligations.RejectionSkipsExactlyOneByte := by
  intro s t T e hskip hexec hresult
  rw [exec_rxExtract] at hexec
  cases hexec
  obtain ⟨i, hi, hfirst, ht, hparse, hwhy, hcontent⟩ := rxTryExtract_rejected (OpResult.extracted.inj hresult)
  obtain ⟨hroom, hAA, h55⟩ := (prefixAt_content s.rx i).mp hi
  refine ⟨?_, i, hAA, h55, fun j hj => ?_, hcontent, ?_, ?_⟩
  · refine parseFrame_err_of_candidate hparse ?_ ht (hwhy.resolve_right (by simp [hskip]))
    rw [byteAt_drop, byteAt_drop]
    exact ⟨hAA, h55⟩
  · rw [← prefixAt_iff_bytes]
    exact hfirst j hj
  · have hlength := congrArg List.length hcontent
    rw [content_length, List.length_drop, content_length] at hlength
    change (rxTryExtract s.params T s.rx).1.cur + (i + 1) = s.rx.cur
    omega
  · change byteAt (rxTryExtract s.params T s.rx).1.content 0 = 0x55
    rw [hcontent, byteAt_drop]
    exact h55

end Sys2Proof.Machine
end

section
/-! SUPPORT. LIVE (`43_liveness_arbitration.md` R150 to R156). The writing operations are one update of the unit's
registers; the reading ones put a function of them on the result port. Arbitration is said for each of its three cases. -/

namespace Sys2Proof.Machine

/-! ## The operations -/

theorem exec_radioPoll (sample : Option Axes) (s : State) :
    exec (.radioPoll sample) s = .next (s.setLive (radioSampled sample s.live)) := rfl

theorem exec_netSubmit (thr steer : F32) (s : State) :
    exec (.netSubmit thr steer) s = .next (s.setLive (slotFilled thr steer s.live)) := rfl

theorem exec_liveEval (now : U32) (s : State) :
    exec (.liveEval now) s =
      .next (s.setResult (.liveness s.live.radioLive (netLive s.params.netTimeoutMs now s.live.netLastCmdMs))) := rfl

theorem exec_arbSelect (now : U32) (s : State) :
    exec (.arbSelect now) s = .next (s.setResult (.selected (arbitrate s.params.netTimeoutMs now s.live))) := rfl

/-! ## The registers -/

theorem radioSampled_some (a : Axes) (r : LiveRegs) :
    radioSampled (some a) r = { r with radioLive := true, radioThr := a.1, radioSteer := a.2 } := rfl

theorem radioSampled_none (r : LiveRegs) : radioSampled none r = { r with radioLive := false } := rfl

/-- A second submit leaves nothing of the first (R151). -/
theorem slotFilled_slotFilled (a b a' b' : F32) (r : LiveRegs) :
    slotFilled a' b' (slotFilled a b r) = slotFilled a' b' r := rfl

/-! ## Network liveness -/

theorem netLive_eq_decide (timeout now last : U32) :
    netLive timeout now last = decide (last ≠ 0 ∧ (now - last).toNat < timeout.toNat) :=
  Bool.eq_iff_iff.mpr ((netLive_iff timeout now last).trans decide_eq_true_iff.symm)

/-- The comparison is strict (R154): at exactly the timeout the network is no longer live. -/
theorem netLive_eq_false_iff (timeout now last : U32) :
    netLive timeout now last = false ↔ last = 0 ∨ timeout.toNat ≤ (now - last).toNat := by
  rw [← Bool.not_eq_true, netLive_iff, Decidable.not_and_iff_or_not, not_not, not_lt]

/-! ## Arbitration -/

section
variable {timeout now : U32} {r : LiveRegs}

/-- R156: whatever the network's registers hold. -/
theorem arbitrate_of_radioLive (h : r.radioLive = true) :
    arbitrate timeout now r = some (r.radioThr, r.radioSteer) := if_pos h

theorem arbitrate_of_network (hradio : r.radioLive = false) (hnet : netLive timeout now r.netLastCmdMs = true) :
    arbitrate timeout now r = some (r.netThr, r.netSteer) := by
  simp [arbitrate, liveness, hradio, hnet]

theorem arbitrate_of_neither (hradio : r.radioLive = false) (hnet : netLive timeout now r.netLastCmdMs = false) :
    arbitrate timeout now r = none := by
  simp [arbitrate, liveness, hradio, hnet]

end

/-! ## The statements -/

/-- Settles O37: the three cases of arbitration, network liveness and its opposite read as R154 writes them. -/
theorem arbitrationPrefersTheRadio : Obligations.ArbitrationPrefersTheRadio := by
  intro s now
  refine ⟨_, exec_arbSelect now s, arbitrate_of_radioLive, fun hradio => ⟨fun hstamp hfresh => ?_, fun hstale => ?_⟩⟩
  · exact arbitrate_of_network hradio ((netLive_iff _ _ _).mpr ⟨hstamp, hfresh⟩)
  · exact arbitrate_of_neither hradio ((netLive_eq_false_iff _ _ _).mpr hstale)

/-- Settles O36: the model's two tests are one decision of R154's formula. -/
theorem livenessIsEvaluatedByTheFormula : Obligations.LivenessIsEvaluatedByTheFormula := by
  intro s now
  rw [exec_liveEval, netLive_eq_decide]

/-- Settles O33: each submit is one fill of the slot, and a fill hides the fill before it. -/
theorem netSubmitOverwritesTheSlot : Obligations.NetSubmitOverwritesTheSlot := by
  intro s a b a' b'
  refine ⟨_, exec_netSubmit a b s, rfl, ?_⟩
  rw [exec_netSubmit, setLive_setLive, setLive_live, slotFilled_slotFilled]
  rfl

/-- Settles O32: a poll with a pair and a poll without one. -/
theorem radioPollSetsLivenessAndValues : Obligations.RadioPollSetsLivenessAndValues := by
  intro s thr steer
  constructor
  · rw [exec_radioPoll, radioSampled_some]
    rfl
  · rw [exec_radioPoll, radioSampled_none]
    rfl

end Sys2Proof.Machine
end

section
/-! SUPPORT. FSAFE (`44_failsafe.md` R170 to R176). The six rows of the transition table are four equations: with a
source the one question is whether the failsafe stood in Active, without a source whether an Inactive one has waited
out the timeout. On a seeded failsafe a row is all that `FS.UPDATE` does. -/

namespace Sys2Proof.Machine

/-! ## The table -/

section
variable {timeout now last : U32} {r : FsRegs}

theorem fsTable_source_of_active (h : r.state = .active) :
    fsTable timeout now last true r = { r with state := .recovering, lastActiveMs := now } := by
  simp [fsTable, h]

theorem fsTable_source_of_not_active (h : r.state ≠ .active) :
    fsTable timeout now last true r = { r with state := .inactive, lastActiveMs := now } := by
  cases hst : r.state with
  | inactive => simp [fsTable, hst]
  | active => exact absurd hst h
  | recovering => simp [fsTable, hst]

/-- The one row without a source that does not end in Active. -/
theorem fsTable_noSource_of_waiting (h : r.state = .inactive) (hwait : (elapsed now last).toNat < timeout.toNat) :
    fsTable timeout now last false r = { r with state := .inactive } := by
  simp [fsTable, h, Nat.not_le.mpr hwait]

/-- Only an Inactive failsafe reads the timeout, and it is inclusive. -/
theorem fsTable_noSource_of_due (hdue : r.state = .inactive → timeout.toNat ≤ (elapsed now last).toNat) :
    fsTable timeout now last false r = { r with state := .active } := by
  cases hst : r.state with
  | inactive => simp [fsTable, hst, hdue hst]
  | active => simp [fsTable, hst]
  | recovering => simp [fsTable, hst]

end

/-- No elapsed time is below the timeout 0, so it is due in every state, at the first update under either policy too
(R173). -/
theorem fsStep_noSource_of_zeroTimeout {p : Params} (h : p.fsTimeoutMs = 0) (now : U32) (r : FsRegs) :
    (fsStep p now false r).state = .active := by
  have hdue (last : U32) : p.fsTimeoutMs.toNat ≤ (elapsed now last).toNat := by simp [h]
  unfold fsStep
  split
  case isTrue => rw [fsTable_noSource_of_due fun _ => hdue _]
  case isFalse =>
    split
    case isTrue => rfl
    case isFalse => rw [fsTable_noSource_of_due fun _ => hdue _]

/-! ## The operation -/

theorem exec_fsUpdate (now : U32) (sourceActive : Bool) (s : State) :
    exec (.fsUpdate now sourceActive) s =
      .next ((s.setFs (fsStep s.params now sourceActive s.fs)).setResult
        (.failsafe (fsStep s.params now sourceActive s.fs).state)) := rfl

/-- On a seeded failsafe a row of the table is the whole operation. -/
theorem exec_fsUpdate_of_row {s : State} {now last : U32} {sourceActive : Bool} {st : FsState}
    (hseeded : s.fs.seeded = true)
    (hrow : fsTable s.params.fsTimeoutMs now s.fs.lastActiveMs sourceActive s.fs =
      { state := st, lastActiveMs := last, seeded := s.fs.seeded }) :
    exec (.fsUpdate now sourceActive) s =
      .next { s with fs := { state := st, lastActiveMs := last, seeded := true }, result := .failsafe st } := by
  rw [exec_fsUpdate, fsStep_of_seeded _ _ _ hseeded, hrow, hseeded]
  rfl

/-! ## The statements -/

/-- Settles O40: each of the rows is one of the four equations of the table. -/
theorem failsafeFollowsTheTable : Obligations.FailsafeFollowsTheTable := by
  intro s now hseeded
  refine ⟨fun hinactive => ⟨?_, fun hwait => ?_, fun hdue => ?_⟩, fun hactive => ⟨?_, ?_⟩, fun hrecovering => ⟨?_, ?_⟩⟩
  · exact exec_fsUpdate_of_row hseeded (fsTable_source_of_not_active (by simp [hinactive]))
  · exact exec_fsUpdate_of_row hseeded (fsTable_noSource_of_waiting hinactive hwait)
  · exact exec_fsUpdate_of_row hseeded (fsTable_noSource_of_due fun _ => hdue)
  · exact exec_fsUpdate_of_row hseeded (fsTable_source_of_active hactive)
  · exact exec_fsUpdate_of_row hseeded (fsTable_noSource_of_due (by simp [hactive]))
  · exact exec_fsUpdate_of_row hseeded (fsTable_source_of_not_active (by simp [hrecovering]))
  · exact exec_fsUpdate_of_row hseeded (fsTable_noSource_of_due (by simp [hrecovering]))

/-- Settles O44: the row from Active with a source ends in Recovering, and both rows from Recovering leave it. -/
theorem recoveryTakesTwoUpdates : Obligations.RecoveryTakesTwoUpdates := by
  constructor
  · intro s t1 t2 hseeded hactive
    exact ⟨_, _, _, exec_fsUpdate_of_row hseeded (fsTable_source_of_active hactive), rfl,
      exec_fsUpdate_of_row rfl (fsTable_source_of_not_active nofun), rfl,
      exec_fsUpdate_of_row rfl (fsTable_noSource_of_due nofun), rfl⟩
  · intro s now active hseeded hrecovering
    cases active with
    | true => exact ⟨_, exec_fsUpdate_of_row hseeded (fsTable_source_of_not_active (by simp [hrecovering])), nofun⟩
    | false => exact ⟨_, exec_fsUpdate_of_row hseeded (fsTable_noSource_of_due (by simp [hrecovering])), nofun⟩

/-- Settles O42: the update without a source ends in Active, and the result port shows that state. -/
theorem zeroTimeoutTripsAtOnce : Obligations.ZeroTimeoutTripsAtOnce := by
  intro s now hzero
  have hactive := fsStep_noSource_of_zeroTimeout hzero now s.fs
  exact ⟨_, exec_fsUpdate now false s, hactive, congrArg OpResult.failsafe hactive⟩

end Sys2Proof.Machine
end

section
/-! SUPPORT. SLEW (`45_slew.md` R190). The operation puts one function of its operands on the result port; a step ends in
one of three ways. -/

namespace Sys2Proof.Machine

theorem exec_slewStep (target current rate : F32) (dt : U32) (s : State) :
    exec (.slewStep target current rate dt) s =
      .next (s.setResult (.slew (slewBy target current (maxChange rate dt)))) := rfl

/-- R190 writes the divisor as a number, 1000.0. -/
theorem maxChange_eq (rate : F32) (dt : U32) :
    maxChange rate dt = fdiv (fmul rate (f32OfU32 dt)) 0x447A0000 := rfl

/-! ## The statement -/

/-- Settles O46: the three ways a step can end are the three branches of the formula. -/
theorem slewStepFollowsTheFormula : Obligations.SlewStepFollowsTheFormula := by
  intro s target current rate dt m d
  have hm : maxChange rate dt = m := maxChange_eq rate dt
  rw [exec_slewStep, hm]
  rcases slewBy_cases target current m with ⟨habove, hr⟩ | ⟨hnotAbove, hbelow, hr⟩ | ⟨hnotAbove, hnotBelow, hr⟩
  · rw [hr, if_pos habove]
  · rw [hr, if_neg (ne_true_of_eq_false hnotAbove), if_pos hbelow]
  · rw [hr, if_neg (ne_true_of_eq_false hnotAbove), if_neg (ne_true_of_eq_false hnotBelow)]

end Sys2Proof.Machine
end

section
/-! SUPPORT. SCHED (`46_scheduler.md` R203 to R208). A tick is cut at the three states its later phases start from: the
sources updated (phases 1 to 3), the command and the failsafe decided (4 and 5), the actuator driven (6). What a phase
keeps lets each register and port be read at the one phase that writes it. -/

namespace Sys2Proof.Machine

/-! ## What each phase keeps of the registers and ports that phases share -/

section
variable (s : State) (first : Bool) (now : U32)

/-- The radio half of phase 3 writes `RC_LAST_MS` and `radio_poll`. -/
@[simp] theorem tickRadio_keeps (a : Option Axes) :
    (tickRadio first now a s).sched.cmdThr = s.sched.cmdThr ∧
    (tickRadio first now a s).sched.cmdSteer = s.sched.cmdSteer ∧
    (tickRadio first now a s).sched.appliedThr = s.sched.appliedThr ∧
    (tickRadio first now a s).sched.appliedSteer = s.sched.appliedSteer ∧
    (tickRadio first now a s).sched.actLastMs = s.sched.actLastMs ∧
    (tickRadio first now a s).sched.tlmLastMs = s.sched.tlmLastMs ∧
    (tickRadio first now a s).sched.tlmSeq = s.sched.tlmSeq ∧
    (tickRadio first now a s).ports.frameOut = s.ports.frameOut ∧
    (tickRadio first now a s).ports.actSet = s.ports.actSet ∧
    (tickRadio first now a s).ports.actNeutral = s.ports.actNeutral ∧
    (tickRadio first now a s).ports.txBytes = s.ports.txBytes := by
  rcases tickRadio_cases s first now a with ⟨_, _, hsched, hports⟩ | ⟨_, h⟩
  · simp [hsched, hports]
  · simp [h]

/-- Phase 4 writes the commanded values: the arbitrated command or, without one, what they were. -/
@[simp] theorem tickArbitrate_sched_getD : (tickArbitrate now s).sched =
    { s.sched with
        cmdThr := ((arbitrate s.params.netTimeoutMs now s.live).getD (s.sched.cmdThr, s.sched.cmdSteer)).1
        cmdSteer := ((arbitrate s.params.netTimeoutMs now s.live).getD (s.sched.cmdThr, s.sched.cmdSteer)).2 } := by
  rw [tickArbitrate_sched]
  cases arbitrate s.params.netTimeoutMs now s.live <;> rfl

/-- Phase 6 writes the commanded and applied values, `ACT_LAST_MS`, `act_set` and `act_neutral`. -/
@[simp] theorem tickActuate_keeps :
    (tickActuate first now s).sched.rcLastMs = s.sched.rcLastMs ∧
    (tickActuate first now s).sched.tlmLastMs = s.sched.tlmLastMs ∧
    (tickActuate first now s).sched.tlmSeq = s.sched.tlmSeq ∧
    (tickActuate first now s).ports.frameOut = s.ports.frameOut ∧
    (tickActuate first now s).ports.radioPoll = s.ports.radioPoll ∧
    (tickActuate first now s).ports.txBytes = s.ports.txBytes := by
  rcases tickActuate_cases s first now with ⟨_, h⟩ | ⟨_, _, h⟩ | ⟨_, _, h⟩
  · simp [h]
  · simp [h, actuate_sched, actuate_ports]
  · simp [h]

/-- Phase 7 writes `TLM_LAST_MS`, `TLM_SEQ` and `tx_bytes`. -/
@[simp] theorem tickTelemetry_keeps (w : Sensors) :
    (tickTelemetry first now w s).sched.cmdThr = s.sched.cmdThr ∧
    (tickTelemetry first now w s).sched.cmdSteer = s.sched.cmdSteer ∧
    (tickTelemetry first now w s).sched.appliedThr = s.sched.appliedThr ∧
    (tickTelemetry first now w s).sched.appliedSteer = s.sched.appliedSteer ∧
    (tickTelemetry first now w s).sched.actLastMs = s.sched.actLastMs ∧
    (tickTelemetry first now w s).sched.rcLastMs = s.sched.rcLastMs ∧
    (tickTelemetry first now w s).ports.frameOut = s.ports.frameOut ∧
    (tickTelemetry first now w s).ports.radioPoll = s.ports.radioPoll ∧
    (tickTelemetry first now w s).ports.actSet = s.ports.actSet ∧
    (tickTelemetry first now w s).ports.actNeutral = s.ports.actNeutral := by
  rcases tickTelemetry_cases s first now w with ⟨_, h⟩ | ⟨_, _, h⟩ | ⟨_, _, _, _, h⟩ <;> simp [h]

end

/-! ## The gates of a tick -/

/-- The first tick of a run is the one that finds `SCHED_SEEDED` 0 (R208). -/
theorem gateOpen_unseeded_iff (seeded : Bool) (now last interval : U32) :
    gateOpen (!seeded) now last interval = true ↔ seeded = false ∨ interval.toNat ≤ (now - last).toNat := by
  rw [gateOpen_iff, Bool.not_eq_true']

theorem gateOpen_unseeded_eq_false_iff (seeded : Bool) (now last interval : U32) :
    gateOpen (!seeded) now last interval = false ↔ ¬ (seeded = false ∨ interval.toNat ≤ (now - last).toNat) := by
  rw [← gateOpen_unseeded_iff, Bool.not_eq_true]

/-! ## A network command -/

/-- The network command of a tick (R203): of a Command frame and a slot value the one that `NET_MERGE` puts second. -/
def networkCommand (m : NetMerge) (fromFrame fromSlot : Option Axes) : Option Axes :=
  match m with
  | .slotWins => fromSlot.or fromFrame
  | .frameWins => fromFrame.or fromSlot

theorem netMerged_eq_netArrivedIf (m : NetMerge) (fromFrame fromSlot : Option Axes) (now : U32) (r : LiveRegs) :
    netMerged m fromFrame fromSlot now r = netArrivedIf (networkCommand m fromFrame fromSlot) now r :=
  netMerged_eq m fromFrame fromSlot now r

theorem netArrivedIf_some (v : Axes) (now : U32) (r : LiveRegs) :
    netArrivedIf (some v) now r = { r with netThr := v.1, netSteer := v.2, netLastCmdMs := now } := rfl

theorem netArrivedIf_none (now : U32) (r : LiveRegs) : netArrivedIf none now r = r := rfl

@[simp] theorem netArrivedIf_keeps (c : Option Axes) (now : U32) (r : LiveRegs) :
    (netArrivedIf c now r).radioLive = r.radioLive ∧ (netArrivedIf c now r).radioThr = r.radioThr ∧
    (netArrivedIf c now r).radioSteer = r.radioSteer ∧ (netArrivedIf c now r).slotFull = r.slotFull := by
  cases c with
  | none => simp [netArrivedIf_none]
  | some v => simp [netArrivedIf_some]

/-- What a tick takes out of the slot does not depend on the poll before it. -/
theorem slotTaken_tickRadio (s : State) (first : Bool) (now : U32) (a : Option Axes) :
    (slotTaken (tickRadio first now a s).live).2 = (slotTaken s.live).2 := by
  rcases tickRadio_cases s first now a with ⟨_, hlive, _, _⟩ | ⟨_, h⟩
  · simp [hlive, slotTaken]
  · rw [h]

/-- The poll leaves the network command of earlier ticks. -/
@[simp] theorem tickRadio_keeps_network (s : State) (first : Bool) (now : U32) (a : Option Axes) :
    (tickRadio first now a s).live.netThr = s.live.netThr ∧
    (tickRadio first now a s).live.netSteer = s.live.netSteer ∧
    (tickRadio first now a s).live.netLastCmdMs = s.live.netLastCmdMs := by
  rcases tickRadio_cases s first now a with ⟨_, hlive, _, _⟩ | ⟨_, h⟩
  · simp [hlive]
  · simp [h]

/-! ## The states between the phases -/

section
variable (now : U32) (bytes : List Byte) (a : Option Axes) (w : Sensors) (s : State)

/-- After phases 1 and 2, from quiet ports. -/
def tickParsed : State := tickParse (tickPump bytes (s.setPorts quietPorts))

/-- After phases 1 to 3: both sources are updated. -/
def tickSourced : State := tickNetwork now (tickRadio (!s.sched.seeded) now a (tickParsed bytes s))

/-- After phases 1 to 5: the command and the failsafe state of this tick are decided. -/
def tickDecided : State := tickFailsafe now (tickArbitrate now (tickSourced now bytes a s))

/-- After phases 1 to 6: only telemetry is left. -/
def tickDriven : State := tickActuate (!s.sched.seeded) now (tickDecided now bytes a s)

theorem tickPhases_eq : tickPhases now bytes a w s =
    (tickTelemetry (!s.sched.seeded) now w (tickDriven now bytes a s)).setSched
      { (tickTelemetry (!s.sched.seeded) now w (tickDriven now bytes a s)).sched with seeded := true } := rfl

theorem exec_tick_of_allowed {s : State} (hend : s.params.linkEnd = .actuator)
    (hrates : slewRatesAllowed s.params = true) (e : Bool) :
    exec (.tick now bytes a w e) s = .next (tickPhases now bytes a w s) := by
  show execTick now bytes a w e s = _
  rw [execTick, hend, hrates]
  rfl

@[simp] theorem tickParsed_keeps :
    (tickParsed bytes s).params = s.params ∧ (tickParsed bytes s).live = s.live ∧
    (tickParsed bytes s).sched = s.sched ∧ (tickParsed bytes s).ports.radioPoll = false ∧
    (tickParsed bytes s).ports.actSet = none ∧ (tickParsed bytes s).ports.actNeutral = false ∧
    (tickParsed bytes s).ports.txBytes = [] := by
  simp [tickParsed, tickParse_ports, tickPump_ports, quietPorts]

@[simp] theorem tickSourced_keeps :
    (tickSourced now bytes a s).params = s.params ∧
    (tickSourced now bytes a s).sched.cmdThr = s.sched.cmdThr ∧
    (tickSourced now bytes a s).sched.cmdSteer = s.sched.cmdSteer ∧
    (tickSourced now bytes a s).sched.appliedThr = s.sched.appliedThr ∧
    (tickSourced now bytes a s).sched.appliedSteer = s.sched.appliedSteer ∧
    (tickSourced now bytes a s).sched.actLastMs = s.sched.actLastMs ∧
    (tickSourced now bytes a s).sched.tlmLastMs = s.sched.tlmLastMs ∧
    (tickSourced now bytes a s).sched.tlmSeq = s.sched.tlmSeq ∧
    (tickSourced now bytes a s).ports.actSet = none ∧
    (tickSourced now bytes a s).ports.actNeutral = false ∧
    (tickSourced now bytes a s).ports.txBytes = [] := by
  simp [tickSourced]

/-- Phases 4 and 5 leave every port, and of the scheduler's registers all but the commanded values. -/
@[simp] theorem tickDecided_keeps :
    (tickDecided now bytes a s).params = s.params ∧
    (tickDecided now bytes a s).live = (tickSourced now bytes a s).live ∧
    (tickDecided now bytes a s).ports = (tickSourced now bytes a s).ports ∧
    (tickDecided now bytes a s).sched.appliedThr = s.sched.appliedThr ∧
    (tickDecided now bytes a s).sched.appliedSteer = s.sched.appliedSteer ∧
    (tickDecided now bytes a s).sched.actLastMs = s.sched.actLastMs ∧
    (tickDecided now bytes a s).sched.rcLastMs = (tickSourced now bytes a s).sched.rcLastMs ∧
    (tickDecided now bytes a s).sched.tlmLastMs = s.sched.tlmLastMs ∧
    (tickDecided now bytes a s).sched.tlmSeq = s.sched.tlmSeq := by
  simp [tickDecided]

@[simp] theorem tickDriven_keeps :
    (tickDriven now bytes a s).params = s.params ∧
    (tickDriven now bytes a s).live = (tickSourced now bytes a s).live ∧
    (tickDriven now bytes a s).fs = (tickDecided now bytes a s).fs ∧
    (tickDriven now bytes a s).ports.frameOut = (tickSourced now bytes a s).ports.frameOut ∧
    (tickDriven now bytes a s).ports.radioPoll = (tickSourced now bytes a s).ports.radioPoll ∧
    (tickDriven now bytes a s).ports.txBytes = [] ∧
    (tickDriven now bytes a s).sched.rcLastMs = (tickSourced now bytes a s).sched.rcLastMs ∧
    (tickDriven now bytes a s).sched.tlmLastMs = s.sched.tlmLastMs ∧
    (tickDriven now bytes a s).sched.tlmSeq = s.sched.tlmSeq := by
  simp [tickDriven]

/-! ## Where the state after a tick comes from -/

/-- What phase 3 wrote is there after the tick. -/
theorem tickPhases_from_tickSourced :
    (tickPhases now bytes a w s).live = (tickSourced now bytes a s).live ∧
    (tickPhases now bytes a w s).sched.rcLastMs = (tickSourced now bytes a s).sched.rcLastMs ∧
    (tickPhases now bytes a w s).ports.frameOut = (tickSourced now bytes a s).ports.frameOut ∧
    (tickPhases now bytes a w s).ports.radioPoll = (tickSourced now bytes a s).ports.radioPoll := by
  simp [tickPhases_eq]

/-- What phase 6 left is there after the tick. -/
theorem tickPhases_from_tickDriven :
    (tickPhases now bytes a w s).fs = (tickDriven now bytes a s).fs ∧
    (tickPhases now bytes a w s).sched.cmdThr = (tickDriven now bytes a s).sched.cmdThr ∧
    (tickPhases now bytes a w s).sched.cmdSteer = (tickDriven now bytes a s).sched.cmdSteer ∧
    (tickPhases now bytes a w s).sched.appliedThr = (tickDriven now bytes a s).sched.appliedThr ∧
    (tickPhases now bytes a w s).sched.appliedSteer = (tickDriven now bytes a s).sched.appliedSteer ∧
    (tickPhases now bytes a w s).sched.actLastMs = (tickDriven now bytes a s).sched.actLastMs ∧
    (tickPhases now bytes a w s).ports.actSet = (tickDriven now bytes a s).ports.actSet ∧
    (tickPhases now bytes a w s).ports.actNeutral = (tickDriven now bytes a s).ports.actNeutral := by
  simp [tickPhases_eq]

/-- LIVE after a tick (R203): the poll's registers, the slot emptied, and the network command of the tick on top. -/
theorem tickPhases_live_eq_netArrivedIf :
    (tickPhases now bytes a w s).live =
      netArrivedIf
        (networkCommand s.params.netMerge (frameCommandOf (tickPhases now bytes a w s).ports.frameOut)
          (slotTaken s.live).2)
        now (slotTaken (tickRadio (!s.sched.seeded) now a (tickParsed bytes s)).live).1 := by
  obtain ⟨hlive, _, hframe, _⟩ := tickPhases_from_tickSourced now bytes a w s
  rw [hlive, hframe, tickSourced, tickNetwork_live, netMerged_eq_netArrivedIf, slotTaken_tickRadio]
  simp

/-- The radio's part of a tick (R203): what the poll's gate decides. -/
theorem tickPhases_radio_cases :
    (gateOpen (!s.sched.seeded) now s.sched.rcLastMs s.params.rcPollIntervalMs = true ∧
        (tickPhases now bytes a w s).ports.radioPoll = true ∧ (tickPhases now bytes a w s).sched.rcLastMs = now ∧
        (tickRadio (!s.sched.seeded) now a (tickParsed bytes s)).live = radioSampled a s.live) ∨
      (gateOpen (!s.sched.seeded) now s.sched.rcLastMs s.params.rcPollIntervalMs = false ∧
        (tickPhases now bytes a w s).ports.radioPoll = false ∧
        (tickPhases now bytes a w s).sched.rcLastMs = s.sched.rcLastMs ∧
        (tickRadio (!s.sched.seeded) now a (tickParsed bytes s)).live = s.live) := by
  obtain ⟨_, hlast, _, hpoll⟩ := tickPhases_from_tickSourced now bytes a w s
  rw [hlast, hpoll, tickSourced, tickNetwork_sched, tickNetwork_ports]
  rcases tickRadio_cases (tickParsed bytes s) (!s.sched.seeded) now a with ⟨hgate, hlive, hsched, hports⟩ | ⟨hgate, h⟩
  · exact .inl ⟨by simpa using hgate, by rw [hports], by rw [hsched], by simpa using hlive⟩
  · exact .inr ⟨by simpa using hgate, by simp [h], by simp [h], by simp [h]⟩

theorem failsafeActive_tickDecided :
    failsafeActive (tickDecided now bytes a s) = failsafeActive (tickPhases now bytes a w s) := by
  obtain ⟨hfs, _⟩ := tickPhases_from_tickDriven now bytes a w s
  exact failsafeActive_of_fs (by simp) (by simp [hfs])

/-- The actuator's part of a tick (R206): phase 6 from the decided state, on the failsafe state the tick ends with. -/
theorem tickDriven_cases :
    (failsafeActive (tickPhases now bytes a w s) = true ∧
        tickDriven now bytes a s = forceNeutral now (tickDecided now bytes a s)) ∨
      (failsafeActive (tickPhases now bytes a w s) = false ∧
        gateOpen (!s.sched.seeded) now s.sched.actLastMs s.params.actIntervalMs = true ∧
        tickDriven now bytes a s = actuate (!s.sched.seeded) now (tickDecided now bytes a s)) ∨
      (failsafeActive (tickPhases now bytes a w s) = false ∧
        gateOpen (!s.sched.seeded) now s.sched.actLastMs s.params.actIntervalMs = false ∧
        tickDriven now bytes a s = tickDecided now bytes a s) := by
  simpa [tickDriven, failsafeActive_tickDecided now bytes a w s] using
    tickActuate_cases (tickDecided now bytes a s) (!s.sched.seeded) now

/-- The command of a tick (R204), where phase 6 does not force another. -/
theorem tickPhases_command_of_unforced (h : failsafeActive (tickPhases now bytes a w s) = false) :
    ((tickPhases now bytes a w s).sched.cmdThr, (tickPhases now bytes a w s).sched.cmdSteer) =
      (arbitrate s.params.netTimeoutMs now (tickPhases now bytes a w s).live).getD
        (s.sched.cmdThr, s.sched.cmdSteer) := by
  obtain ⟨hlive, _⟩ := tickPhases_from_tickSourced now bytes a w s
  obtain ⟨_, hthr, hsteer, _⟩ := tickPhases_from_tickDriven now bytes a w s
  rw [hthr, hsteer, hlive]
  rcases tickDriven_cases now bytes a w s with ⟨hforced, _⟩ | ⟨_, _, hd⟩ | ⟨_, _, hd⟩
  · rw [h] at hforced; cases hforced
  · simp [hd, actuate_sched, tickDecided]
  · simp [hd, tickDecided]

theorem statusByte_tickDriven :
    statusByte now (tickDriven now bytes a s) = statusByte now (tickPhases now bytes a w s) := by
  obtain ⟨hlive, _⟩ := tickPhases_from_tickSourced now bytes a w s
  obtain ⟨hfs, _⟩ := tickPhases_from_tickDriven now bytes a w s
  rw [statusByte, statusByte, statusBits_of now (by simp) (by simp [hlive]) hfs.symm]

/-- The telemetry of a tick (R207): a closed gate, a skipped send, or a frame. -/
theorem tickPhases_telemetry_cases :
    let t := tickPhases now bytes a w s
    let gate := gateOpen (!s.sched.seeded) now s.sched.tlmLastMs s.params.tlmIntervalMs
    (gate = false ∧ t.sched.tlmLastMs = s.sched.tlmLastMs ∧ t.ports.txBytes = [] ∧ t.sched.tlmSeq = s.sched.tlmSeq) ∨
      (gate = true ∧ s.params.txbufSize < 23 ∧
        t.sched.tlmLastMs = now ∧ t.ports.txBytes = [] ∧ t.sched.tlmSeq = s.sched.tlmSeq) ∨
      (gate = true ∧ 23 ≤ s.params.txbufSize ∧ t.sched.tlmLastMs = now ∧
        buildFrame .telemetry (encodeTelemetry s.sched.tlmSeq (statusByte now t) w) s.params.txbufSize =
          .ok t.ports.txBytes ∧
        t.sched.tlmSeq = s.sched.tlmSeq + 1) := by
  intro t gate
  have hstatus : statusByte now t = statusByte now (tickDriven now bytes a s) :=
    (statusByte_tickDriven now bytes a w s).symm
  rw [hstatus]
  rcases tickTelemetry_cases (tickDriven now bytes a s) (!s.sched.seeded) now w with
    ⟨hgate, h⟩ | ⟨hgate, hsmall, h⟩ | ⟨D, hgate, hfits, hbuild, h⟩
  · exact .inl ⟨by simpa using hgate, by simp [t, tickPhases_eq, h]⟩
  · exact .inr (.inl ⟨by simpa using hgate, by simpa using hsmall, by simp [t, tickPhases_eq, h]⟩)
  · exact .inr (.inr ⟨by simpa using hgate, by simpa using hfits, by simp [t, tickPhases_eq, h],
      by simpa [t, tickPhases_eq, h] using hbuild, by simp [t, tickPhases_eq, h]⟩)

end

/-! ## A built frame, read back -/

theorem length_of_buildFrame_ok {T : MessageType} {P D : List Byte} {d : Nat} (h : buildFrame T P d = .ok D) :
    D.length = 8 + P.length := by
  rcases buildFrame_cases T P d with ⟨_, e⟩ | ⟨_, e⟩
  · rw [e] at h; cases h
  · rw [e] at h; cases h
    rw [frameBytes_length]; omega

theorem parseFrame_of_buildFrame_ok {T : MessageType} {P D : List Byte} {d : Nat} (h : buildFrame T P d = .ok D)
    (hlen : lengthAllowed T P.length = true) : parseFrame T D = .ok (decodePayload T P, 8 + P.length) := by
  rcases buildFrame_cases T P d with ⟨_, e⟩ | ⟨_, e⟩
  · rw [e] at h; cases h
  · rw [e] at h; cases h
    have hparse := parseFrame_frameBytes T P (crc16 ((headerBytes T (BitVec.ofNat 16 P.length) ++ P).drop 2)) [] hlen
    rwa [List.append_nil, if_pos rfl] at hparse

theorem decodePayload_encodeTelemetry (seq : U16) (status : Byte) (w : Sensors) :
    decodePayload .telemetry (encodeTelemetry seq status w) =
      .telemetry { seq := seq, status := status, sensors := w } :=
  congrArg FrameValue.telemetry (decodeTelemetry_payload seq status w)

/-! ## The statements -/

/-- Settles O53: the poll decides the radio's registers by its gate; the network's are those of the one command that
`NET_MERGE` lets stand, over a poll that leaves them. -/
theorem tickUpdatesBothSources : Obligations.TickUpdatesBothSources := by
  intro s now bytes a w e hend hrates
  refine ⟨_, exec_tick_of_allowed now bytes a w hend hrates e, ?_⟩
  intro polls fromFrame fromSlot winner
  have hlive : (tickPhases now bytes a w s).live = netArrivedIf winner now _ :=
    tickPhases_live_eq_netArrivedIf now bytes a w s
  refine ⟨fun hpolls => ?_, fun hpolls => ?_, by simp [hlive], fun v hv => ?_, fun hv => ?_⟩
  · rcases tickPhases_radio_cases now bytes a w s with ⟨_, hpoll, hlast, hradio⟩ | ⟨hgate, _⟩
    · refine ⟨hpoll, hlast, by simp [hlive, hradio], fun v hv => ?_, fun hv => ?_⟩
      · subst hv
        simp [hlive, hradio, radioSampled_some]
      · subst hv
        simp [hlive, hradio, radioSampled_none]
    · exact absurd hpolls ((gateOpen_unseeded_eq_false_iff _ _ _ _).mp hgate)
  · rcases tickPhases_radio_cases now bytes a w s with ⟨hgate, _⟩ | ⟨_, hpoll, hlast, hradio⟩
    · exact absurd ((gateOpen_unseeded_iff _ _ _ _).mp hgate) hpolls
    · exact ⟨hpoll, hlast, by simp [hlive, hradio]⟩
  · rw [hlive, hv, netArrivedIf_some]
    exact ⟨rfl, rfl, rfl⟩
  · rw [hlive, hv, netArrivedIf_none]
    simp

/-- Settles O54: the failsafe is one update with the liveness the tick ends with, and that liveness is also what phase 4
arbitrated on. -/
theorem tickArbitratesAndUpdatesTheFailsafe : Obligations.TickArbitratesAndUpdatesTheFailsafe := by
  intro s now bytes a w e hend hrates
  refine ⟨_, _, exec_tick_of_allowed now bytes a w hend hrates e, exec_fsUpdate now _ s,
    tickPhases_fs s now bytes a w, fun hunforced => ?_⟩
  have hcmd := tickPhases_command_of_unforced now bytes a w s hunforced
  have hnet : networkOk now (tickPhases now bytes a w s) =
      netLive s.params.netTimeoutMs now (tickPhases now bytes a w s).live.netLastCmdMs := by
    rw [networkOk, tickPhases_params]
  rw [hnet]
  refine ⟨fun hradio => ?_, fun hradio hlive => ?_, fun hradio hlive => ?_⟩
  · rw [arbitrate_of_radioLive hradio] at hcmd
    exact Prod.mk.inj hcmd
  · rw [arbitrate_of_network hradio hlive] at hcmd
    exact Prod.mk.inj hcmd
  · rw [arbitrate_of_neither hradio hlive] at hcmd
    exact Prod.mk.inj hcmd

/-- Settles O55: the three ways phase 6 can go from the decided state, whose applied values, time and strobes are still
those the tick began with. -/
theorem tickDrivesTheActuator : Obligations.TickDrivesTheActuator := by
  intro s now bytes a w e hend hrates
  refine ⟨_, exec_tick_of_allowed now bytes a w hend hrates e, ?_⟩
  intro forced passes dt
  have hforced : failsafeActive (tickPhases now bytes a w s) = true ↔ forced := by
    rw [failsafeActive, tickPhases_params]
    exact neutralForced_iff _ _
  have hdt : (if s.sched.seeded = false then 0#32 else elapsed now s.sched.actLastMs) = dt := by
    cases hseeded : s.sched.seeded <;> simp [dt, hseeded, elapsed]
  obtain ⟨_, hthr, hsteer, happThr, happSteer, hlast, hset, hneutral⟩ := tickPhases_from_tickDriven now bytes a w s
  rw [hthr, hsteer, happThr, happSteer, hlast, hset, hneutral]
  rcases tickDriven_cases now bytes a w s with ⟨hf, h⟩ | ⟨hf, hg, h⟩ | ⟨hf, hg, h⟩
  · have hyes := hforced.mp hf
    refine ⟨fun _ => ?_, fun hn => absurd hyes hn, fun hn => absurd hyes hn⟩
    simp [h]
  · have hno : ¬ forced := by simp [← hforced, hf]
    refine ⟨fun hn => absurd hn hno, fun _ _ => ?_, fun _ hn => absurd ((gateOpen_unseeded_iff _ _ _ _).mp hg) hn⟩
    simp [h, actuate_sched, actuate_ports, hdt]
  · have hno : ¬ forced := by simp [← hforced, hf]
    have hclosed : ¬ passes := (gateOpen_unseeded_eq_false_iff _ _ _ _).mp hg
    refine ⟨fun hn => absurd hn hno, fun _ hn => absurd hn hclosed, fun _ _ => ?_⟩
    simp [h]

/-- Settles O57: the three ways phase 7 can go, its flags those the tick ends with, and a built frame is read back. -/
theorem tickSendsTelemetry : Obligations.TickSendsTelemetry := by
  intro s now bytes a w e hend hrates
  refine ⟨_, exec_tick_of_allowed now bytes a w hend hrates e, ?_⟩
  intro passes status
  have hstatus : statusByte now (tickPhases now bytes a w s) = status := rfl
  rcases tickPhases_telemetry_cases now bytes a w s with
    ⟨hg, h⟩ | ⟨hg, hsmall, hlast, hnone, hseq⟩ | ⟨hg, hfits, hlast, hbuild, hseq⟩
  · have hclosed : ¬ passes := (gateOpen_unseeded_eq_false_iff _ _ _ _).mp hg
    exact ⟨fun hn => absurd hn hclosed, fun _ => h⟩
  · exact ⟨fun _ => ⟨hlast, fun hn => absurd hsmall hn.not_gt, fun _ => ⟨hnone, hseq⟩⟩,
      fun hn => absurd ((gateOpen_unseeded_iff _ _ _ _).mp hg) hn⟩
  · rw [hstatus] at hbuild
    have hlen : (encodeTelemetry s.sched.tlmSeq status w).length = 15 := telemetryPayload_length _ _ _
    refine ⟨fun _ => ⟨hlast, fun _ => ⟨?_, hseq, ?_, ?_⟩, fun hn => absurd hn hfits.not_gt⟩,
      fun hn => absurd ((gateOpen_unseeded_iff _ _ _ _).mp hg) hn⟩
    · rw [length_of_buildFrame_ok hbuild, hlen]
    · rw [exec_codecBuild (by omega), hbuild]
      rfl
    · have hparse := parseFrame_of_buildFrame_ok hbuild (by rw [hlen]; rfl)
      rw [decodePayload_encodeTelemetry, hlen] at hparse
      exact (exec_codecParse _ .telemetry s).trans (by rw [hparse])

end Sys2Proof.Machine
end

section
/-! SUPPORT. The writer's error (`60_exceptions.md` R226). What a `TICK` answers is settled by `LINK_END` and the two slew
rates; in each of the three cases the answer is named without the error. -/

namespace Sys2Proof.Machine

section
variable (now : U32) (bytes : List Byte) (a : Option Axes) (w : Sensors) {s : State}

theorem exec_tick_of_gateway (hend : s.params.linkEnd = .gateway) (e : Bool) :
    exec (.tick now bytes a w e) s = .refused .noGatewayTick := by
  show execTick now bytes a w e s = _
  simpa [hend] using execTick_cases s now bytes a w e

theorem exec_tick_of_forbiddenRate (hend : s.params.linkEnd = .actuator) (hrates : slewRatesAllowed s.params = false)
    (e : Bool) : exec (.tick now bytes a w e) s = .refused .slewRateOutsideDomain := by
  show execTick now bytes a w e s = _
  simpa [hend, hrates] using execTick_cases s now bytes a w e

end

/-! ## The statement -/

/-- Settles O58: the gateway end, a forbidden slew rate and the completed tick each answer alike for both values of the
error. -/
theorem writeErrorIsIgnored : Obligations.WriteErrorIsIgnored := by
  intro s now bytes a w
  cases hend : s.params.linkEnd with
  | gateway => rw [exec_tick_of_gateway now bytes a w hend, exec_tick_of_gateway now bytes a w hend]
  | actuator =>
    cases hrates : slewRatesAllowed s.params with
    | false =>
      rw [exec_tick_of_forbiddenRate now bytes a w hend hrates, exec_tick_of_forbiddenRate now bytes a w hend hrates]
    | true => rw [exec_tick_of_allowed now bytes a w hend hrates, exec_tick_of_allowed now bytes a w hend hrates]

end Sys2Proof.Machine
end

section
/-! SUPPORT. The block right after reset (`70_reset_and_hazards.md` R251): the status port read off its three flags, and
why each flag is down before the first tick. -/

namespace Sys2Proof.Machine

section
variable {s : State}

theorem statusBits_eq_zero_iff (now : U32) :
    statusBits now s = 0 ↔ failsafeActive s = false ∧ networkOk now s = false ∧ radioOk s = false := by
  rw [statusBits]
  cases failsafeActive s <;> cases networkOk now s <;> cases radioOk s <;> decide

theorem failsafeActive_of_inactive (h : s.fs.state = .inactive) : failsafeActive s = false := by
  rw [failsafeActive, h, neutralForced]

/-- Stamp 0 means that no command has ever arrived, whatever the time is (R154). -/
theorem networkOk_of_noStamp (now : U32) (h : s.live.netLastCmdMs = 0) : networkOk now s = false := by
  rw [networkOk, h, netLive_zero]

end

/-- The status port before the first tick, at any time (R251). -/
theorem statusBits_resetWith (p : Params) (now : U32) : statusBits now (State.resetWith p) = 0 := by
  have hfailsafe : failsafeActive (State.resetWith p) = false := failsafeActive_of_inactive rfl
  have hnetwork : networkOk now (State.resetWith p) = false := networkOk_of_noStamp now rfl
  have hradio : radioOk (State.resetWith p) = false := rfl
  exact (statusBits_eq_zero_iff now).mpr ⟨hfailsafe, hnetwork, hradio⟩

/-! ## The statement -/

/-- Settles O5: every register and port is the field `State.resetWith` names for it; the status port, which is not stored,
follows from the inactive failsafe, the stamp 0 and the silent radio. -/
theorem resetLeavesTheSpecifiedValues : Obligations.ResetLeavesTheSpecifiedValues := by
  intro p now s
  have hstatus : statusBits now s = 0 := statusBits_resetWith p now
  exact ⟨rfl, rfl, rfl, rfl, rfl, rfl, rfl, rfl, rfl, rfl, rfl, rfl, rfl, rfl, rfl, rfl, rfl, hstatus⟩

end Sys2Proof.Machine
end

section
/-! SUPPORT. Requests (`30_encoding.md` R60 to R79; log 2). A frame is read back through the row its header selects, an
operation through its select code and then operand by operand; eleven operations have one byte string as their only
operand and share one lemma. -/

namespace Sys2Proof

/-! ## Wire rows -/

theorem decode_encode_frameCommand (seq : U16) (thr steer : I16) (reserved : Byte) (crc : U16) (rest : List Byte) :
    decode (encode (.frameCommand seq thr steer reserved crc) ++ rest) =
      .ok (.frameCommand seq thr steer reserved crc) rest := by
  rw [encode, decode_frameBytes]
  simp [decodeFrameBody, commandPayload, readU16_write, readByte_cons]

theorem decode_encode_frameTelemetry (seq : U16) (status : Byte) (w : Sensors) (crc : U16) (rest : List Byte) :
    decode (encode (.frameTelemetry seq status w crc) ++ rest) = .ok (.frameTelemetry seq status w crc) rest := by
  rw [encode, decode_frameBytes]
  simp [decodeFrameBody, telemetryPayload, readU16_write, readByte_cons, readSensors_write]

theorem decode_encode_framePing (crc : U16) (rest : List Byte) :
    decode (encode (.framePing crc) ++ rest) = .ok (.framePing crc) rest := by
  rw [encode, decode_frameBytes]
  simp [decodeFrameBody, readU16_write]

theorem decode_encode_framePong (crc : U16) (rest : List Byte) :
    decode (encode (.framePong crc) ++ rest) = .ok (.framePong crc) rest := by
  rw [encode, decode_frameBytes]
  simp [decodeFrameBody, readU16_write]

/-- The one row whose length is not fixed by its type. -/
theorem decode_encode_frameLog {text : List Byte} (h : text.length ≤ 200) (crc : U16) (rest : List Byte) :
    decode (encode (.frameLog text crc) ++ rest) = .ok (.frameLog text crc) rest := by
  have hlen : (BitVec.ofNat 16 text.length).toNat = text.length := by
    rw [BitVec.toNat_ofNat]; omega
  rw [encode, decode_frameBytes, hlen]
  simp [decodeFrameBody, h, readCount_append, readU16_write]

/-! ## Operations -/

/-- An operation whose one operand is a byte string. -/
theorem decode_bytesOperation {op : Byte} {make : List Byte → Instr} (hop : op.toNat < 0x80)
    (hread : ∀ r, decodeOp op r = (readBytes r).andThen fun bs r => .ok (make bs) r) {bs : List Byte}
    (hfit : bytesFit bs = true) (rest : List Byte) : decode (op :: writeBytes bs ++ rest) = .ok (make bs) rest := by
  rw [List.cons_append, decode_op hop, hread, readBytes_write (of_decide_eq_true hfit), andThen_ok]

theorem decode_encode_codecBuild (t : MessageType) {p : List Byte} {d : Nat} (hp : p.length ≤ 65535) (hd : d < 2 ^ 32)
    (rest : List Byte) : decode (encode (.codecBuild t p d) ++ rest) = .ok (.codecBuild t p d) rest := by
  simpa [encode, decode_op, decodeOp, readType_write, readPayload_write hp, readU32_write] using hd

theorem decode_encode_codecEncTlm (seq : U16) (status : Byte) (w : Sensors) (rest : List Byte) :
    decode (encode (.codecEncTlm seq status w) ++ rest) = .ok (.codecEncTlm seq status w) rest := by
  simp [encode, decode_op, decodeOp, telemetryPayload, readU16_write, readByte_cons, readSensors_write]

theorem decode_encode_tick (now : U32) {bytes : List Byte} (hfit : bytesFit bytes = true) (a : Option Axes) (w : Sensors)
    (e : Bool) (rest : List Byte) :
    decode (encode (.tick now bytes a w e) ++ rest) = .ok (.tick now bytes a w e) rest := by
  simp [encode, decode_op, decodeOp, readU32_write, readBytes_write (of_decide_eq_true hfit), readSample_write,
    readSensors_write, readFlag_write]

/-- Every constructor read back. -/
theorem decode_encode {i : Instr} (h : i.wf = true) (rest : List Byte) : decode (encode i ++ rest) = .ok i rest := by
  cases i with
  | frameCommand seq thr steer reserved crc => exact decode_encode_frameCommand seq thr steer reserved crc rest
  | frameTelemetry seq status w crc => exact decode_encode_frameTelemetry seq status w crc rest
  | framePing crc => exact decode_encode_framePing crc rest
  | framePong crc => exact decode_encode_framePong crc rest
  | frameLog text crc => exact decode_encode_frameLog (of_decide_eq_true h) crc rest
  | codecBuild t p d =>
    obtain ⟨hp, hd⟩ := Bool.and_eq_true_iff.mp h
    exact decode_encode_codecBuild t (of_decide_eq_true hp) (of_decide_eq_true hd) rest
  | codecEncTlm seq status w => exact decode_encode_codecEncTlm seq status w rest
  | tick now bytes a w e => exact decode_encode_tick now h a w e rest
  | crcRange | codecHdr | codecLen | codecCrcok | codecParseCmd | codecParseTlm | codecParsePing | codecParsePong
  | codecParseLog | codecEncLog | rxPush => exact decode_bytesOperation (by decide) (fun _ => rfl) h rest
  | crcInit | crcByte | netTake | fsReset => rfl
  | codecEncCmd | netSubmit | netCmd | liveEval | arbSelect | slewStep =>
    simp [encode, decode_op, decodeOp, readU16_write, readU32_write]
  | rxExtract t => simp [encode, decode_op, decodeOp, readType_write]
  | radioPoll a => simp [encode, decode_op, decodeOp, readSample_write]
  | fsUpdate now a => simp [encode, decode_op, decodeOp, readU32_write, readFlag_write]

/-- The select codes of R77. -/
def selectCodes : List Nat :=
  [0x00, 0x01, 0x02, 0x10, 0x11, 0x12, 0x13, 0x14, 0x15, 0x16, 0x17, 0x18, 0x19, 0x1A, 0x1B, 0x20, 0x21,
    0x30, 0x31, 0x32, 0x33, 0x34, 0x35, 0x40, 0x41, 0x50, 0x60]

theorem decodeOp_of_unassigned {op : Byte} (h : op.toNat ∉ selectCodes) (r : List Byte) :
    decodeOp op r = .bad (.unassignedOp op) := by
  unfold decodeOp
  split
  case h_28 => rfl
  all_goals simp_all [selectCodes]

end Sys2Proof

namespace Sys2Proof.Machine

/-! ## Steps and runs -/

theorem step_of_decode_ok {s : State} {r rest : List Byte} {waiting : List (List Byte)} {i : Instr}
    (hwait : s.requests = r :: waiting) (hread : decode r = .ok i rest) :
    step s = exec i (s.setRequests waiting) := by
  simp only [step, takeRequest, hwait, hread]

theorem step_of_decode_bad {s : State} {r : List Byte} {waiting : List (List Byte)} {e : DecodeError}
    (hwait : s.requests = r :: waiting) (hread : decode r = .bad e) : step s = .refused (.unreadableRequest e) := by
  simp only [step, takeRequest, hwait, hread]

/-- A waiting encoding is performed (O1). -/
theorem step_of_encoded {s : State} {i : Instr} {waiting : List (List Byte)} (hwf : i.wf = true)
    (hwait : s.requests = encode i :: waiting) : step s = exec i (s.setRequests waiting) := by
  have hread := decode_encode hwf []
  rw [List.append_nil] at hread
  exact step_of_decode_ok hwait hread

theorem step_of_idle {s : State} (hwait : s.requests = []) : step s = .next s := by
  simp only [step, takeRequest, hwait]

/-- A run performs one step, then the rest. -/
theorem run_succ {s s' : State} (h : step s = .next s') (k : Nat) :
    Host.Core.run Sys2Proof.core (k + 1) s = Host.Core.run Sys2Proof.core k s' := by
  have hcore : Sys2Proof.core.step s = .next s' := h
  simp only [Host.Core.run, hcore]

/-! ## The statements -/

/-- Settles O1: each reader takes back what its writer wrote, so the constructors are read back one by one. -/
theorem decodeOfEncodeGivesTheInstruction : Obligations.DecodeOfEncodeGivesTheInstruction :=
  fun _ rest h => decode_encode h rest

/-- Settles O2: five requests and two frames, each evaluated. -/
theorem writtenWordsDecodeRight : Obligations.WrittenWordsDecodeRight := by
  unfold Obligations.WrittenWordsDecodeRight
  decide

/-- Settles O3: the two ways a step can start. -/
theorem stepRunsTheDecodedRequest : Obligations.StepRunsTheDecodedRequest :=
  ⟨fun _ _ _ _ _ hwait hread => step_of_decode_ok hwait hread, fun _ hwait => step_of_idle hwait⟩

/-- Settles O4: a code that is none of the 27 falls through every arm of the decoder, and a step refuses what the decoder
does. -/
theorem unassignedSelectCodesAreRefused : Obligations.UnassignedSelectCodesAreRefused := by
  refine ⟨fun op rest hop hcode => ?_, fun _ _ _ _ hwait hread => step_of_decode_bad hwait hread⟩
  rw [decode_op hop, decodeOp_of_unassigned hcode]

end Sys2Proof.Machine
end

section
/-! SUPPORT. What each unit's operations write (`10_state.md` sections 2 to 8). One inversion lemma per unit says the whole
next state; the frame of every operation, the invariant and the slot's ownership are read off it. -/

namespace Sys2Proof.Machine

/-! ## One lemma per unit -/

section
variable {i : Instr} {s t : State}

theorem exec_crc16_next (hunit : unitOf i = .crc16) (h : exec i s = .next t) :
    ∃ c r, t = (s.setCrcAcc c).setResult r := by
  cases i with
  | crcInit => cases h; exact ⟨0xFFFF, s.result, rfl⟩
  | crcByte b => cases h; exact ⟨_, _, rfl⟩
  | crcRange bytes => cases h; exact ⟨s.crcAcc, _, rfl⟩
  | _ => cases hunit

/-- R113: an operation of CODEC answers every state alike, with one result or with one refusal. -/
theorem exec_codec_cases (hunit : unitOf i = .codec) :
    (∃ r, ∀ s, exec i s = .next (s.setResult r)) ∨ ∃ e, ∀ s, exec i s = .refused e := by
  cases i with
  | codecBuild T P d =>
    by_cases hP : P.length ≤ 65535
    · exact .inl ⟨_, fun s => exec_codecBuild hP T d s⟩
    · exact .inr ⟨_, fun _ => if_neg hP⟩
  | codecEncCmd seq a b =>
    by_cases hdom : (axisInDomain a && axisInDomain b) = true
    · exact .inl ⟨_, fun _ => if_pos hdom⟩
    · exact .inr ⟨_, fun _ => if_neg hdom⟩
  | frameCommand | frameTelemetry | framePing | framePong | frameLog | codecHdr | codecLen | codecCrcok | codecParseCmd
  | codecParseTlm | codecParsePing | codecParsePong | codecParseLog | codecEncTlm | codecEncLog =>
    exact .inl ⟨_, fun _ => rfl⟩
  | _ => cases hunit

theorem exec_codec_next (hunit : unitOf i = .codec) (h : exec i s = .next t) :
    ∃ r, t = s.setResult r ∧ ∀ u, exec i u = .next (u.setResult r) := by
  rcases exec_codec_cases hunit with ⟨r, hr⟩ | ⟨e, he⟩
  · rw [hr] at h
    cases h
    exact ⟨r, rfl, hr⟩
  · rw [he] at h
    cases h

theorem exec_codec_refused (hunit : unitOf i = .codec) {e : Refusal} (h : exec i s = .refused e) (u : State) :
    exec i u = .refused e := by
  rcases exec_codec_cases hunit with ⟨r, hr⟩ | ⟨e', he⟩
  · rw [hr] at h
    cases h
  · rw [he] at h ⊢
    exact h

theorem exec_rxbuf_next (hunit : unitOf i = .rxbuf) (h : exec i s = .next t) :
    (∃ bytes r, i = .rxPush bytes ∧ t = (s.setRx (rxAppend s.params.cap bytes s.rx).1).setResult r) ∨
      ∃ T r, i = .rxExtract T ∧ t = (s.setRx (rxTryExtract s.params T s.rx).1).setResult r := by
  cases i with
  | rxPush bytes => cases h; exact .inl ⟨_, _, rfl, rfl⟩
  | rxExtract T => cases h; exact .inr ⟨_, _, rfl, rfl⟩
  | _ => cases hunit

/-- R233: the network agent performs `NET.SUBMIT` only. -/
theorem networkAgent_performs_iff : .networkAgent ∈ performers i ↔ ∃ thr steer, i = .netSubmit thr steer := by
  cases i <;> simp [performers]

/-- Of the six operations `NET.SUBMIT` alone fills the slot, and no other writes its values. -/
theorem exec_live_next (hunit : unitOf i = .live) (h : exec i s = .next t) :
    (∃ thr steer, i = .netSubmit thr steer ∧ t = s.setLive (slotFilled thr steer s.live)) ∨
      ∃ v r, t = (s.setLive v).setResult r ∧ v.slotThr = s.live.slotThr ∧ v.slotSteer = s.live.slotSteer ∧
        (v.slotFull = true → s.live.slotFull = true) := by
  cases i with
  | netSubmit thr steer => cases h; exact .inl ⟨_, _, rfl, rfl⟩
  | radioPoll a => cases h; exact .inr ⟨radioSampled a s.live, s.result, rfl, by simp⟩
  | netTake => cases h; exact .inr ⟨(slotTaken s.live).1, _, rfl, rfl, rfl, nofun⟩
  | netCmd thr steer now => cases h; exact .inr ⟨netArrived (thr, steer) now s.live, s.result, rfl, rfl, rfl, id⟩
  | liveEval | arbSelect => cases h; exact .inr ⟨s.live, _, rfl, rfl, rfl, id⟩
  | _ => cases hunit

theorem exec_fsafe_next (hunit : unitOf i = .fsafe) (h : exec i s = .next t) :
    (i ≠ .fsReset ∧ ∃ now active r, t = (s.setFs (fsStep s.params now active s.fs)).setResult r) ∨
      (i = .fsReset ∧ ∃ free, t = (s.setFs (fsCleared free)).useFree) := by
  cases i with
  | fsUpdate now active => cases h; exact .inl ⟨nofun, _, _, _, rfl⟩
  | fsReset => cases h; exact .inr ⟨rfl, _, rfl⟩
  | _ => cases hunit

theorem exec_slew_next (hunit : unitOf i = .slew) (h : exec i s = .next t) : ∃ r, t = s.setResult r := by
  cases i with
  | slewStep => cases h; exact ⟨_, rfl⟩
  | _ => cases hunit

theorem exec_sched_next (hunit : unitOf i = .sched) (h : exec i s = .next t) :
    ∃ now bytes a w, t = tickPhases now bytes a w s := by
  cases i with
  | tick now bytes a w e =>
    refine ⟨now, bytes, a, w, ?_⟩
    rcases execTick_cases s now bytes a w e with ⟨_, hexec⟩ | ⟨_, _, hexec⟩ | ⟨_, _, hexec⟩
    all_goals cases hexec.symm.trans h
    rfl
  | _ => cases hunit

/-! ## Frames -/

/-- No operation writes a parameter (R28), and none touches the waiting requests (log 1). -/
theorem exec_next_keeps (h : exec i s = .next t) : t.params = s.params ∧ t.requests = s.requests := by
  cases hunit : unitOf i with
  | crc16 => obtain ⟨_, _, rfl⟩ := exec_crc16_next hunit h; simp
  | codec => obtain ⟨_, rfl, _⟩ := exec_codec_next hunit h; simp
  | rxbuf => rcases exec_rxbuf_next hunit h with ⟨_, _, _, rfl⟩ | ⟨_, _, _, rfl⟩ <;> simp
  | live => rcases exec_live_next hunit h with ⟨_, _, _, rfl⟩ | ⟨_, _, rfl, _⟩ <;> simp
  | fsafe => rcases exec_fsafe_next hunit h with ⟨_, _, _, _, rfl⟩ | ⟨_, _, rfl⟩ <;> simp
  | slew => obtain ⟨_, rfl⟩ := exec_slew_next hunit h; simp
  | sched => obtain ⟨_, _, _, _, rfl⟩ := exec_sched_next hunit h; simp

theorem step_next_params (h : step s = .next t) : t.params = s.params := by
  rcases step_next h with rfl | ⟨i, s', hexec, hparams, _⟩
  · rfl
  · rw [(exec_next_keeps hexec).1, hparams]

end

/-! ## The invariant -/

section
variable {i : Instr} {s t : State}

theorem State.inv_iff (s : State) : s.inv = true ↔ s.rx.inv s.params.cap = true ∧ s.fs.inv = true := by
  rw [State.inv, Bool.and_eq_true]

theorem fsInv_of_seeded {r : FsRegs} (h : r.seeded = true) : r.inv = true := by
  rw [FsRegs.inv, h, Bool.true_or]

theorem exec_keeps_rxInv (hinv : s.rx.inv s.params.cap = true) (h : exec i s = .next t) :
    t.rx.inv s.params.cap = true := by
  cases hunit : unitOf i with
  | crc16 => obtain ⟨_, _, rfl⟩ := exec_crc16_next hunit h; exact hinv
  | codec => obtain ⟨_, rfl, _⟩ := exec_codec_next hunit h; exact hinv
  | rxbuf =>
    rcases exec_rxbuf_next hunit h with ⟨bytes, _, _, rfl⟩ | ⟨T, _, _, rfl⟩
    · exact rxAppend_inv bytes hinv
    · exact rxTryExtract_inv s.params T hinv
  | live => rcases exec_live_next hunit h with ⟨_, _, _, rfl⟩ | ⟨_, _, rfl, _⟩ <;> exact hinv
  | fsafe => rcases exec_fsafe_next hunit h with ⟨_, _, _, _, rfl⟩ | ⟨_, _, rfl⟩ <;> exact hinv
  | slew => obtain ⟨_, rfl⟩ := exec_slew_next hunit h; exact hinv
  | sched => obtain ⟨now, bytes, a, w, rfl⟩ := exec_sched_next hunit h; exact tickPhases_rx_inv s now bytes a w rfl hinv

theorem exec_keeps_fsInv (hinv : s.fs.inv = true) (h : exec i s = .next t) : t.fs.inv = true := by
  cases hunit : unitOf i with
  | crc16 => obtain ⟨_, _, rfl⟩ := exec_crc16_next hunit h; exact hinv
  | codec => obtain ⟨_, rfl, _⟩ := exec_codec_next hunit h; exact hinv
  | rxbuf => rcases exec_rxbuf_next hunit h with ⟨_, _, _, rfl⟩ | ⟨_, _, _, rfl⟩ <;> exact hinv
  | live => rcases exec_live_next hunit h with ⟨_, _, _, rfl⟩ | ⟨_, _, rfl, _⟩ <;> exact hinv
  | fsafe =>
    rcases exec_fsafe_next hunit h with ⟨_, _, _, _, rfl⟩ | ⟨_, _, rfl⟩
    · exact fsInv_of_seeded (fsStep_seeded ..)
    · rfl
  | slew => obtain ⟨_, rfl⟩ := exec_slew_next hunit h; exact hinv
  | sched =>
    obtain ⟨now, bytes, a, w, rfl⟩ := exec_sched_next hunit h
    rw [tickPhases_fs]
    exact fsInv_of_seeded (fsStep_seeded ..)

theorem exec_keeps_inv (hinv : s.inv = true) (h : exec i s = .next t) : t.inv = true := by
  rw [State.inv_iff] at hinv ⊢
  rw [(exec_next_keeps h).1]
  exact ⟨exec_keeps_rxInv hinv.1 h, exec_keeps_fsInv hinv.2 h⟩

end

/-! ## The slot -/

section
variable (now : U32) (bytes : List Byte) (a : Option Axes) (w : Sensors) (s : State)

theorem tickRadio_keeps_slotValues (first : Bool) :
    (tickRadio first now a s).live.slotThr = s.live.slotThr ∧
    (tickRadio first now a s).live.slotSteer = s.live.slotSteer := by
  rcases tickRadio_cases s first now a with ⟨_, hlive, _, _⟩ | ⟨_, h⟩
  · simp [hlive]
  · simp [h]

theorem netArrivedIf_keeps_slotValues (c : Option Axes) (r : LiveRegs) :
    (netArrivedIf c now r).slotThr = r.slotThr ∧ (netArrivedIf c now r).slotSteer = r.slotSteer := by
  cases c <;> exact ⟨rfl, rfl⟩

/-- A tick empties the slot and leaves the two values in it (log 19). -/
theorem tickPhases_slot :
    (tickPhases now bytes a w s).live.slotFull = false ∧
    (tickPhases now bytes a w s).live.slotThr = s.live.slotThr ∧
    (tickPhases now bytes a w s).live.slotSteer = s.live.slotSteer := by
  rw [tickPhases_live_eq_netArrivedIf]
  simp [netArrivedIf_keeps_slotValues, tickRadio_keeps_slotValues]

end

section
variable {i : Instr} {s t : State} (htake : i ≠ .netTake) (hunit : unitOf i ≠ .sched)
  (hother : .networkAgent ∉ performers i) (a b : F32)
include htake hunit hother

/-- What an operation gives after a submit, for an operation that neither takes nor fills the slot. -/
theorem exec_next_of_submitted (h : exec i s = .next t) :
    exec i (s.setLive (slotFilled a b s.live)) = .next (t.setLive (slotFilled a b t.live)) := by
  cases i with
  | netTake => exact absurd rfl htake
  | tick => exact absurd rfl hunit
  | netSubmit => exact absurd (networkAgent_performs_iff.mpr ⟨_, _, rfl⟩) hother
  | codecBuild | codecEncCmd =>
    obtain ⟨r, rfl, hall⟩ := exec_codec_next rfl h
    exact hall _
  | radioPoll sample => cases h; cases sample <;> rfl
  | _ => cases h; rfl

theorem exec_refused_of_submitted {e : Refusal} (h : exec i s = .refused e) :
    exec i (s.setLive (slotFilled a b s.live)) = .refused e := by
  cases i with
  | netTake => exact absurd rfl htake
  | tick => exact absurd rfl hunit
  | netSubmit => exact absurd (networkAgent_performs_iff.mpr ⟨_, _, rfl⟩) hother
  | codecBuild | codecEncCmd => exact exec_codec_refused rfl h _
  | _ => cases h

end

/-! ## The statements -/

/-- Settles O7: the buffer's part is kept by the push and the extraction, FSAFE's by every update and by the reset. -/
theorem everyStepKeepsTheInvariant : Obligations.EveryStepKeepsTheInvariant := by
  intro s t hinv h
  rcases step_next h with rfl | ⟨i, s', hexec, hparams, hrx, hfs⟩
  · exact hinv
  · refine exec_keeps_inv ?_ hexec
    rwa [State.inv_iff, hparams, hrx, hfs, ← State.inv_iff]

/-- Settles O6: an empty store, a cursor at 0 and an Inactive failsafe. -/
theorem resetKeepsTheInvariant : Obligations.ResetKeepsTheInvariant := by
  intro p
  have hrx : (State.resetWith p).rx.inv p.cap = true := (RxBuf.inv_iff _ _).mpr ⟨rfl, nofun, Nat.zero_le _⟩
  exact (State.inv_iff _).mpr ⟨hrx, rfl⟩

/-- Settles O8: a step is an operation or a wait, and neither writes a parameter. -/
theorem noStepChangesAParameter : Obligations.NoStepChangesAParameter := fun _ _ h => step_next_params h

/-- Settles O9: the next state of each unit's operations, written out, shows what it leaves. -/
theorem operationsKeepToTheirUnit : Obligations.OperationsKeepToTheirUnit := by
  intro i s t h
  cases hunit : unitOf i with
  | crc16 =>
    obtain ⟨_, _, rfl⟩ := exec_crc16_next hunit h
    simp [State.readRx]
  | codec =>
    obtain ⟨_, rfl, _⟩ := exec_codec_next hunit h
    simp [State.readRx]
  | rxbuf => rcases exec_rxbuf_next hunit h with ⟨_, _, _, rfl⟩ | ⟨_, _, _, rfl⟩ <;> simp
  | live => rcases exec_live_next hunit h with ⟨_, _, _, rfl⟩ | ⟨_, _, rfl, _⟩ <;> simp [State.readRx]
  | fsafe =>
    rcases exec_fsafe_next hunit h with ⟨_, _, _, _, rfl⟩ | ⟨rfl, _, rfl⟩ <;> simp [State.readRx]
  | slew =>
    obtain ⟨_, rfl⟩ := exec_slew_next hunit h
    simp [State.readRx]
  | sched =>
    obtain ⟨_, _, _, _, rfl⟩ := exec_sched_next hunit h
    simp

/-- Settles O21: the result is the one the operation gives in every state. -/
theorem codecIsStateless : Obligations.CodecIsStateless := by
  intro i s t u hunit h
  obtain ⟨r, rfl, hall⟩ := exec_codec_next hunit h
  exact ⟨rfl, hall u⟩

/-- Settles O39: the one operation of the network agent is `NET.SUBMIT`; among the others only those of LIVE and `TICK`
write LIVE at all, and of the slot they write the flag alone. -/
theorem onlyTheNetworkAgentFillsTheSlot : Obligations.OnlyTheNetworkAgentFillsTheSlot := by
  intro i s t h
  refine ⟨fun hagent => ?_, fun hother => ?_⟩
  · obtain ⟨thr, steer, rfl⟩ := networkAgent_performs_iff.mp hagent
    cases h
    rfl
  cases hunit : unitOf i with
  | crc16 => obtain ⟨_, _, rfl⟩ := exec_crc16_next hunit h; simp
  | codec => obtain ⟨_, rfl, _⟩ := exec_codec_next hunit h; simp
  | rxbuf => rcases exec_rxbuf_next hunit h with ⟨_, _, _, rfl⟩ | ⟨_, _, _, rfl⟩ <;> simp
  | live =>
    rcases exec_live_next hunit h with ⟨thr, steer, rfl, _⟩ | ⟨v, _, rfl, hslot⟩
    · exact absurd (networkAgent_performs_iff.mpr ⟨thr, steer, rfl⟩) hother
    · exact hslot
  | fsafe => rcases exec_fsafe_next hunit h with ⟨_, _, _, _, rfl⟩ | ⟨_, _, rfl⟩ <;> simp
  | slew => obtain ⟨_, rfl⟩ := exec_slew_next hunit h; simp
  | sched =>
    obtain ⟨now, bytes, a, w, rfl⟩ := exec_sched_next hunit h
    obtain ⟨hempty, hthr, hsteer⟩ := tickPhases_slot now bytes a w s
    exact ⟨hthr, hsteer, fun hfull => absurd hfull (ne_true_of_eq_false hempty)⟩

/-- Settles O38: the submit writes the slot, which the operation neither reads nor writes. -/
theorem submitCommutesWithWhatNeitherTakesNorFills : Obligations.SubmitCommutesWithWhatNeitherTakesNorFills := by
  intro i s a b htake hunit hother
  refine ⟨_, exec_netSubmit a b s, fun t h => ⟨_, exec_netSubmit a b t, ?_⟩, fun r h => ?_⟩
  · exact exec_next_of_submitted htake hunit hother a b h
  · exact exec_refused_of_submitted htake hunit hother a b h

end Sys2Proof.Machine
end

section
/-! SUPPORT. CRC16 (`40_crc16.md` R92, R93, R96). The register is fed one byte by a map that is one-to-one in the register
and in the byte, so a difference in one byte is never lost; streaming feeds the bytes one request at a time. -/

namespace Sys2Proof.Machine

/-! ## One byte -/

theorem crc16Byte_injective_register (b : Byte) : Function.Injective (crc16Byte · b) := fun c c' h => by
  simp only [crc16Byte] at h
  have hxor := (crcShifts_bijective 8).injective h
  rwa [BitVec.xor_left_inj] at hxor

theorem crc16Byte_injective_byte (c : U16) : Function.Injective (crc16Byte c) := fun b b' h => by
  have hxor := (crcShifts_bijective 8).injective h
  have hext : b.zeroExtend 16 = b'.zeroExtend 16 := (xor_bijective c).injective hxor
  have hval := congrArg BitVec.toNat hext
  have hb := b.isLt
  have hb' := b'.isLt
  simp only [BitVec.truncate_eq_setWidth, BitVec.toNat_setWidth] at hval
  exact BitVec.eq_of_toNat_eq (by omega)

theorem crc16From_injective_register (bytes : List Byte) : Function.Injective (crc16From · bytes) := by
  induction bytes with
  | nil => exact fun _ _ h => h
  | cons b bytes ih => exact ih.comp (crc16Byte_injective_register b)

/-! ## Streaming -/

/-- One `CRC.BYTE` for each byte of a string, waiting in offset order, fold the string into the register. -/
theorem run_crcBytes (bytes : List Byte) {s : State}
    (hwait : s.requests = bytes.map fun b => encode (.crcByte b)) :
    ∃ t : State, Host.Core.run Sys2Proof.core bytes.length s = .next t ∧ t.crcAcc = crc16From s.crcAcc bytes ∧
      t.requests = [] := by
  induction bytes generalizing s with
  | nil => exact ⟨s, rfl, rfl, hwait⟩
  | cons b bytes ih =>
    have hstep := step_of_encoded (i := .crcByte b) rfl hwait
    rw [exec_crcByte] at hstep
    obtain ⟨t, hrun, hacc, hdone⟩ := ih (s := ((s.setRequests _).setCrcAcc _).setResult _) rfl
    exact ⟨t, (run_succ hstep _).trans hrun, hacc, hdone⟩

/-! ## The statements -/

/-- Settles O12: after `CRC.INIT` the register is what R91 starts from. -/
theorem streamedCrcEqualsTheRange : Obligations.StreamedCrcEqualsTheRange := by
  intro s bytes hwait
  have hstep := step_of_encoded (i := .crcInit) rfl hwait
  rw [exec_crcInit] at hstep
  obtain ⟨t, hrun, hacc, hdone⟩ := run_crcBytes bytes (s := (s.setRequests _).setCrcAcc 0xFFFF) rfl
  have hcrc : t.crcAcc = crc16 bytes := hacc
  have hrange : exec (.crcRange bytes) t = .next (t.setResult (.crc t.crcAcc)) := by rw [exec_crcRange, hcrc]
  exact ⟨t, (run_succ hstep _).trans hrun, hcrc, hdone, hrange⟩

/-- Settles O14: the changed byte makes the register differ, and the bytes after it keep it different. -/
theorem crcDetectsEveryOneByteChange : Obligations.CrcDetectsEveryOneByteChange := by
  intro s before after b b' hne
  refine ⟨_, _, exec_crcRange _ s, exec_crcRange _ s, fun h => ?_⟩
  rw [crc16_append, crc16_append, crc16From_cons, crc16From_cons] at h
  exact hne (crc16Byte_injective_byte _ (crc16From_injective_register after h))

end Sys2Proof.Machine
end

section
/-! SUPPORT. CODEC (`41_frame_codec.md` R113, R114; `30_encoding.md` R60 to R70). A written frame is read back by the rule
of its type, whatever follows it; the value is right exactly where the stored CRC is. -/

namespace Sys2Proof.Machine

/-! ## Wire rows -/

/-- The covered bytes of a frame (R94): all after `AA 55` and before the CRC. -/
def coveredBytes (T : MessageType) (P : List Byte) : List Byte :=
  [0x01, typeCode T] ++ bytes16 (BitVec.ofNat 16 P.length) ++ P

/-- A length below 256 is its low byte and a zero byte (R74). -/
theorem coveredBytes_of_short (T : MessageType) {P : List Byte} (h : P.length < 256) :
    coveredBytes T P = [0x01, typeCode T, BitVec.ofNat 8 P.length, 0x00] ++ P := by
  have hlow : lowByte (BitVec.ofNat 16 P.length) = BitVec.ofNat 8 P.length :=
    BitVec.eq_of_toNat_eq (by simp [lowByte])
  have hhigh : highByte (BitVec.ofNat 16 P.length) = 0x00 :=
    BitVec.eq_of_toNat_eq (by simp [highByte, Nat.shiftRight_eq_div_pow]; omega)
  rw [coveredBytes, bytes16, hlow, hhigh]
  rfl

/-- The result of a wire row, by the value that its payload gives. -/
theorem answer_wireRow {T : MessageType} {P : List Byte} {v : FrameValue} (hlen : lengthAllowed T P.length = true)
    (hvalue : decodePayload T P = v) (crc : U16) (s : State) :
    answer s (.parsed (parseFrame T (frameBytes T P crc))) =
      .next (s.setResult (.parsed
        (if crc = crc16 ([0x01, typeCode T, BitVec.ofNat 8 P.length, 0x00] ++ P) then .ok (v, 8 + P.length)
          else .err .crcMismatch))) := by
  have hshort : P.length < 256 := by
    have hmax : 8 + P.length ≤ 208 := lengthAllowed_le hlen
    omega
  have hparse := parseFrame_frameBytes T P crc [] hlen
  rw [List.append_nil, show (headerBytes T (BitVec.ofNat 16 P.length) ++ P).drop 2 = coveredBytes T P from rfl,
    coveredBytes_of_short T hshort, hvalue] at hparse
  rw [answer_eq, hparse]
  exact congrArg (fun r => Host.Outcome.next (s.setResult (.parsed r))) (if_congr eq_comm rfl rfl)

theorem crc16_ping : crc16 [0x01, 0x03, 0x00, 0x00] = 0xD8F1 := by decide +kernel

theorem crc16_pong : crc16 [0x01, 0x04, 0x00, 0x00] = 0x1940 := by decide +kernel

/-! ## Round trips -/

/-- What `CODEC.BUILD` gives for a payload of its type's length is parsed back from any bytes that begin with it. -/
theorem exec_codecBuild_then_parse {T : MessageType} {P : List Byte} {d : Nat} (hlen : lengthAllowed T P.length = true)
    (hd : 8 + P.length ≤ d) (s u : State) (tail : List Byte) :
    ∃ D, exec (.codecBuild T P d) s = .next (s.setResult (.built (.ok D))) ∧
      exec (codecParse (D ++ tail) T) u = .next (u.setResult (.parsed (.ok (decodePayload T P, 8 + P.length)))) := by
  have hshort : P.length ≤ 65535 := by
    have hmax : 8 + P.length ≤ 208 := lengthAllowed_le hlen
    omega
  rcases buildFrame_cases T P d with ⟨hsmall, _⟩ | ⟨_, hbuild⟩
  · omega
  · refine ⟨_, by rw [exec_codecBuild hshort, hbuild], ?_⟩
    rw [exec_codecParse, parseFrame_frameBytes T P _ tail hlen, if_pos rfl]

/-! ## The statements -/

/-- Settles O19: each row is a parse of a frame whose payload has its type's length. -/
theorem wireRowsAreParsedByTheirRule : Obligations.WireRowsAreParsedByTheirRule := by
  intro s
  refine ⟨fun seq thr steer reserved crc => ?_, fun seq status w crc => ?_, fun crc => ?_, fun crc => ?_,
    fun text crc htext => ?_⟩
  · exact answer_wireRow (T := .command) (P := commandPayload seq thr steer reserved) rfl
      (congrArg FrameValue.command (decodeCommand_payload seq thr steer reserved)) crc s
  · exact answer_wireRow (T := .telemetry) (P := telemetryPayload seq status w) rfl
      (congrArg FrameValue.telemetry (decodeTelemetry_payload seq status w)) crc s
  · rw [← crc16_ping]
    exact answer_wireRow (T := .ping) (P := []) rfl rfl crc s
  · rw [← crc16_pong]
    exact answer_wireRow (T := .pong) (P := []) rfl rfl crc s
  · exact answer_wireRow (T := .log) (P := text) (decide_eq_true htext) rfl crc s

/-- Settles O23: the four payloads have their types' lengths, and each decodes to the value it was made from. -/
theorem buildThenParseReturnsTheSameValue : Obligations.BuildThenParseReturnsTheSameValue := by
  intro s u tail
  refine ⟨fun d => ?_, ?_, ?_, fun text => ?_⟩
  · have hround := exec_codecBuild_then_parse (T := .telemetry) (P := encodeTelemetry d.seq d.status d.sensors) (d := 23)
      rfl le_rfl s u tail
    rwa [decodePayload_encodeTelemetry] at hround
  · exact exec_codecBuild_then_parse (T := .ping) (P := []) rfl le_rfl s u tail
  · exact exec_codecBuild_then_parse (T := .pong) (P := []) rfl le_rfl s u tail
  · have hlength : (encodeLog text).length = min text.length 200 := (List.length_take ..).trans (Nat.min_comm ..)
    have hround := exec_codecBuild_then_parse (T := .log) (P := encodeLog text) (d := 208)
      (decide_eq_true (by rw [hlength]; exact Nat.min_le_right ..)) (by omega) s u tail
    rwa [hlength] at hround

end Sys2Proof.Machine
end

section
/-! SUPPORT. SCHED (`46_scheduler.md` R200 to R202). Where the buffer, `rx_taken` and `frame_out` after a tick come from:
one push, then one extraction for each expected type, and no later phase writes them. -/

namespace Sys2Proof.Machine

section
variable (s : State) (first : Bool) (now : U32)

theorem tickRadio_rxTaken (a : Option Axes) : (tickRadio first now a s).ports.rxTaken = s.ports.rxTaken := by
  rcases tickRadio_cases s first now a with ⟨_, _, _, hports⟩ | ⟨_, h⟩
  · rw [hports]
  · rw [h]

theorem tickActuate_rxTaken : (tickActuate first now s).ports.rxTaken = s.ports.rxTaken := by
  rcases tickActuate_cases s first now with ⟨_, h⟩ | ⟨_, _, h⟩ | ⟨_, _, h⟩
  · rw [h]; rfl
  · rw [h, actuate_ports]
  · rw [h]

theorem tickTelemetry_rxTaken (w : Sensors) : (tickTelemetry first now w s).ports.rxTaken = s.ports.rxTaken := by
  rcases tickTelemetry_cases s first now w with ⟨_, h⟩ | ⟨_, _, h⟩ | ⟨_, _, _, _, h⟩
  all_goals rw [h]
  all_goals rfl

end

section
variable (now : U32) (bytes : List Byte) (a : Option Axes) (w : Sensors) (s : State)

/-- `rx_taken` is the answer of the pump's push (R201). -/
theorem tickPhases_rxTaken : (tickPhases now bytes a w s).ports.rxTaken = min bytes.length (s.params.cap - s.rx.cur) := by
  rw [tickPhases_eq, setSched_ports, tickTelemetry_rxTaken, tickDriven, tickActuate_rxTaken, tickDecided,
    tickFailsafe_ports, tickArbitrate_ports, tickSourced, tickNetwork_ports, tickRadio_rxTaken]
  rfl

/-- `frame_out` is what the expected types' extractions give, in list order (R202). -/
theorem tickPhases_frameOut : (tickPhases now bytes a w s).ports.frameOut =
    (extractTypes s.params s.params.expectedTypes (rxAppend s.params.cap bytes s.rx).1).2 := by
  obtain ⟨_, _, hframe, _⟩ := tickPhases_from_tickSourced now bytes a w s
  obtain ⟨_, _, _, _, _, _, _, hradio, _⟩ := tickRadio_keeps (tickParsed bytes s) (!s.sched.seeded) now a
  rw [hframe, tickSourced, tickNetwork_ports, hradio]
  rfl

end

end Sys2Proof.Machine
end

section
/-! SUPPORT. RXBUF (`42_receive_buffer.md` R135, R137, R138; `70_reset_and_hazards.md` R260). A parse waits only for a frame
longer than what is there, and no frame is longer than the smallest capacity; a wedged buffer gives every expected
extraction a type that is not its own, so its content can only grow. -/

namespace Sys2Proof.Machine

/-! ## Waiting for a frame -/

section
variable {p : Params} {T : MessageType} {rx : RxBuf}

/-- A parse that asks for more bytes has fewer than the largest frame (R137). -/
theorem length_lt_of_parseFrame_insufficient {S : List Byte} (h : parseFrame T S = .err .insufficientData)
    (hp : byteAt S 0 = 0xAA ∧ byteAt S 1 = 0x55) (ht : byteAt S 3 = typeCode T) : S.length < Config.maxFrame := by
  rcases parseFrame_err h hp ht with ⟨_, hshort | ⟨hallowed, hshort⟩⟩ | ⟨he, _⟩ | ⟨he, _⟩ | ⟨he, _⟩
  · exact hshort.trans (by decide)
  · exact hshort.trans_le (lengthAllowed_le hallowed)
  all_goals cases he

theorem rxAttempt_partial (h : (rxAttempt p T rx).2 = .noFrame .partialFrame) :
    byteAt rx.content 3 = typeCode T ∧ parseFrame T rx.content = .err .insufficientData := by
  rcases rxAttempt_cases p T rx with
    ⟨_, e⟩ | ⟨_, _, e⟩ | ⟨_, _, _, _, _, e⟩ | ⟨_, ht, hparse, _, _⟩ | ⟨_, _, _, _, _, e⟩
  case inr.inr.inr.inl => exact ⟨ht, hparse⟩
  all_goals rw [e] at h; cases h

/-- With `AA 55` in front the attempt is on the buffer as it is. -/
theorem rxTryExtract_of_prefixInFront (h : PrefixAt rx.content 0) : rxTryExtract p T rx = rxAttempt p T rx := by
  rcases rxTryExtract_cases p T rx with ⟨hnone, _⟩ | ⟨i, rx', _, hfirst, hzero, _, _, _, e⟩
  · exact absurd h (hnone 0)
  · have hi : i = 0 := by
      by_contra hne
      exact hfirst 0 (Nat.pos_of_ne_zero hne) h
    rw [e, hzero hi]

/-- A content as long as any frame leaves nothing to wait for (R137). -/
theorem rxTryExtract_ne_partial (hfull : Config.maxFrame ≤ rx.cur) (h0 : byteAt rx.content 0 = 0xAA)
    (h1 : byteAt rx.content 1 = 0x55) : (rxTryExtract p T rx).2 ≠ .noFrame .partialFrame := by
  rw [rxTryExtract_of_prefixInFront ((prefixAt_iff_bytes _ 0).mpr ⟨h0, h1⟩)]
  intro hpartial
  obtain ⟨ht, hparse⟩ := rxAttempt_partial hpartial
  have hlt := length_lt_of_parseFrame_insufficient hparse ⟨h0, h1⟩ ht
  rw [content_length] at hlt
  omega

/-! ## A push into an empty buffer -/

theorem rxAppend_content_of_empty {cap : Nat} {bytes : List Byte} (hinv : rx.inv cap = true) (hempty : rx.cur = 0)
    (hroom : bytes.length ≤ cap) : (rxAppend cap bytes rx).1.content = bytes := by
  have hcontent : rx.content = [] := List.eq_nil_of_length_eq_zero (by rw [content_length, hempty])
  obtain ⟨hwf, _, _⟩ := (RxBuf.inv_iff _ _).mp hinv
  rw [rxAppend_content cap bytes hwf, hcontent, hempty, Nat.sub_zero, Nat.min_eq_left hroom, List.take_length,
    List.nil_append]

/-- A content that a parser accepts has the type's header in front. -/
theorem rxTryExtract_of_parse_ok {v : FrameValue} {n : Nat} (hparse : parseFrame T rx.content = .ok (v, n)) :
    rxTryExtract p T rx = (rxShift n rx, .frame v) := by
  obtain ⟨hheader, _⟩ := (parseFrame_ok_iff _ _ _).mp hparse
  obtain ⟨h4, h0, h1, _, ht⟩ := checkHeader_ok hheader
  rw [rxTryExtract_of_prefixInFront ((prefixAt_iff_bytes _ 0).mpr ⟨h0, h1⟩), rxAttempt_of_parse_ok h4 ht hparse]

end

/-! ## The head-of-line wedge -/

section
variable {p : Params} {rx : RxBuf}

theorem wedged_iff : wedged p rx = true ↔ 4 ≤ rx.cur ∧ byteAt rx.content 0 = 0xAA ∧ byteAt rx.content 1 = 0x55 ∧
    ∀ T ∈ p.expectedTypes, byteAt rx.content 3 ≠ typeCode T := by
  simp [wedged, and_assoc]

/-- Every expected extraction ends in `TypeMismatch` and leaves the buffer (R134). -/
theorem rxTryExtract_of_wedged (hw : wedged p rx = true) {T : MessageType} (hT : T ∈ p.expectedTypes) :
    rxTryExtract p T rx = (rx, .noFrame .typeMismatch) := by
  obtain ⟨h4, h0, h1, h3⟩ := wedged_iff.mp hw
  exact rxTryExtract_mismatch p T h4 h0 h1 (h3 T hT)

theorem extractTypes_of_wedged (hw : wedged p rx = true) {Ts : List MessageType} (hTs : ∀ T ∈ Ts, T ∈ p.expectedTypes) :
    extractTypes p Ts rx = (rx, []) := by
  induction Ts with
  | nil => rfl
  | cons T Ts ih =>
    have hrest := ih fun U hU => hTs U (List.mem_cons_of_mem T hU)
    simp only [extractTypes, rxTryExtract_of_wedged hw (hTs T (List.mem_cons_self ..)), hrest]

theorem byteAt_of_prefix {S S' : List Byte} (h : S <+: S') {i : Nat} (hi : i < S.length) : byteAt S' i = byteAt S i := by
  obtain ⟨rest, rfl⟩ := h
  exact List.getD_append _ _ _ _ hi

/-- The wedge stands in the first four bytes, so more bytes behind them leave it. -/
theorem wedged_of_content_prefix {rx' : RxBuf} (hw : wedged p rx = true) (hgrow : rx.content <+: rx'.content) :
    wedged p rx' = true := by
  obtain ⟨h4, h0, h1, h3⟩ := wedged_iff.mp hw
  have hlen : 4 ≤ rx.content.length := by rwa [content_length]
  have hlen' := hgrow.length_le
  rw [content_length, content_length] at hlen'
  have hbyte (i : Nat) (hi : i < 4) : byteAt rx'.content i = byteAt rx.content i :=
    byteAt_of_prefix hgrow (by omega)
  rw [wedged_iff, hbyte 0 (by decide), hbyte 1 (by decide), hbyte 3 (by decide)]
  exact ⟨h4.trans hlen', h0, h1, h3⟩

theorem content_prefix_rxAppend (cap : Nat) (bytes : List Byte) (hwf : rx.mem.wf = true) :
    rx.content <+: (rxAppend cap bytes rx).1.content := by
  rw [rxAppend_content cap bytes hwf]
  exact List.prefix_append ..

theorem wedged_rxAppend (cap : Nat) (bytes : List Byte) (hwf : rx.mem.wf = true) (hw : wedged p rx = true) :
    wedged p (rxAppend cap bytes rx).1 = true :=
  wedged_of_content_prefix hw (content_prefix_rxAppend cap bytes hwf)

end

section
variable {s : State} (hwf : s.rx.mem.wf = true) (hw : wedged s.params s.rx = true) (now : U32) (bytes : List Byte)
  (a : Option Axes) (w : Sensors)
include hwf hw

/-- A tick only pumps into a wedged buffer. -/
theorem tickPhases_rx_of_wedged : (tickPhases now bytes a w s).rx = (rxAppend s.params.cap bytes s.rx).1 := by
  rw [tickPhases_rx, extractTypes_of_wedged (wedged_rxAppend _ bytes hwf hw) fun _ hT => hT]

theorem tickPhases_frameOut_of_wedged : (tickPhases now bytes a w s).ports.frameOut = [] := by
  rw [tickPhases_frameOut, extractTypes_of_wedged (wedged_rxAppend _ bytes hwf hw) fun _ hT => hT]

end

/-- An operation other than an unexpected extraction only adds to a wedged buffer. -/
theorem exec_content_prefix_of_wedged {i : Instr} {s t : State} (hwf : s.rx.mem.wf = true)
    (hw : wedged s.params s.rx = true) (hexpected : ∀ T, i = .rxExtract T → T ∈ s.params.expectedTypes)
    (h : exec i s = .next t) : s.rx.content <+: t.rx.content := by
  cases hunit : unitOf i with
  | crc16 => obtain ⟨_, _, rfl⟩ := exec_crc16_next hunit h; exact List.prefix_rfl
  | codec => obtain ⟨_, rfl, _⟩ := exec_codec_next hunit h; exact List.prefix_rfl
  | rxbuf =>
    rcases exec_rxbuf_next hunit h with ⟨bytes, _, _, rfl⟩ | ⟨T, _, hi, rfl⟩
    · exact content_prefix_rxAppend s.params.cap bytes hwf
    · rw [setResult_rx, setRx_rx, rxTryExtract_of_wedged hw (hexpected T hi)]
  | live => rcases exec_live_next hunit h with ⟨_, _, _, rfl⟩ | ⟨_, _, rfl, _⟩ <;> exact List.prefix_rfl
  | fsafe => rcases exec_fsafe_next hunit h with ⟨_, _, _, _, rfl⟩ | ⟨_, _, rfl⟩ <;> exact List.prefix_rfl
  | slew => obtain ⟨_, rfl⟩ := exec_slew_next hunit h; exact List.prefix_rfl
  | sched =>
    obtain ⟨now, bytes, a, w, rfl⟩ := exec_sched_next hunit h
    rw [tickPhases_rx_of_wedged hwf hw]
    exact content_prefix_rxAppend s.params.cap bytes hwf

/-! ## The statements -/

/-- Settles O28: a full buffer holds at least the largest frame, and only a parse of fewer bytes waits. -/
theorem fullBufferNeverWaitsForAFrame : Obligations.FullBufferNeverWaitsForAFrame := by
  intro s T hcap hfull h0 h1
  refine ⟨_, exec_rxExtract T s, fun hresult => ?_⟩
  exact rxTryExtract_ne_partial (hfull ▸ hcap) h0 h1 (OpResult.extracted.inj hresult)

/-- Settles O29: the push takes all of the bytes, and a full buffer whose scan fails is reset. -/
theorem garbageFilledBufferIsReset : Obligations.GarbageFilledBufferIsReset := by
  intro s T bytes hinv hempty hlen hgarbage
  have htaken : min bytes.length (s.params.cap - s.rx.cur) = s.params.cap := by
    rw [hempty, hlen, Nat.sub_zero, Nat.min_self]
  have hcur : (rxAppend s.params.cap bytes s.rx).1.cur = s.params.cap := by
    rw [rxAppend_cur, htaken, hempty, Nat.zero_add]
  have hnone (i : Nat) : ¬ PrefixAt (rxAppend s.params.cap bytes s.rx).1.content i := by
    rw [rxAppend_content_of_empty hinv hempty hlen.le, prefixAt_iff_bytes]
    exact fun h => hgarbage i h.1 h.2
  have hreset := rxTryExtract_of_noPrefix (p := s.params) (T := T) hnone
  rw [if_pos hcur] at hreset
  refine ⟨_, _, exec_rxPush bytes s, congrArg OpResult.taken htaken, hcur, exec_rxExtract T _, ?_, ?_⟩
  · exact congrArg (fun r => OpResult.extracted r.2) hreset
  · exact (congrArg (fun r => r.1.cur) hreset).trans (Nat.sub_self _)

/-- Settles O30: the pushed bytes are the whole content, and the extraction of their type takes the frame off its front. -/
theorem acceptedFrameComesOutAndTheRestStays : Obligations.AcceptedFrameComesOutAndTheRestStays := by
  intro s T S v n hinv hempty hroom hparse
  have hcontent := rxAppend_content_of_empty hinv hempty hroom
  have hextract : rxTryExtract s.params T (rxAppend s.params.cap S s.rx).1 = (rxShift n _, .frame v) :=
    rxTryExtract_of_parse_ok (by rwa [hcontent])
  refine ⟨_, _, exec_rxPush S s, exec_rxExtract T _, ?_, ?_, ?_⟩
  · exact congrArg (fun r => OpResult.extracted r.2) hextract
  · exact (congrArg (fun r => r.1.content) hextract).trans (by rw [rxShift_content, hcontent])
  · exact rxTryExtract_inv s.params T (rxAppend_inv S hinv)

/-- Settles O31: a step other than an unexpected extraction only adds behind the content, and the wedge stands in front;
an expected extraction finds another type, in a tick as outside one. -/
theorem headOfLineWedgeOutlastsAllButUnexpectedExtraction :
    Obligations.HeadOfLineWedgeOutlastsAllButUnexpectedExtraction := by
  refine ⟨fun s t hinv hw hexpected hstep => ?_, fun s hinv hw => ⟨fun T hT => ?_, fun hend hrates now bytes a w e => ?_⟩⟩
  · obtain ⟨hwf, _, _⟩ := (RxBuf.inv_iff _ _).mp hinv
    rcases step_cases s with ⟨_, e⟩ | ⟨_, _, _, _, _, e⟩ | ⟨r, waiting, i, rest, hwait, hread, e⟩
    · cases e.symm.trans hstep
      exact ⟨hinv, hw, List.prefix_rfl⟩
    · cases e.symm.trans hstep
    · have hexec := e.symm.trans hstep
      have hgrow : s.rx.content <+: t.rx.content :=
        exec_content_prefix_of_wedged (s := s.setRequests waiting) hwf hw
          (fun T hi => hexpected r rest waiting T hwait (hi ▸ hread)) hexec
      rw [(exec_next_keeps hexec).1]
      exact ⟨exec_keeps_rxInv (s := s.setRequests waiting) hinv hexec, wedged_of_content_prefix hw hgrow, hgrow⟩
  · rw [exec_rxExtract, rxTryExtract_of_wedged hw hT]
    rfl
  · obtain ⟨hwf, _, _⟩ := (RxBuf.inv_iff _ _).mp hinv
    refine ⟨_, exec_tick_of_allowed now bytes a w hend hrates e, tickPhases_frameOut_of_wedged hwf hw now bytes a w,
      tickPhases_rxTaken now bytes a w s, ?_, ?_⟩
    · rw [tickPhases_rx_of_wedged hwf hw, tickPhases_rxTaken, rxAppend_content _ _ hwf]
    · rw [tickPhases_rx_of_wedged hwf hw, tickPhases_params]
      exact wedged_rxAppend _ bytes hwf hw

end Sys2Proof.Machine
end

section
/-! SUPPORT. LIVE and FSAFE (`43_liveness_arbitration.md` R152 to R154; `44_failsafe.md` R172 to R175). A take and a
network command are one update of LIVE's registers; the first update of FSAFE is said for each policy, and nothing it gives
depends on the time register. -/

namespace Sys2Proof.Machine

/-! ## LIVE -/

theorem exec_netTake (s : State) :
    exec .netTake s = .next ((s.setLive (slotTaken s.live).1).setResult (.slot (slotTaken s.live).2)) := rfl

theorem exec_netCmd (thr steer : F32) (now : U32) (s : State) :
    exec (.netCmd thr steer now) s = .next (s.setLive (netArrived (thr, steer) now s.live)) := rfl

/-- Taking from an empty slot changes nothing. -/
theorem slotTaken_slotTaken (r : LiveRegs) : slotTaken (slotTaken r).1 = ((slotTaken r).1, none) := rfl

/-! ## FSAFE -/

theorem exec_fsReset (s : State) :
    exec .fsReset s = .next ((s.setFs (fsCleared (Config.freeU32 s.freeCount))).useFree) := rfl

section
variable {p : Params} {r : FsRegs} (now : U32)

/-- Policy (a) without a source (R172): Active, the time register not written. -/
theorem fsStep_first_noSource_of_tripOnBoot (hfirst : r.seeded = false) (hpolicy : p.tripOnBoot = true) :
    fsStep p now false r = { r with state := .active, seeded := true } := by
  simp [fsStep, hfirst, hpolicy]

/-- Policy (b) (R172): the time is recorded, then the table applies. -/
theorem fsStep_first_of_recordOnBoot (hfirst : r.seeded = false) (hpolicy : p.tripOnBoot = false) (active : Bool) :
    fsStep p now active r = fsTable p.fsTimeoutMs now now active { r with lastActiveMs := now, seeded := true } := by
  simp [fsStep, hfirst, hpolicy]

/-- With a source the policies agree. -/
theorem fsStep_first_source (hfirst : r.seeded = false) (hinactive : r.state = .inactive) :
    fsStep p now true r = { state := .inactive, lastActiveMs := now, seeded := true } := by
  cases hpolicy : p.tripOnBoot with
  | true => simp [fsStep, hfirst, hpolicy]
  | false =>
    rw [fsStep_first_of_recordOnBoot now hfirst hpolicy, fsTable_source_of_not_active]
    simp [hinactive]

/-- No time has elapsed since the recorded one, so only the timeout 0 is due. -/
theorem fsStep_first_noSource_of_recordOnBoot (hfirst : r.seeded = false) (hinactive : r.state = .inactive)
    (hpolicy : p.tripOnBoot = false) :
    fsStep p now false r =
      { state := if p.fsTimeoutMs = 0 then .active else .inactive, lastActiveMs := now, seeded := true } := by
  have helapsed : (elapsed now now).toNat = 0 := by simp [elapsed]
  rw [fsStep_first_of_recordOnBoot now hfirst hpolicy]
  by_cases hzero : p.fsTimeoutMs = 0
  · rw [fsTable_noSource_of_due (by simp [hzero]), if_pos hzero]
  · have hpos : 0 < p.fsTimeoutMs.toNat := Nat.pos_of_ne_zero fun h => hzero (BitVec.eq_of_toNat_eq h)
    rw [fsTable_noSource_of_waiting (by exact hinactive) (by rwa [helapsed]), if_neg hzero, hinactive]

/-- R175: of an unseeded failsafe, or one outside Inactive, no update reads the time register. What was there is
overwritten, or stays there while the failsafe goes to Active, outside Inactive again. -/
theorem fsStep_ignores_lastActive (hunread : r.seeded = false ∨ r.state ≠ .inactive) (active : Bool) (v : U32) :
    fsStep p now active { r with lastActiveMs := v } = fsStep p now active r ∨
      (fsStep p now active r).state = .active ∧
        fsStep p now active { r with lastActiveMs := v } = { fsStep p now active r with lastActiveMs := v } := by
  obtain ⟨st, last, seeded⟩ := r
  cases seeded with
  | false =>
    cases hpolicy : p.tripOnBoot with
    | false =>
      refine .inl ?_
      rw [fsStep_first_of_recordOnBoot now rfl hpolicy, fsStep_first_of_recordOnBoot now rfl hpolicy]
    | true => cases active <;> simp [fsStep, hpolicy]
  | true =>
    cases st with
    | inactive => exact absurd rfl (hunread.resolve_left nofun)
    | active | recovering => cases active <;> simp [fsStep, fsTable]

end

/-! ## The statements -/

/-- Settles O34: the first take empties the slot, so the second finds nothing. -/
theorem netTakeReadsAndClears : Obligations.NetTakeReadsAndClears := by
  intro s
  refine ⟨_, exec_netTake s, rfl, ?_⟩
  rw [exec_netTake, setResult_live, setLive_live, slotTaken_slotTaken]
  rfl

/-- Settles O35: liveness at a later time is R154's formula on the stamp just stored. -/
theorem netCommandIsLiveUntilTheTimeout : Obligations.NetCommandIsLiveUntilTheTimeout := by
  intro s thr steer now later
  refine ⟨_, exec_netCmd thr steer now s, rfl, ?_⟩
  rw [exec_liveEval, netLive_eq_decide]
  rfl

/-- Settles O41: an update with a source, and one without under each policy. -/
theorem firstUpdateFollowsTheBootPolicy : Obligations.FirstUpdateFollowsTheBootPolicy := by
  intro s now hfirst hinactive moved
  simp only [exec_fsUpdate]
  refine ⟨?_, fun hpolicy => ?_, fun hpolicy => ?_⟩
  · rw [fsStep_first_source now hfirst hinactive]
    rfl
  · rw [fsStep_first_noSource_of_tripOnBoot now hfirst hpolicy]
    rfl
  · rw [fsStep_first_noSource_of_recordOnBoot now hfirst hinactive hpolicy]
    rfl

/-- Settles O43: the cleared registers are Inactive and unseeded, so under policy (a) the next update is a first one. -/
theorem failsafeResetReturnsToTheResetState : Obligations.FailsafeResetReturnsToTheResetState := by
  intro s
  refine ⟨_, Config.freeU32 s.freeCount, exec_fsReset s, rfl, failsafeActive_of_inactive rfl, fun hpolicy now => ?_⟩
  refine ⟨_, exec_fsUpdate now false _, ?_⟩
  exact congrArg FsRegs.state (fsStep_first_noSource_of_tripOnBoot (p := s.params) now rfl hpolicy)

/-- Settles O45: the two updates give equal registers, or two Active failsafes that differ in the time register alone. -/
theorem unwrittenLastActiveTimeIsUnobservable : Obligations.UnwrittenLastActiveTimeIsUnobservable := by
  intro s v now active hunread
  refine ⟨_, _, exec_fsUpdate now active s, exec_fsUpdate now active _, ?_⟩
  simp only [setResult_result, setResult_fs, setFs_fs]
  rcases fsStep_ignores_lastActive (p := s.params) now hunread active v with hsame | ⟨hactive, hsame⟩
  · simp [hsame]
  · simp [hsame, hactive]

end Sys2Proof.Machine
end

section
/-! SUPPORT. SLEW (`45_slew.md` R191, R192). A comparison with the rounded difference decides the exact one, because
`max_change` is a binary32 value and rounds to itself; so a step never passes its target. A sum is NaN only where a NaN
comes in or two infinities cancel, and then no comparison has let the step be taken. -/

namespace Sys2Proof.Machine

/-! ## Kinds and keys -/

section
variable {a b x : F32}

theorem f32IsFinite_iff : f32IsFinite x = true ↔ |f32Key x| < 0x7F800000 := by
  rw [f32IsFinite, decide_eq_true_iff, f32Key]
  split <;> simp

theorem f32IsNaN_of_finite (h : f32IsFinite x = true) : f32IsNaN x = false := by
  rcases f32_kinds x with ⟨_, _, hx⟩ | ⟨_, _, hx⟩ | ⟨hx, _, _⟩
  · rw [h] at hx; cases hx
  · rw [h] at hx; cases hx
  · exact hx

theorem f32IsInf_of_finite (h : f32IsFinite x = true) : f32IsInf x = false := by
  rcases f32_kinds x with ⟨_, _, hx⟩ | ⟨_, _, hx⟩ | ⟨_, hx, _⟩
  · rw [h] at hx; cases hx
  · rw [h] at hx; cases hx
  · exact hx

theorem f32IsNaN_of_inf (h : f32IsInf x = true) : f32IsNaN x = false := by
  rcases f32_kinds x with ⟨_, hx, _⟩ | ⟨hx, _, _⟩ | ⟨hx, _, _⟩
  · rw [h] at hx; cases hx
  · exact hx
  · exact hx

theorem abs_f32Key_le (h : f32IsNaN x = false) : |f32Key x| ≤ 0x7F800000 := by
  have hmag : f32Mag x ≤ 0x7F800000 := by simpa [f32IsNaN] using h
  rw [f32Key]
  split <;> simpa using hmag

/-- A value between two finite ones is finite. -/
theorem f32IsFinite_of_between (ha : f32IsFinite a = true) (hb : f32IsFinite b = true) (hax : f32Key a ≤ f32Key x)
    (hxb : f32Key x ≤ f32Key b) : f32IsFinite x = true := by
  rw [f32IsFinite_iff, abs_lt] at *
  omega

theorem f32Scaled_nonneg_iff : 0 ≤ f32Scaled x ↔ 0 ≤ f32Key x := (f32Key_le_iff (x := f32Zero) (y := x)).symm

theorem f32Scaled_nonpos_iff : f32Scaled x ≤ 0 ↔ f32Key x ≤ 0 := (f32Key_le_iff (x := x) (y := f32Zero)).symm

/-! ## Infinities in a sum -/

/-- An infinity has one pattern for each sign. -/
theorem eq_of_inf_of_neg (ha : f32IsInf a = true) (hb : f32IsInf b = true) (h : f32Neg a = f32Neg b) : a = b := by
  rw [← f32Pack_self a, ← f32Pack_self b, h, of_decide_eq_true ha, of_decide_eq_true hb]

theorem fadd_of_inf_left (ha : f32IsInf a = true) (hb : f32IsNaN b = false) :
    fadd a b = if f32IsInf b && (f32Neg a != f32Neg b) then f32QuietNaN else a := by
  simp [fadd, ha, hb, f32IsNaN_of_inf ha]

theorem fadd_of_inf_right (ha : f32IsFinite a = true) (hb : f32IsInf b = true) : fadd a b = b := by
  simp [fadd, f32IsNaN_of_finite ha, f32IsNaN_of_inf hb, f32IsInf_of_finite ha, hb]

/-- A sum of two values that are not NaN is NaN only where two infinities cancel. -/
theorem eq_fneg_of_nan_fadd (ha : f32IsNaN a = false) (hb : f32IsNaN b = false) (h : f32IsNaN (fadd a b) = true) :
    f32IsInf a = true ∧ b = fneg a := by
  rcases f32_kinds a with ⟨hnan, _, _⟩ | ⟨_, hinf, _⟩ | ⟨_, _, hfin⟩
  · rw [ha] at hnan; cases hnan
  · rw [fadd_of_inf_left hinf hb] at h
    split at h
    case isTrue hcancel =>
      obtain ⟨hbinf, hsign⟩ := Bool.and_eq_true_iff.mp hcancel
      refine ⟨hinf, eq_of_inf_of_neg hbinf (by simpa using hinf) ?_⟩
      rw [f32Neg_fneg]
      exact (Bool.eq_not_of_ne (bne_iff_ne.mp hsign).symm)
    case isFalse => rw [ha] at h; cases h
  · rcases f32_kinds b with ⟨hnan, _, _⟩ | ⟨_, hinf, _⟩ | ⟨_, _, hbfin⟩
    · rw [hb] at hnan; cases hnan
    · rw [fadd_of_inf_right hfin hinf, hb] at h; cases h
    · rw [f32IsNaN_fadd hfin hbfin] at h; cases h

/-- An infinity stays in a sum that is not NaN. -/
theorem fadd_eq_right_of_inf (hb : f32IsInf b = true) (h : f32IsNaN (fadd a b) = false) : fadd a b = b := by
  rcases f32_kinds a with ⟨hnan, _, _⟩ | ⟨_, hinf, _⟩ | ⟨_, _, hfin⟩
  · rw [fadd_nan (.inl hnan)] at h; cases h
  · rw [fadd_of_inf_left hinf (f32IsNaN_of_inf hb)] at h ⊢
    split at h
    case isTrue => cases h
    case isFalse hsame =>
      rw [if_neg hsame]
      exact eq_of_inf_of_neg hinf hb (by simpa [hb] using hsame)
  · exact fadd_of_inf_right hfin hb

theorem fsub_nan (h : f32IsNaN a = true ∨ f32IsNaN b = true) : f32IsNaN (fsub a b) = true := by
  rw [fsub, fadd_nan (h.imp_right fun hb => by rwa [f32IsNaN_fneg])]
  rfl

theorem f32IsNaN_fsub_of_finite (ha : f32IsFinite a = true) (hb : f32IsFinite b = true) : f32IsNaN (fsub a b) = false :=
  f32IsNaN_fadd ha (by rwa [f32IsFinite_fneg])

end

/-! ## Never past the target -/

section
variable {target current m : F32} (ht : f32IsFinite target = true) (hc : f32IsFinite current = true)
  (hm : f32IsNaN m = false)
include ht hc hm

/-- Rounding is monotonic, so a rounded difference above `m` comes from an exact one above it. -/
theorem f32Scaled_lt_of_key_lt_fsub (h : f32Key m < f32Key (fsub target current)) :
    f32Scaled m < f32Scaled target - f32Scaled current := by
  by_contra hle
  have hround : f32Key (fsub target current) ≤ f32Key m :=
    f32Key_fadd_le ht (by rwa [f32IsFinite_fneg]) hm (by rw [f32Scaled_fneg]; omega)
  omega

theorem f32Scaled_lt_of_fsub_lt_key (h : f32Key (fsub target current) < f32Key m) :
    f32Scaled target - f32Scaled current < f32Scaled m := by
  by_contra hle
  have hround : f32Key m ≤ f32Key (fsub target current) :=
    f32Key_le_fadd ht (by rwa [f32IsFinite_fneg]) hm (by rw [f32Scaled_fneg]; omega)
  omega

/-- A step up ends between `current` and `target`. -/
theorem fadd_between_of_above (hpos : 0 ≤ f32Key m) (h : f32Key m < f32Key (fsub target current)) :
    f32Key current ≤ f32Key (fadd current m) ∧ f32Key (fadd current m) ≤ f32Key target := by
  have hexact := f32Scaled_lt_of_key_lt_fsub ht hc hm h
  have hbound := (abs_le.mp (abs_f32Key_le (f32IsNaN_fsub_of_finite ht hc))).2
  have hmfin : f32IsFinite m = true := by
    rw [f32IsFinite_iff, abs_lt]
    omega
  have hmpos := f32Scaled_nonneg_iff.mpr hpos
  exact ⟨f32Key_le_fadd hc hmfin (f32IsNaN_of_finite hc) (by omega),
    f32Key_fadd_le hc hmfin (f32IsNaN_of_finite ht) (by omega)⟩

/-- A step down ends between `target` and `current`. -/
theorem fadd_between_of_below (hneg : f32Key m ≤ 0) (h : f32Key (fsub target current) < f32Key m) :
    f32Key target ≤ f32Key (fadd current m) ∧ f32Key (fadd current m) ≤ f32Key current := by
  have hexact := f32Scaled_lt_of_fsub_lt_key ht hc hm h
  have hbound := (abs_le.mp (abs_f32Key_le (f32IsNaN_fsub_of_finite ht hc))).1
  have hmfin : f32IsFinite m = true := by
    rw [f32IsFinite_iff, abs_lt]
    omega
  have hmneg := f32Scaled_nonpos_iff.mpr hneg
  exact ⟨f32Key_le_fadd hc hmfin (f32IsNaN_of_finite ht) (by omega),
    f32Key_fadd_le hc hmfin (f32IsNaN_of_finite hc) (by omega)⟩

/-- One step by a change that is not negative ends between `current` and `target` (R192). -/
theorem slewBy_between (hpos : 0 ≤ f32Key m) :
    (f32Key current ≤ f32Key (slewBy target current m) ∧ f32Key (slewBy target current m) ≤ f32Key target) ∨
      (f32Key target ≤ f32Key (slewBy target current m) ∧ f32Key (slewBy target current m) ≤ f32Key current) := by
  rcases slewBy_cases target current m with ⟨habove, hr⟩ | ⟨_, hbelow, hr⟩ | ⟨_, _, hr⟩
  · obtain ⟨_, _, hlt⟩ := flt_iff.mp habove
    rw [hr]
    exact .inl (fadd_between_of_above ht hc hm hpos hlt)
  · obtain ⟨_, _, hlt⟩ := flt_iff.mp hbelow
    rw [hr]
    exact .inr (fadd_between_of_below ht hc (by rwa [f32IsNaN_fneg]) (by rw [f32Key_fneg]; omega) hlt)
  · rw [hr]
    rcases Int.le_total (f32Key current) (f32Key target) with hle | hle
    · exact .inl ⟨hle, le_rfl⟩
    · exact .inr ⟨le_rfl, hle⟩

end

/-! ## Corner cases -/

section
variable {target current m : F32}

/-- With no exact difference there is no step up or down (R191 f). -/
theorem slewBy_of_difference_zero (hd : f32Key (fsub target current) = 0) (hm : 0 ≤ f32Key m) :
    slewBy target current m = target := by
  rcases slewBy_cases target current m with ⟨habove, _⟩ | ⟨_, hbelow, _⟩ | ⟨_, _, hr⟩
  · obtain ⟨_, _, hlt⟩ := flt_iff.mp habove
    omega
  · obtain ⟨_, _, hlt⟩ := flt_iff.mp hbelow
    rw [f32Key_fneg] at hlt
    omega
  · exact hr

/-- Every comparison with a NaN is false, so a NaN difference or change gives the target (R191 d). -/
theorem slewBy_of_nan (h : f32IsNaN (fsub target current) = true ∨ f32IsNaN m = true) :
    slewBy target current m = target := by
  rcases slewBy_cases target current m with ⟨habove, _⟩ | ⟨_, hbelow, _⟩ | ⟨_, _, hr⟩
  · rw [fgt, flt_nan h.symm] at habove; cases habove
  · rw [flt_nan (h.imp_right fun hm => by rwa [f32IsNaN_fneg])] at hbelow; cases hbelow
  · exact hr

theorem f32Key_fsub_self (h : f32IsFinite target = true) : f32Key (fsub target target) = 0 := by
  rw [fsub, fadd_of_finite h (by rwa [f32IsFinite_fneg]), if_pos (by rw [f32Scaled_fneg]; omega), f32Key,
    f32Mag_pack _ (by decide)]
  simp

/-- The difference of a pattern from itself is zero, or NaN for an infinity and a NaN. -/
theorem fsub_self_cases (target : F32) :
    f32IsNaN (fsub target target) = true ∨ f32Key (fsub target target) = 0 := by
  rcases f32_kinds target with ⟨hnan, _, _⟩ | ⟨_, hinf, _⟩ | ⟨_, _, hfin⟩
  · exact .inl (fsub_nan (.inl hnan))
  · refine .inl ?_
    rw [fsub, fadd_of_inf_left hinf (by rw [f32IsNaN_fneg]; exact f32IsNaN_of_inf hinf), if_pos (by simp [hinf])]
    rfl
  · exact .inr (f32Key_fsub_self hfin)

/-- A sum that is NaN would be of two cancelling infinities, and then the change is the difference itself. -/
theorem f32IsNaN_fadd_of_ne_fsub (hd : f32IsNaN (fsub target current) = false) (hm : f32IsNaN m = false)
    (hne : f32Key m ≠ f32Key (fsub target current)) : f32IsNaN (fadd current m) = false := by
  have hc : f32IsNaN current = false := by
    by_contra hnan
    rw [fsub_nan (.inr (eq_true_of_ne_false hnan))] at hd
    cases hd
  by_contra hnan
  obtain ⟨hinf, hcancel⟩ := eq_fneg_of_nan_fadd hc hm (eq_true_of_ne_false hnan)
  have hdiff : fsub target current = fneg current := fadd_eq_right_of_inf (by rwa [f32IsInf_fneg]) hd
  exact hne (by rw [hcancel, hdiff])

/-- A step gives NaN only for a NaN target (R191 d). -/
theorem f32IsNaN_of_slewBy (h : f32IsNaN (slewBy target current m) = true) : f32IsNaN target = true := by
  rcases slewBy_cases target current m with ⟨habove, hr⟩ | ⟨_, hbelow, hr⟩ | ⟨_, _, hr⟩
  · obtain ⟨hm, hd, hlt⟩ := flt_iff.mp habove
    rw [hr, f32IsNaN_fadd_of_ne_fsub hd hm hlt.ne] at h
    cases h
  · obtain ⟨hd, hm, hlt⟩ := flt_iff.mp hbelow
    rw [hr, fsub, f32IsNaN_fadd_of_ne_fsub hd hm hlt.ne'] at h
    cases h
  · rwa [hr] at h

end

/-! ## The statements -/

/-- Settles O47: the step ends between `current` and `target`, so it is finite and no farther away. -/
theorem slewNeverOvershoots : Obligations.SlewNeverOvershoots := by
  intro s target current rate dt ht hc m hm hpos
  refine ⟨_, exec_slewStep target current rate dt s, ?_⟩
  rw [show maxChange rate dt = m from rfl]
  rcases slewBy_between ht hc hm hpos with ⟨hlo, hhi⟩ | ⟨hlo, hhi⟩
  · refine ⟨f32IsFinite_of_between hc ht hlo hhi, ?_⟩
    rw [f32Key_le_iff] at hlo hhi
    omega
  · refine ⟨f32IsFinite_of_between ht hc hlo hhi, ?_⟩
    rw [f32Key_le_iff] at hlo hhi
    omega

/-- Settles O48: the difference is zero or NaN, and neither takes a step. -/
theorem slewStaysAtItsTarget : Obligations.SlewStaysAtItsTarget := by
  intro s target rate dt m hm
  have hstay : slewBy target target m = target := by
    rcases hm with hnan | hpos
    · exact slewBy_of_nan (.inr hnan)
    · rcases fsub_self_cases target with hnan | hzero
      · exact slewBy_of_nan (.inl hnan)
      · exact slewBy_of_difference_zero hzero hpos
  exact (exec_slewStep target target rate dt s).trans
    (congrArg (fun r => Host.Outcome.next (s.setResult (.slew r))) hstay)

/-- Settles O49: a step that is taken gives no NaN, and with a NaN among the three operands none is taken. -/
theorem slewHealsEveryNaNButTheTargets : Obligations.SlewHealsEveryNaNButTheTargets := by
  intro s target current rate dt
  refine ⟨_, exec_slewStep target current rate dt s, f32IsNaN_of_slewBy, ?_⟩
  rintro (hnan | hnan | hnan)
  · exact slewBy_of_nan (.inl (fsub_nan (.inl hnan)))
  · exact slewBy_of_nan (.inl (fsub_nan (.inr hnan)))
  · exact slewBy_of_nan (.inr hnan)

end Sys2Proof.Machine
end

section
/-! SUPPORT. The round trip of an axis (`30_encoding.md` R72, R73; `41_frame_codec.md` R114). Rounding moves a value by at
most one unit in its last place, because it lies between the two binary32 neighbours that bracket it. The product and the
quotient by 32767.0 are off by that much, and rounding to a whole number by a half: together less than one quantum. -/

namespace Sys2Proof.Machine

/-! ## Binary32 values with a given last place -/

/-- A significand of 24 bits, or its carry, at an exponent. -/
theorem magUnits_exponent_add {k c : Nat} (hc : c ≤ 2 ^ 24) (hnormal : k = 0 ∨ 2 ^ 23 ≤ c) :
    magUnits (k * 2 ^ 23 + c) = c * 2 ^ k := by
  unfold magUnits
  rcases Nat.lt_or_ge c (2 ^ 23) with hsub | hnorm
  · obtain rfl : k = 0 := by omega
    rw [if_pos (by omega), pow_zero]
    omega
  rcases Nat.lt_or_eq_of_le hc with hlt | rfl
  · have hexp : (k * 2 ^ 23 + c) / 2 ^ 23 = k + 1 := by omega
    have hfrac : (k * 2 ^ 23 + c) % 2 ^ 23 = c - 2 ^ 23 := by omega
    rw [hexp, hfrac, if_neg k.succ_ne_zero, Nat.add_sub_cancel, Nat.add_sub_cancel' hnorm]
  · have hexp : (k * 2 ^ 23 + 2 ^ 24) / 2 ^ 23 = k + 2 := by omega
    have hfrac : (k * 2 ^ 23 + 2 ^ 24) % 2 ^ 23 = 0 := by omega
    rw [hexp, hfrac, if_neg (by omega), show k + 2 - 1 = k + 1 by omega, pow_succ]
    ring

/-- Every multiple of a power of two with a 24-bit count is a binary32 value. -/
theorem exists_magUnits_eq (j : Nat) {c : Nat} (hc : c ≤ 2 ^ 24) : ∃ m, magUnits m = c * 2 ^ j := by
  induction j generalizing c with
  | zero => exact ⟨0 * 2 ^ 23 + c, magUnits_exponent_add hc (.inl rfl)⟩
  | succ j ih =>
    rcases Nat.lt_or_ge c (2 ^ 23) with hsub | hnorm
    · obtain ⟨m, hm⟩ := ih (c := 2 * c) (by omega)
      exact ⟨m, by rw [hm, pow_succ]; ring⟩
    · exact ⟨(j + 1) * 2 ^ 23 + c, magUnits_exponent_add hc (.inr hnorm)⟩

/-- A multiple in the finite range, as a magnitude that rounds to itself. -/
theorem exists_finite_magUnits_eq {j c : Nat} (hj : j ≤ 200) (hc : c ≤ 2 ^ 24) :
    ∃ m < 0x7F800000, magUnits m = c * 2 ^ j := by
  obtain ⟨m, hm⟩ := exists_magUnits_eq j hc
  have hinf : magUnits 0x7F800000 = 2 ^ 23 * 2 ^ 254 :=
    magUnits_exponent_add (k := 254) (c := 2 ^ 23) (by decide) (.inr le_rfl)
  refine ⟨m, magUnits_strictMono.lt_iff_lt.mp ?_, hm⟩
  calc magUnits m = c * 2 ^ j := hm
    _ ≤ 2 ^ 24 * 2 ^ 200 := Nat.mul_le_mul hc (Nat.pow_le_pow_right (by decide) hj)
    _ < 2 ^ 23 * 2 ^ 254 := by norm_num
    _ = magUnits 0x7F800000 := hinf.symm

/-! ## The rounding error -/

/-- Rounding `n / d` below `2 ^ (24 + j)` moves it by at most `2 ^ j`, its last place, and gives a finite value. -/
theorem roundUnits_error {n d j : Nat} (hd : 0 < d) (hj : j ≤ 200) (hn : n < 2 ^ (24 + j) * d) :
    roundUnits n d < 0x7F800000 ∧ magUnits (roundUnits n d) * d ≤ n + 2 ^ j * d ∧
      n ≤ magUnits (roundUnits n d) * d + 2 ^ j * d := by
  have hunit : 0 < d * 2 ^ j := by positivity
  obtain ⟨c, hlo, hhi⟩ : ∃ c, c * 2 ^ j * d ≤ n ∧ n < (c + 1) * 2 ^ j * d := by
    refine ⟨n / (d * 2 ^ j), ?_, ?_⟩
    · calc n / (d * 2 ^ j) * 2 ^ j * d = n / (d * 2 ^ j) * (d * 2 ^ j) := by ring
        _ ≤ n := Nat.div_mul_le_self ..
    · calc n < (d * 2 ^ j) * (n / (d * 2 ^ j) + 1) := Nat.lt_mul_div_succ n hunit
        _ = (n / (d * 2 ^ j) + 1) * 2 ^ j * d := by ring
  have hc : c + 1 ≤ 2 ^ 24 := by
    have hlt : c * (2 ^ j * d) < 2 ^ 24 * (2 ^ j * d) := by
      calc c * (2 ^ j * d) = c * 2 ^ j * d := by ring
        _ < 2 ^ (24 + j) * d := hlo.trans_lt hn
        _ = 2 ^ 24 * (2 ^ j * d) := by rw [pow_add]; ring
    exact Nat.lt_of_mul_lt_mul_right hlt
  obtain ⟨m₁, hm₁, hval₁⟩ := exists_finite_magUnits_eq hj (show c ≤ 2 ^ 24 by omega)
  obtain ⟨m₂, hm₂, hval₂⟩ := exists_finite_magUnits_eq hj hc
  have hround₁ : m₁ ≤ roundUnits n d := by
    rw [← roundUnits_magUnits hm₁.le]
    exact roundUnits_mono one_pos hd (by rw [hval₁, mul_one]; exact hlo)
  have hround₂ : roundUnits n d ≤ m₂ := by
    rw [← roundUnits_magUnits hm₂.le]
    exact roundUnits_mono hd one_pos (by rw [hval₂, mul_one]; exact hhi.le)
  have hbelow : c * 2 ^ j * d ≤ magUnits (roundUnits n d) * d :=
    Nat.mul_le_mul_right d (hval₁ ▸ magUnits_strictMono.monotone hround₁)
  have habove : magUnits (roundUnits n d) * d ≤ (c + 1) * 2 ^ j * d :=
    Nat.mul_le_mul_right d (hval₂ ▸ magUnits_strictMono.monotone hround₂)
  have hstep : (c + 1) * 2 ^ j * d = c * 2 ^ j * d + 2 ^ j * d := by ring
  exact ⟨hround₂.trans_lt hm₂, by omega, by omega⟩

/-- A count of 24 bits is exact at any last place. -/
theorem roundUnits_exact {c j : Nat} (hj : j ≤ 200) (hc : c ≤ 2 ^ 24) :
    roundUnits (c * 2 ^ j) 1 < 0x7F800000 ∧ magUnits (roundUnits (c * 2 ^ j) 1) = c * 2 ^ j := by
  obtain ⟨m, hm, hval⟩ := exists_finite_magUnits_eq hj hc
  rw [← hval, roundUnits_magUnits hm.le]
  exact ⟨hm, rfl⟩

/-! ## The three roundings of a round trip -/

theorem f32Units_scale : f32Units f32Scale = 32767 * 2 ^ 149 := by decide +kernel

theorem f32IsFinite_of_inDomain {v : F32} (h : axisInDomain v = true) : f32IsFinite v = true :=
  decide_eq_true ((of_decide_eq_true h).trans_lt (by decide))

theorem f32Units_le_of_inDomain {v : F32} (h : axisInDomain v = true) : f32Units v ≤ 2 ^ 149 := by
  have hone : magUnits (f32Mag f32One) = 2 ^ 149 := by decide +kernel
  rw [f32Units_eq, ← hone]
  exact magUnits_strictMono.monotone (of_decide_eq_true h)

theorem fmul_of_finite {a b : F32} (ha : f32IsFinite a = true) (hb : f32IsFinite b = true) :
    fmul a b = f32Pack (f32Neg a != f32Neg b) (roundUnits (f32Units a * f32Units b) (2 ^ 149)) := by
  simp [fmul, f32IsNaN_of_finite ha, f32IsNaN_of_finite hb, f32IsInf_of_finite ha, f32IsInf_of_finite hb]

theorem fdiv_of_finite {a b : F32} (ha : f32IsFinite a = true) (hb : f32IsFinite b = true) (hne : f32Mag b ≠ 0) :
    fdiv a b = f32Pack (f32Neg a != f32Neg b) (roundUnits (f32Units a * 2 ^ 149) (f32Units b)) := by
  simp [fdiv, f32IsNaN_of_finite ha, f32IsNaN_of_finite hb, f32IsInf_of_finite ha, f32IsInf_of_finite hb, hne]

/-- On encode (R72): the product with 32767.0. -/
theorem fmul_scale_error {v : F32} (h : axisInDomain v = true) :
    (f32Scaled (fmul v f32Scale) - 32767 * f32Scaled v).natAbs ≤ 2 ^ 140 := by
  have hle := f32Units_le_of_inDomain h
  obtain ⟨_, habove, hbelow⟩ := roundUnits_error (n := f32Units v * f32Units f32Scale) (d := 2 ^ 149) (j := 140)
    (by decide) (by decide) (by rw [f32Units_scale]; omega)
  rw [fmul_of_finite (f32IsFinite_of_inDomain h) (by decide), f32Scaled_pack _ (roundUnits_lt _ _),
    show f32Neg f32Scale = false from rfl, f32Scaled]
  rw [f32Units_scale] at *
  generalize magUnits (roundUnits _ _) = product at *
  cases f32Neg v <;> simp <;> omega

/-- On encode (R72): the nearest whole number. -/
theorem roundI_error (x : F32) : (roundI x * 2 ^ 149 - f32Scaled x).natAbs ≤ 2 ^ 148 := by
  rw [roundI, f32Scaled]
  cases f32Neg x <;> simp <;> omega

theorem roundI_fmul_scale_le {v : F32} (h : axisInDomain v = true) : (roundI (fmul v f32Scale)).natAbs ≤ 32767 := by
  have hle := f32Units_le_of_inDomain h
  have hmul := fmul_scale_error h
  have hround := roundI_error (fmul v f32Scale)
  have hv : (f32Scaled v).natAbs = f32Units v := by rw [f32Scaled]; split <;> simp
  omega

/-- The whole number fits an i16. -/
theorem axisToRaw_toInt {v : F32} (h : axisInDomain v = true) :
    (axisToRaw v).toInt = roundI (fmul v f32Scale) := by
  have hle := roundI_fmul_scale_le h
  rw [axisToRaw, BitVec.toInt_ofInt, Int.bmod_eq_of_le (by omega) (by omega)]

/-- On decode (R73): every i16 is exact. -/
theorem f32OfI16_exact (n : I16) :
    f32IsFinite (f32OfI16 n) = true ∧ f32Scaled (f32OfI16 n) = n.toInt * 2 ^ 149 := by
  have hlo := BitVec.le_toInt n
  have hhi := BitVec.toInt_lt (x := n)
  obtain ⟨hfin, hval⟩ := roundUnits_exact (c := n.toInt.natAbs) (j := 149) (by decide) (by omega)
  constructor
  · rw [f32OfI16, f32IsFinite, f32Mag_pack _ (roundUnits_lt _ _)]
    exact decide_eq_true hfin
  · rw [f32OfI16, f32Scaled_pack _ (roundUnits_lt _ _), hval]
    simp only [decide_eq_true_eq]
    split <;> omega

/-- On decode (R73): the quotient by 32767.0. -/
theorem rawToAxis_error (n : I16) :
    f32IsFinite (rawToAxis n) = true ∧ (32767 * f32Scaled (rawToAxis n) - n.toInt * 2 ^ 149).natAbs ≤ 2 ^ 141 := by
  have hlo := BitVec.le_toInt n
  have hhi := BitVec.toInt_lt (x := n)
  obtain ⟨hfin, hval⟩ := f32OfI16_exact n
  have hunits : f32Units (f32OfI16 n) = n.toInt.natAbs * 2 ^ 149 := by
    rw [f32Scaled] at hval
    split at hval <;> omega
  obtain ⟨hrange, habove, hbelow⟩ := roundUnits_error (n := f32Units (f32OfI16 n) * 2 ^ 149) (d := f32Units f32Scale)
    (j := 126) (by rw [f32Units_scale]; decide) (by decide) (by rw [f32Units_scale, hunits]; omega)
  rw [rawToAxis, fdiv_of_finite hfin (by decide) (by decide), f32IsFinite, f32Mag_pack _ (roundUnits_lt _ _),
    f32Scaled_pack _ (roundUnits_lt _ _), ← hval, f32Scaled, show f32Neg f32Scale = false from rfl]
  refine ⟨decide_eq_true hrange, ?_⟩
  rw [f32Units_scale] at *
  generalize magUnits (roundUnits _ _) = quotient at *
  cases f32Neg (f32OfI16 n) <;> simp <;> omega

/-- The three roundings together are off by less than one quantum (R114). -/
theorem rawToAxis_axisToRaw_error {v : F32} (h : axisInDomain v = true) :
    (f32Scaled (rawToAxis (axisToRaw v)) - f32Scaled v).natAbs * 32767 < 2 ^ 149 := by
  have hmul := fmul_scale_error h
  have hround := roundI_error (fmul v f32Scale)
  obtain ⟨_, hdiv⟩ := rawToAxis_error (axisToRaw v)
  rw [axisToRaw_toInt h] at hdiv
  omega

/-! ## The statement -/

/-- Settles O24: the sequence number is carried in full, and each axis is off by its three roundings. -/
theorem commandRoundTripIsWithinOneQuantum : Obligations.CommandRoundTripIsWithinOneQuantum := by
  intro s u tail seq a b ha hb
  obtain ⟨D, hbuild, hparse⟩ := exec_codecBuild_then_parse (T := .command) (P := encodeCommand seq a b) (d := 15)
    rfl le_rfl s u tail
  rw [decodePayload, encodeCommand, decodeCommand_payload] at hparse
  exact ⟨encodeCommand seq a b, D, rawToAxis (axisToRaw a), rawToAxis (axisToRaw b),
    exec_codecEncCmd_of_inDomain ha hb seq s, hbuild, hparse, (rawToAxis_error _).1, (rawToAxis_error _).1,
    rawToAxis_axisToRaw_error ha, rawToAxis_axisToRaw_error hb⟩

end Sys2Proof.Machine
end

section
/-! SUPPORT. SCHED (`46_scheduler.md` R200 to R210). What settles whether a `TICK` completes, a run of ticks and submits,
and phases 1 and 2 as a push and a fold of extractions. -/

namespace Sys2Proof.Machine

/-! ## Whether a tick completes -/

/-- R191 e: the three kinds of a forbidden rate. -/
theorem rateAllowed_of_forbidden {rate : F32}
    (h : f32IsNaN rate = true ∨ f32IsInf rate = true ∨ flt rate f32Zero = true) : rateAllowed rate = false := by
  rw [rateAllowed, Bool.and_eq_false_iff]
  rcases h with hnan | hinf | hneg
  · refine .inl (eq_false_of_ne_true fun hfin => ?_)
    rw [f32IsNaN_of_finite hfin] at hnan; cases hnan
  · refine .inl (eq_false_of_ne_true fun hfin => ?_)
    rw [f32IsInf_of_finite hfin] at hinf; cases hinf
  · obtain ⟨_, _, hlt⟩ := flt_iff.mp hneg
    exact .inr (decide_eq_false (not_le.mpr hlt))

theorem slewRatesAllowed_of_forbidden {p : Params} {rate : F32} (hrate : rate = p.slewRateThr ∨ rate = p.slewRateSteer)
    (h : rateAllowed rate = false) : slewRatesAllowed p = false := by
  rw [slewRatesAllowed, Bool.and_eq_false_iff]
  rcases hrate with rfl | rfl
  · exact .inl h
  · exact .inr h

section
variable {i : Instr} {s : State} (hend : s.params.linkEnd = .actuator) (hrates : slewRatesAllowed s.params = true)
include hend hrates

theorem exec_tickOrSubmit_completes (hi : unitOf i = .sched ∨ .networkAgent ∈ performers i) :
    ∃ t, exec i s = .next t := by
  rcases hi with hunit | hagent
  · cases i with
    | tick now bytes a w e => exact ⟨_, exec_tick_of_allowed now bytes a w hend hrates e⟩
    | _ => cases hunit
  · obtain ⟨thr, steer, rfl⟩ := networkAgent_performs_iff.mp hagent
    exact ⟨_, exec_netSubmit thr steer s⟩

end

/-- R209: a run performs every waiting tick and submit. -/
theorem run_ticksAndSubmits (is : List Instr) {s : State} (hend : s.params.linkEnd = .actuator)
    (hrates : slewRatesAllowed s.params = true) (hwait : s.requests = is.map encode)
    (his : ∀ i ∈ is, i.wf = true ∧ (unitOf i = .sched ∨ .networkAgent ∈ performers i)) :
    ∃ t : State, Host.Core.run Sys2Proof.core is.length s = .next t ∧ t.requests = [] ∧ t.params = s.params := by
  induction is generalizing s with
  | nil => exact ⟨s, rfl, hwait, rfl⟩
  | cons i is ih =>
    obtain ⟨hwf, hkind⟩ := his i (List.mem_cons_self ..)
    have hstep := step_of_encoded hwf hwait
    obtain ⟨s', hexec⟩ := exec_tickOrSubmit_completes (s := s.setRequests (is.map encode)) hend hrates hkind
    obtain ⟨hparams, hrequests⟩ := exec_next_keeps hexec
    obtain ⟨t, hrun, hdone, hkept⟩ := ih (s := s') (by rw [hparams]; exact hend) (by rw [hparams]; exact hrates)
      hrequests fun j hj => his j (List.mem_cons_of_mem i hj)
    exact ⟨t, (run_succ (hstep.trans hexec) _).trans hrun, hdone, hkept.trans hparams⟩

/-! ## Phases 1 and 2 as unit operations -/

/-- One `RX.EXTRACT` and the frames so far, with the frame it gives at their end. -/
def extractNext (acc : State × List FrameValue) (T : MessageType) : State × List FrameValue :=
  match exec (.rxExtract T) acc.1 with
  | .next v =>
    match v.result with
    | .extracted (.frame f) => (v, acc.2 ++ [f])
    | _ => (v, acc.2)
  | _ => acc

theorem extractNext_eq (s : State) (frames : List FrameValue) (T : MessageType) :
    extractNext (s, frames) T =
      ((s.setRx (rxTryExtract s.params T s.rx).1).setResult (.extracted (rxTryExtract s.params T s.rx).2),
        match (rxTryExtract s.params T s.rx).2 with
        | .frame f => frames ++ [f]
        | .noFrame _ => frames) := by
  rw [extractNext, exec_rxExtract]
  simp only [setResult_result]
  cases (rxTryExtract s.params T s.rx).2 <;> rfl

/-- Phase 2's extractions are `RX.EXTRACT` operations one after another (R202). -/
theorem foldl_extractNext (Ts : List MessageType) (s : State) (frames : List FrameValue) :
    (Ts.foldl extractNext (s, frames)).1.rx = (extractTypes s.params Ts s.rx).1 ∧
      (Ts.foldl extractNext (s, frames)).2 = frames ++ (extractTypes s.params Ts s.rx).2 := by
  induction Ts generalizing s frames with
  | nil => exact ⟨rfl, (List.append_nil _).symm⟩
  | cons T Ts ih =>
    rw [List.foldl_cons, extractNext_eq]
    obtain ⟨hrx, hframes⟩ := ih ((s.setRx (rxTryExtract s.params T s.rx).1).setResult _) _
    rw [hrx, hframes]
    simp only [setResult_params, setRx_params, setResult_rx, setRx_rx, extractTypes]
    cases (rxTryExtract s.params T s.rx).2 <;> simp

/-! ## The statements -/

/-- Settles O22: the one check of the build operand, and the two of the configuration. -/
theorem overlongBuildGatewayTickAndForbiddenRateAreRefused :
    Obligations.OverlongBuildGatewayTickAndForbiddenRateAreRefused := by
  refine ⟨fun s T P d hP => if_neg hP.not_ge, fun s now bytes a w e hend => ?_,
    fun s now bytes a w e rate hend hrate hbad => ?_⟩
  · exact exec_tick_of_gateway now bytes a w hend e
  · exact exec_tick_of_forbiddenRate now bytes a w hend
      (slewRatesAllowed_of_forbidden hrate (rateAllowed_of_forbidden hbad)) e

/-- Settles O50: the tick is its seven phases, and what they leave is said field by field. -/
theorem tickAlwaysCompletesAtTheActuatorEnd : Obligations.TickAlwaysCompletesAtTheActuatorEnd := by
  intro s now bytes a w e hend hrates
  obtain ⟨hempty, hthr, hsteer⟩ := tickPhases_slot now bytes a w s
  have hfs : (tickPhases now bytes a w s).fs.seeded = true := by
    rw [tickPhases_fs]
    exact fsStep_seeded ..
  exact ⟨_, exec_tick_of_allowed now bytes a w hend hrates e, rfl, hfs, hempty, hthr, hsteer, tickPhases_params ..,
    tickPhases_crcAcc .., tickPhases_result .., tickPhases_requests .., tickPhases_freeCount ..⟩

/-- Settles O51: each request is performed, and leaves the parameters by which the next one completes. -/
theorem ticksAndSubmitsNeverStop : Obligations.TicksAndSubmitsNeverStop :=
  fun _ is hend hrates hwait his => run_ticksAndSubmits is hend hrates hwait his

/-- Settles O52: the push gives the buffer the fold starts from. -/
theorem tickPumpsAndParsesByTheUnitOperations : Obligations.TickPumpsAndParsesByTheUnitOperations := by
  intro s now bytes a w e hend hrates
  obtain ⟨hrx, hframes⟩ := foldl_extractNext s.params.expectedTypes
    ((s.setRx (rxAppend s.params.cap bytes s.rx).1).setResult (.taken (min bytes.length (s.params.cap - s.rx.cur)))) []
  refine ⟨_, _, exec_tick_of_allowed now bytes a w hend hrates e, exec_rxPush bytes s, ?_, ?_, ?_⟩
  · rw [tickPhases_rxTaken]
    rfl
  · rw [tickPhases_rx]
    exact hrx
  · rw [tickPhases_frameOut]
    exact hframes

/-- Settles O56: an update with a source does not end in Active (R171, R172), so neither source was live. -/
theorem activeAfterATickMeansNoLiveSource : Obligations.ActiveAfterATickMeansNoLiveSource := by
  intro s now bytes a w e hend hrates
  refine ⟨_, exec_tick_of_allowed now bytes a w hend hrates e, fun hactive => ?_⟩
  have hforced : failsafeActive (tickPhases now bytes a w s) = true := by
    rw [failsafeActive, hactive, neutralForced]
  have hsource : (radioOk (tickPhases now bytes a w s) || networkOk now (tickPhases now bytes a w s)) = false := by
    by_contra hlive
    rw [tickPhases_fs, eq_true_of_ne_false hlive] at hactive
    exact fsStep_active_source _ _ _ hactive
  obtain ⟨hradio, hnetwork⟩ := Bool.or_eq_false_iff.mp hsource
  rw [statusBits, hforced, hradio, hnetwork]
  rfl

end Sys2Proof.Machine
end

section
/-! SUPPORT. The first tick (`46_scheduler.md` R208; `70_reset_and_hazards.md` R251, R252). Two states that agree on what
reset specifies are carried through the phases together: their buffers hold one content, their LIVE registers agree
wherever arbitration may look, and no gate looks at its register. The actuator's first step is over no
time, so it changes nothing. -/

namespace Sys2Proof.Machine

/-! ## LIVE registers that arbitration cannot tell apart -/

/-- The flags and the stamp agree, and the values of a source agree where its flag or stamp lets them be read. -/
structure LiveAlike (r r' : LiveRegs) : Prop where
  radioLive : r.radioLive = r'.radioLive
  stamp : r.netLastCmdMs = r'.netLastCmdMs
  radio : r.radioLive = true → r.radioThr = r'.radioThr ∧ r.radioSteer = r'.radioSteer
  network : r.netLastCmdMs ≠ 0 → r.netThr = r'.netThr ∧ r.netSteer = r'.netSteer

namespace LiveAlike

variable {r r' : LiveRegs}

theorem sampled (h : LiveAlike r r') (a : Option Axes) : LiveAlike (radioSampled a r) (radioSampled a r') := by
  cases a with
  | none => exact ⟨rfl, h.stamp, nofun, h.network⟩
  | some v => exact ⟨rfl, h.stamp, fun _ => ⟨rfl, rfl⟩, h.network⟩

theorem taken (h : LiveAlike r r') : LiveAlike (slotTaken r).1 (slotTaken r').1 :=
  ⟨h.radioLive, h.stamp, h.radio, h.network⟩

theorem arrived (h : LiveAlike r r') (c : Option Axes) (now : U32) :
    LiveAlike (netArrivedIf c now r) (netArrivedIf c now r') := by
  cases c with
  | none => exact h
  | some v => exact ⟨h.radioLive, rfl, h.radio, fun _ => ⟨rfl, rfl⟩⟩

theorem arbitrate_eq (h : LiveAlike r r') (timeout now : U32) : arbitrate timeout now r = arbitrate timeout now r' := by
  rcases arbitrate_cases timeout now r with ⟨hradio, e⟩ | ⟨hradio, hnet, e⟩ | ⟨hradio, hnet, e⟩
  · obtain ⟨hthr, hsteer⟩ := h.radio hradio
    rw [e, arbitrate_of_radioLive (h.radioLive ▸ hradio), hthr, hsteer]
  · obtain ⟨hthr, hsteer⟩ := h.network ((netLive_iff _ _ _).mp hnet).1
    rw [e, arbitrate_of_network (h.radioLive ▸ hradio) (h.stamp ▸ hnet), hthr, hsteer]
  · rw [e, arbitrate_of_neither (h.radioLive ▸ hradio) (h.stamp ▸ hnet)]

end LiveAlike

/-! ## A first tick, register by register -/

theorem gateOpen_first {seeded : Bool} (hfirst : seeded = false) (now last interval : U32) :
    gateOpen (!seeded) now last interval = true := (gateOpen_unseeded_iff _ _ _ _).mpr (.inl hfirst)

section
variable (now : U32) (bytes : List Byte) (a : Option Axes) (w : Sensors) {s : State} (hfirst : s.sched.seeded = false)
include hfirst

/-- The poll is made whatever `RC_LAST_MS` holds. -/
theorem firstTick_live : (tickPhases now bytes a w s).live =
    netArrivedIf
      (networkCommand s.params.netMerge (frameCommandOf (tickPhases now bytes a w s).ports.frameOut)
        (slotTaken s.live).2)
      now (slotTaken (radioSampled a s.live)).1 := by
  rw [tickPhases_live_eq_netArrivedIf]
  rcases tickPhases_radio_cases now bytes a w s with ⟨_, _, _, hlive⟩ | ⟨hgate, _⟩
  · rw [hlive]
  · rw [gateOpen_first hfirst] at hgate; cases hgate

theorem firstTick_poll :
    (tickPhases now bytes a w s).ports.radioPoll = true ∧ (tickPhases now bytes a w s).sched.rcLastMs = now := by
  rcases tickPhases_radio_cases now bytes a w s with ⟨_, hpoll, hlast, _⟩ | ⟨hgate, _⟩
  · exact ⟨hpoll, hlast⟩
  · rw [gateOpen_first hfirst] at hgate; cases hgate

/-- `ACT_LAST_MS` is not read: the output is forced, or each axis takes one step over no time. -/
theorem firstTick_actuator :
    let t := tickPhases now bytes a w s
    (failsafeActive t = true ∧ t.sched.cmdThr = f32Zero ∧ t.sched.cmdSteer = f32Zero ∧ t.sched.appliedThr = f32Zero ∧
        t.sched.appliedSteer = f32Zero ∧ t.sched.actLastMs = now ∧ t.ports.actSet = none ∧
        t.ports.actNeutral = true) ∨
      (failsafeActive t = false ∧
        (t.sched.cmdThr, t.sched.cmdSteer) =
          (arbitrate s.params.netTimeoutMs now t.live).getD (s.sched.cmdThr, s.sched.cmdSteer) ∧
        t.sched.appliedThr = slewStep t.sched.cmdThr s.sched.appliedThr s.params.slewRateThr 0 ∧
        t.sched.appliedSteer = slewStep t.sched.cmdSteer s.sched.appliedSteer s.params.slewRateSteer 0 ∧
        t.sched.actLastMs = now ∧ t.ports.actSet = some (t.sched.appliedThr, t.sched.appliedSteer) ∧
        t.ports.actNeutral = false) := by
  intro t
  obtain ⟨_, hthr, hsteer, happThr, happSteer, hlast, hset, hneutral⟩ := tickPhases_from_tickDriven now bytes a w s
  rcases tickDriven_cases now bytes a w s with ⟨hforced, h⟩ | ⟨hfree, _, h⟩ | ⟨_, hgate, _⟩
  · refine .inl ⟨hforced, ?_⟩
    rw [hthr, hsteer, happThr, happSteer, hlast, hset, hneutral, h]
    simp
  · refine .inr ⟨hfree, tickPhases_command_of_unforced now bytes a w s hfree, ?_⟩
    rw [hthr, hsteer, happThr, happSteer, hlast, hset, hneutral, h]
    simp [actuate_sched, actuate_ports, hfirst]
  · rw [gateOpen_first hfirst] at hgate; cases hgate

/-- `TLM_LAST_MS` is not read: the frame is sent, or skipped because it does not fit. -/
theorem firstTick_telemetry :
    let t := tickPhases now bytes a w s
    t.sched.tlmLastMs = now ∧
      ((s.params.txbufSize < 23 ∧ t.ports.txBytes = [] ∧ t.sched.tlmSeq = s.sched.tlmSeq) ∨
        (23 ≤ s.params.txbufSize ∧
          buildFrame .telemetry (encodeTelemetry s.sched.tlmSeq (statusByte now t) w) s.params.txbufSize =
            .ok t.ports.txBytes ∧
          t.sched.tlmSeq = s.sched.tlmSeq + 1)) := by
  intro t
  rcases tickPhases_telemetry_cases now bytes a w s with
    ⟨hgate, _⟩ | ⟨_, hsmall, hlast, hnone, hseq⟩ | ⟨_, hfits, hlast, hbuild, hseq⟩
  · rw [gateOpen_first hfirst] at hgate; cases hgate
  · exact ⟨hlast, .inl ⟨hsmall, hnone, hseq⟩⟩
  · exact ⟨hlast, .inr ⟨hfits, hbuild, hseq⟩⟩

end

/-! ## Two states before a first tick -/

theorem schedRegs_ext {r r' : SchedRegs} (h1 : r.cmdThr = r'.cmdThr) (h2 : r.cmdSteer = r'.cmdSteer)
    (h3 : r.appliedThr = r'.appliedThr) (h4 : r.appliedSteer = r'.appliedSteer) (h5 : r.actLastMs = r'.actLastMs)
    (h6 : r.rcLastMs = r'.rcLastMs) (h7 : r.tlmLastMs = r'.tlmLastMs) (h8 : r.seeded = r'.seeded)
    (h9 : r.tlmSeq = r'.tlmSeq) : r = r' := by
  cases r; cases r'; simp_all

theorem ports_ext {q q' : Ports} (h1 : q.rxTaken = q'.rxTaken) (h2 : q.radioPoll = q'.radioPoll)
    (h3 : q.frameOut = q'.frameOut) (h4 : q.actSet = q'.actSet) (h5 : q.actNeutral = q'.actNeutral)
    (h6 : q.txBytes = q'.txBytes) : q = q' := by
  cases q; cases q'; simp_all

/-- What two states before their first tick share where they differ only in registers that reset leaves unspecified. -/
structure FirstTickAlike (s s' : State) : Prop where
  params : s'.params = s.params
  first : s.sched.seeded = false
  first' : s'.sched.seeded = false
  fsFirst : s.fs.seeded = false
  fs : ∃ v, s'.fs = { s.fs with lastActiveMs := v }
  wf : s.rx.mem.wf = true
  wf' : s'.rx.mem.wf = true
  content : s.rx.content = s'.rx.content
  live : LiveAlike s.live s'.live
  slot : (slotTaken s.live).2 = (slotTaken s'.live).2
  cmdThr : s.sched.cmdThr = s'.sched.cmdThr
  cmdSteer : s.sched.cmdSteer = s'.sched.cmdSteer
  appliedThr : s.sched.appliedThr = s'.sched.appliedThr
  appliedSteer : s.sched.appliedSteer = s'.sched.appliedSteer
  tlmSeq : s.sched.tlmSeq = s'.sched.tlmSeq

namespace FirstTickAlike

variable {s s' : State} (h : FirstTickAlike s s') (now : U32) (bytes : List Byte) (a : Option Axes) (w : Sensors)
include h

theorem cur : s.rx.cur = s'.rx.cur := by rw [← content_length, h.content, content_length]

theorem pushed_content :
    (rxAppend s.params.cap bytes s.rx).1.content = (rxAppend s'.params.cap bytes s'.rx).1.content := by
  rw [rxAppend_content _ _ h.wf, rxAppend_content _ _ h.wf', h.params, h.cur, h.content]

theorem rxTaken_eq :
    (tickPhases now bytes a w s).ports.rxTaken = (tickPhases now bytes a w s').ports.rxTaken := by
  rw [tickPhases_rxTaken, tickPhases_rxTaken, h.params, h.cur]

theorem frameOut_eq :
    (tickPhases now bytes a w s).ports.frameOut = (tickPhases now bytes a w s').ports.frameOut := by
  rw [tickPhases_frameOut, tickPhases_frameOut, h.params]
  exact (extractTypes_of_content _ _ (h.params ▸ h.pushed_content bytes)).1

theorem content_eq : (tickPhases now bytes a w s).rx.content = (tickPhases now bytes a w s').rx.content := by
  rw [tickPhases_rx, tickPhases_rx, h.params]
  exact (extractTypes_of_content _ _ (h.params ▸ h.pushed_content bytes)).2

theorem liveAlike : LiveAlike (tickPhases now bytes a w s).live (tickPhases now bytes a w s').live := by
  rw [firstTick_live now bytes a w h.first, firstTick_live now bytes a w h.first', h.params, h.slot,
    h.frameOut_eq now bytes a w]
  exact ((h.live.sampled a).taken).arrived _ now

theorem radioOk_eq : radioOk (tickPhases now bytes a w s) = radioOk (tickPhases now bytes a w s') :=
  (h.liveAlike now bytes a w).radioLive

theorem networkOk_eq : networkOk now (tickPhases now bytes a w s) = networkOk now (tickPhases now bytes a w s') := by
  rw [networkOk, networkOk, tickPhases_params, tickPhases_params, h.params, (h.liveAlike now bytes a w).stamp]

theorem fsState_eq : (tickPhases now bytes a w s).fs.state = (tickPhases now bytes a w s').fs.state := by
  obtain ⟨v, hfs⟩ := h.fs
  rw [tickPhases_fs, tickPhases_fs, ← h.radioOk_eq, ← h.networkOk_eq, h.params, hfs]
  rcases fsStep_ignores_lastActive (p := s.params) now (.inl h.fsFirst) (_ || _) v with hsame | ⟨_, hsame⟩
  · rw [hsame]
  · rw [hsame]

theorem failsafeActive_eq :
    failsafeActive (tickPhases now bytes a w s) = failsafeActive (tickPhases now bytes a w s') := by
  rw [failsafeActive, failsafeActive, tickPhases_params, tickPhases_params, h.params, h.fsState_eq]

theorem statusBits_eq : statusBits now (tickPhases now bytes a w s) = statusBits now (tickPhases now bytes a w s') := by
  rw [statusBits, statusBits, h.failsafeActive_eq, h.networkOk_eq, h.radioOk_eq]

theorem statusByte_eq : statusByte now (tickPhases now bytes a w s) = statusByte now (tickPhases now bytes a w s') := by
  rw [statusByte, statusByte, h.statusBits_eq]

theorem command_eq :
    (arbitrate s.params.netTimeoutMs now (tickPhases now bytes a w s).live).getD (s.sched.cmdThr, s.sched.cmdSteer) =
      (arbitrate s'.params.netTimeoutMs now (tickPhases now bytes a w s').live).getD
        (s'.sched.cmdThr, s'.sched.cmdSteer) := by
  rw [(h.liveAlike now bytes a w).arbitrate_eq, h.params, h.cmdThr, h.cmdSteer]

theorem actuator_eq :
    let t := tickPhases now bytes a w s
    let t' := tickPhases now bytes a w s'
    t.sched.cmdThr = t'.sched.cmdThr ∧ t.sched.cmdSteer = t'.sched.cmdSteer ∧
      t.sched.appliedThr = t'.sched.appliedThr ∧ t.sched.appliedSteer = t'.sched.appliedSteer ∧
      t.sched.actLastMs = t'.sched.actLastMs ∧ t.ports.actSet = t'.ports.actSet ∧
      t.ports.actNeutral = t'.ports.actNeutral := by
  intro t t'
  have hforced : failsafeActive t = failsafeActive t' := h.failsafeActive_eq now bytes a w
  rcases firstTick_actuator now bytes a w h.first with
    ⟨hf, hthr, hsteer, happThr, happSteer, hlast, hset, hneutral⟩ | ⟨hf, hcmd, happThr, happSteer, hlast, hset, hneutral⟩
  all_goals rcases firstTick_actuator now bytes a w h.first' with
    ⟨hf', hthr', hsteer', happThr', happSteer', hlast', hset', hneutral'⟩ |
      ⟨hf', hcmd', happThr', happSteer', hlast', hset', hneutral'⟩
  · exact ⟨hthr.trans hthr'.symm, hsteer.trans hsteer'.symm, happThr.trans happThr'.symm, happSteer.trans happSteer'.symm,
      hlast.trans hlast'.symm, hset.trans hset'.symm, hneutral.trans hneutral'.symm⟩
  · cases (hf.symm.trans hforced).trans hf'
  · cases (hf.symm.trans hforced).trans hf'
  · obtain ⟨hthr, hsteer⟩ := Prod.mk.inj (hcmd.trans ((h.command_eq now bytes a w).trans hcmd'.symm))
    have hsameThr : t.sched.appliedThr = t'.sched.appliedThr := by
      rw [happThr, happThr', hthr, h.appliedThr, h.params]
    have hsameSteer : t.sched.appliedSteer = t'.sched.appliedSteer := by
      rw [happSteer, happSteer', hsteer, h.appliedSteer, h.params]
    exact ⟨hthr, hsteer, hsameThr, hsameSteer, hlast.trans hlast'.symm, by rw [hset, hset', hsameThr, hsameSteer],
      hneutral.trans hneutral'.symm⟩

theorem telemetry_eq :
    let t := tickPhases now bytes a w s
    let t' := tickPhases now bytes a w s'
    t.sched.tlmLastMs = t'.sched.tlmLastMs ∧ t.sched.tlmSeq = t'.sched.tlmSeq ∧ t.ports.txBytes = t'.ports.txBytes := by
  intro t t'
  obtain ⟨hlast, hsent⟩ := firstTick_telemetry now bytes a w h.first
  obtain ⟨hlast', hsent'⟩ := firstTick_telemetry now bytes a w h.first'
  refine ⟨hlast.trans hlast'.symm, ?_⟩
  rw [h.params, ← h.tlmSeq] at hsent'
  rcases hsent with ⟨hsmall, htx, hseq⟩ | ⟨hfits, hbuild, hseq⟩
  all_goals rcases hsent' with ⟨hsmall', htx', hseq'⟩ | ⟨hfits', hbuild', hseq'⟩
  · exact ⟨hseq.trans hseq'.symm, htx.trans htx'.symm⟩
  · omega
  · omega
  · rw [← h.statusByte_eq] at hbuild'
    exact ⟨hseq.trans hseq'.symm, Checked.ok.inj (hbuild.symm.trans hbuild')⟩

theorem ports_eq : (tickPhases now bytes a w s).ports = (tickPhases now bytes a w s').ports := by
  obtain ⟨_, _, _, _, _, hset, hneutral⟩ := h.actuator_eq now bytes a w
  obtain ⟨_, _, htx⟩ := h.telemetry_eq now bytes a w
  exact ports_ext (h.rxTaken_eq now bytes a w)
    ((firstTick_poll now bytes a w h.first).1.trans (firstTick_poll now bytes a w h.first').1.symm)
    (h.frameOut_eq now bytes a w) hset hneutral htx

theorem sched_eq : (tickPhases now bytes a w s).sched = (tickPhases now bytes a w s').sched := by
  obtain ⟨hcmdThr, hcmdSteer, hthr, hsteer, hact, _, _⟩ := h.actuator_eq now bytes a w
  obtain ⟨htlm, hseq, _⟩ := h.telemetry_eq now bytes a w
  exact schedRegs_ext hcmdThr hcmdSteer hthr hsteer hact
    ((firstTick_poll now bytes a w h.first).2.trans (firstTick_poll now bytes a w h.first').2.symm) htlm rfl hseq

end FirstTickAlike

/-! ## The first step of the actuator -/

section
variable {x m : F32}

theorem feq_zero_iff : feq x f32Zero = true ↔ f32IsNaN x = false ∧ f32Key x = 0 := by
  rw [feq, show f32IsNaN f32Zero = false from rfl, show f32Key f32Zero = 0 from rfl]
  simp

theorem f32Key_pack_zero (neg : Bool) : f32Key (f32Pack neg 0) = 0 := by
  rw [f32Key, f32Mag_pack _ (by decide)]
  simp

theorem f32IsFinite_pack_zero (neg : Bool) : f32IsFinite (f32Pack neg 0) = true := by
  rw [f32IsFinite, f32Mag_pack _ (by decide)]
  rfl

theorem f32Units_pack_zero (neg : Bool) : f32Units (f32Pack neg 0) = 0 := by
  rw [f32Units_eq, f32Mag_pack _ (by decide)]
  rfl

theorem roundUnits_zero (d : Nat) : roundUnits 0 d = 0 := by
  simp [roundUnits, divRoundEven]

/-- Over no time the change is a zero, of either sign. -/
theorem maxChange_zero {rate : F32} (h : rateAllowed rate = true) : ∃ neg, maxChange rate 0 = f32Pack neg 0 := by
  obtain ⟨hfin, _⟩ := Bool.and_eq_true_iff.mp h
  obtain ⟨neg, hprod⟩ : ∃ neg, fmul rate (f32OfU32 0) = f32Pack neg 0 :=
    ⟨_, by rw [fmul_of_finite hfin (by decide), show f32Units (f32OfU32 0) = 0 by decide, Nat.mul_zero, roundUnits_zero]⟩
  refine ⟨f32Neg (f32Pack neg 0) != f32Neg f32Thousand, ?_⟩
  rw [maxChange, hprod, fdiv_of_finite (f32IsFinite_pack_zero _) (by decide) (by decide), f32Units_pack_zero, Nat.zero_mul,
    roundUnits_zero]

theorem feq_fadd_zero (hfin : f32IsFinite m = true) (hm : f32Key m = 0) : feq (fadd f32Zero m) f32Zero = true := by
  have hscaled : f32Scaled m = 0 := le_antisymm (f32Scaled_nonpos_iff.mpr hm.le) (f32Scaled_nonneg_iff.mpr hm.ge)
  have hzero : f32Scaled f32Zero = 0 := rfl
  rw [feq_zero_iff, fadd_of_finite rfl hfin, hscaled, hzero, if_pos (add_zero 0)]
  exact ⟨f32IsNaN_of_finite (f32IsFinite_pack_zero _), f32Key_pack_zero _⟩

/-- A difference from zero has the sign and the kind of the value. -/
theorem fsub_zero (h : f32IsNaN x = false) : f32IsNaN (fsub x f32Zero) = false ∧ f32Key (fsub x f32Zero) = f32Key x := by
  rcases f32_kinds x with ⟨hnan, _, _⟩ | ⟨_, hinf, _⟩ | ⟨_, _, hfin⟩
  · rw [h] at hnan; cases hnan
  · have hsame : fsub x f32Zero = x := by
      rw [fsub, fadd_of_inf_left hinf (by decide), show f32IsInf (fneg f32Zero) = false by decide]
      rfl
    rw [hsame]
    exact ⟨h, rfl⟩
  · have hzero : f32Scaled (fneg f32Zero) = 0 := by decide
    have hle : f32Key (fsub x f32Zero) ≤ f32Key x := f32Key_fadd_le hfin (by decide) h (by rw [hzero]; omega)
    have hge : f32Key x ≤ f32Key (fsub x f32Zero) := f32Key_le_fadd hfin (by decide) h (by rw [hzero]; omega)
    exact ⟨f32IsNaN_fsub_of_finite hfin rfl, le_antisymm hle hge⟩

/-- A step by zero from zero stays at zero, unless the target is NaN and is taken as it is (R268). -/
theorem slewBy_from_zero (hfin : f32IsFinite m = true) (hm : f32Key m = 0) :
    feq (slewBy x f32Zero m) f32Zero = true ∨ (slewBy x f32Zero m = x ∧ f32IsNaN (slewBy x f32Zero m) = true) := by
  rcases slewBy_cases x f32Zero m with ⟨_, hr⟩ | ⟨_, _, hr⟩ | ⟨habove, hbelow, hr⟩
  · rw [hr]
    exact .inl (feq_fadd_zero hfin hm)
  · rw [hr]
    exact .inl (feq_fadd_zero (by rwa [f32IsFinite_fneg]) (by rw [f32Key_fneg, hm]; rfl))
  · rw [hr]
    cases hx : f32IsNaN x with
    | true => exact .inr ⟨rfl, rfl⟩
    | false =>
      obtain ⟨hd, hkey⟩ := fsub_zero hx
      have hmnan := f32IsNaN_of_finite hfin
      have hle : ¬ f32Key m < f32Key x := fun hlt => by
        rw [fgt, flt_iff.mpr ⟨hmnan, hd, by rwa [hkey]⟩] at habove
        cases habove
      have hge : ¬ f32Key x < f32Key (fneg m) := fun hlt => by
        rw [flt_iff.mpr ⟨hd, by rwa [f32IsNaN_fneg], by rwa [hkey]⟩] at hbelow
        cases hbelow
      rw [f32Key_fneg] at hge
      exact .inl (feq_zero_iff.mpr ⟨hx, by omega⟩)

theorem slewStep_from_zero {target rate : F32} (h : rateAllowed rate = true) :
    feq (slewStep target f32Zero rate 0) f32Zero = true ∨
      (slewStep target f32Zero rate 0 = target ∧ f32IsNaN (slewStep target f32Zero rate 0) = true) := by
  obtain ⟨neg, hm⟩ := maxChange_zero h
  rw [slewStep, hm]
  exact slewBy_from_zero (f32IsFinite_pack_zero neg) (f32Key_pack_zero neg)

end

/-! ## The statements -/

/-- Settles O59: the two states agree on all that the phases of a first tick read. -/
theorem firstTickIgnoresUnspecifiedRegisters : Obligations.FirstTickIgnoresUnspecifiedRegisters := by
  intro s rt rs st ss nt ns la al rl tl now m bytes a w e hend hrates hfirst hfs hslot hradio hstamp hwf hwf' hread s'
  have hcontent : s.rx.content = s'.rx.content :=
    List.map_congr_left fun o ho => (hread o (List.mem_range.mp ho)).symm
  have hlive : LiveAlike s.live s'.live :=
    ⟨rfl, rfl, fun h => absurd h (ne_true_of_eq_false hradio), fun h => absurd hstamp h⟩
  have halike : FirstTickAlike s s' :=
    { params := rfl, first := hfirst, first' := hfirst, fsFirst := hfs, fs := ⟨la, rfl⟩, wf := hwf, wf' := hwf',
      content := hcontent, live := hlive, slot := by rw [slotTaken_empty hslot, slotTaken_empty (r := s'.live) hslot],
      cmdThr := rfl, cmdSteer := rfl, appliedThr := rfl, appliedSteer := rfl, tlmSeq := rfl }
  have hafter := halike.content_eq now bytes a w
  refine ⟨_, _, exec_tick_of_allowed now bytes a w hend hrates e,
    exec_tick_of_allowed (s := s') now bytes a w hend hrates e, halike.ports_eq now bytes a w,
    halike.sched_eq now bytes a w, ?_, hafter, fun hm => ?_, halike.fsState_eq now bytes a w,
    halike.statusBits_eq now bytes a w⟩
  · rw [← content_length, hafter, content_length]
  · subst hm
    rw [tickPhases_rx, tickPhases_rx]

/-- Settles O60: the output is forced, or a step over no time from the applied values of reset, which are zero. -/
theorem firstActuatorOutputIsNeutral : Obligations.FirstActuatorOutputIsNeutral := by
  intro p now bytes a w e hallowed hend
  have hrates : slewRatesAllowed p = true := by
    simp only [paramsAllowed, Bool.and_eq_true] at hallowed
    obtain ⟨⟨⟨_, hrates⟩, _⟩, _⟩ := hallowed
    exact hrates
  obtain ⟨hrateThr, hrateSteer⟩ := Bool.and_eq_true_iff.mp hrates
  refine ⟨_, exec_tick_of_allowed (s := State.resetWith p) now bytes a w hend hrates e, ?_⟩
  rcases firstTick_actuator now bytes a w (s := State.resetWith p) rfl with
    ⟨_, _, _, _, _, _, _, hneutral⟩ | ⟨_, _, hthr, hsteer, _, hset, _⟩
  · exact .inl hneutral
  · refine .inr ⟨_, _, hset, ?_, ?_⟩
    · rw [hthr]
      exact slewStep_from_zero hrateThr
    · rw [hsteer]
      exact slewStep_from_zero hrateSteer

end Sys2Proof.Machine
end
